-- ==== Sys2Proof/Word.lean ====
section
/-! DEFINITION. The word types of TRTOTP-CORE (00_scope.md R9, R198): a byte is 8 bits, a word
32 bits, and the counter, timestamp and step are 64 bits. -/

namespace Sys2Proof

/-- A byte: 8 bits (R198). -/
abbrev Byte := BitVec 8

/-- A word: 32 bits (R198). -/
abbrev Word := BitVec 32

/-- A 64-bit number: the bit counter, the HOTP counter, the timestamp, the step (R9). -/
abbrev DWord := BitVec 64

/-- A command word: 16 bits (R9, R60). -/
abbrev CmdWord := BitVec 16

end Sys2Proof
end

