-- ==== Sys2Proof/Config.lean ====
section
/-! DEFINITION. The implementation parameters of 00_scope.md R9 that the rules name. The spec leaves
no value of any result open, so there is no free value here. -/

namespace Sys2Proof.Config

/-- Hash block size `BLOCK` in bytes (R9). -/
def blockBytes : Nat := 64

/-- Maximum HMAC key length `KEYCAP` in bytes; a longer key fails (R9, R102). -/
def keyCap : Nat := 64

/-- Maximum raw secret length `SECCAP` in bytes, the bound of XOR.MASK (R9, R141). -/
def secCap : Nat := 20

/-- Display capacity `DISPCAP` in digits, the bound of DEC.RENDER (R9, R116). -/
def dispCap : Nat := 10

/-- `EPOCH_OFFSET`: the Unix time of the device epoch 1997-01-01T00:00:00Z, in seconds (R9, R126). -/
def epochOffset : Nat := 852076800

/-- The number of byte addresses of the register space (R41). -/
def regSpaceBytes : Nat := 1024

end Sys2Proof.Config
end

