-- ==== Sys2Proof/Syntax.lean ====
section
/-! DEFINITION. The twelve commands of command set TRTOTP-CORE v1 (30_encoding.md R66), one
constructor each, and the abstract source lines of R71 from which an assembler makes them. -/

namespace Sys2Proof

/-- The sign TIME.XLATE gives the timezone correction: its mode bit `a` (R64, R126). -/
inductive TzMode where
  /-- `a = 0`: the offset is subtracted. -/
  | subtract
  /-- `a = 1`: the offset is added. -/
  | add
deriving DecidableEq, Repr

/-- A command (R66). The operand of a format-N command is its 8-bit immediate, all of whose 256
values decode (R63); the operand of the format-M command is its mode bit (R64). -/
inductive Instr where
  /-- NOP, `0x0000` (R147). -/
  | nop
  /-- SHA1.INIT, `0x1000` (R88). -/
  | sha1Init
  /-- SHA1.UPDATE n, `0x1100 + n` (R89). -/
  | sha1Update (n : Byte)
  /-- SHA1.FINAL, `0x1200` (R90). -/
  | sha1Final
  /-- SHA1.HASH n, `0x1300 + n` (R92). -/
  | sha1Hash (n : Byte)
  /-- HMAC.COMPUTE n, `0x2000 + n` (R102). -/
  | hmacCompute (n : Byte)
  /-- HOTP.DERIVE, `0x3000` (R114). -/
  | hotpDerive
  /-- DEC.RENDER w, `0x3100 + w` (R116). -/
  | decRender (w : Byte)
  /-- TIME.XLATE a, `0x4000 + a` (R127). -/
  | timeXlate (a : TzMode)
  /-- TOTP.DERIVE, `0x4100` (R129). -/
  | totpDerive
  /-- XOR.MASK n, `0x5000 + n` (R141). -/
  | xorMask (n : Byte)
  /-- CTX.CLEAR, `0xF000` (R148). -/
  | ctxClear
deriving DecidableEq, Repr

/-- The twelve mnemonics of R66, as a source line names them (R71). -/
inductive Mnemonic where
  | nop | sha1Init | sha1Update | sha1Final | sha1Hash | hmacCompute
  | hotpDerive | decRender | timeXlate | totpDerive | xorMask | ctxClear
deriving DecidableEq, Repr

/-- The three formats of the command word (R61 to R64). -/
inductive Format where
  /-- Format Z: no operand; `imm8` must be zero (R62). -/
  | z
  /-- Format N: one 8-bit unsigned operand (R63). -/
  | n
  /-- Format M: one mode bit; `imm8[7:1]` must be zero (R64). -/
  | m
deriving DecidableEq, Repr

/-- The format of each mnemonic (R66). -/
def Mnemonic.format : Mnemonic → Format
  | .nop | .sha1Init | .sha1Final | .hotpDerive | .totpDerive | .ctxClear => .z
  | .sha1Update | .sha1Hash | .hmacCompute | .decRender | .xorMask => .n
  | .timeXlate => .m

/-- One command of a script before assembly: a mnemonic and the operand written after it, if any
(R71). The operand is the numeral's value, so it may be out of range here. -/
structure SourceLine where
  /-- The mnemonic. -/
  mnemonic : Mnemonic
  /-- The operand, if one is written. -/
  operand : Option Nat
deriving DecidableEq, Repr

end Sys2Proof
end

