-- ==== Sys2Proof/WellFormed.lean ====
section
/-! DEFINITION. Which source lines the assembler accepts (30_encoding.md R71). An `Instr` carries
its operand in a type that holds exactly the values that decode (R63, R64), so every term of that
type is well formed; what can be ill formed is the line it is assembled from. -/

namespace Sys2Proof

/-- R71: format N takes one operand in 0 to 255, format M one operand 0 or 1, format Z none;
an operand out of range, an operand on a format-Z mnemonic and a missing operand are errors. -/
def SourceLine.wellFormed (l : SourceLine) : Bool :=
  match l.mnemonic.format, l.operand with
  | .z, none => true
  | .z, some _ => false
  | .n, some v => decide (v ≤ 255)
  | .n, none => false
  | .m, some v => decide (v ≤ 1)
  | .m, none => false

/-- The source line that spells a command (R71). -/
def Instr.sourceLine : Instr → SourceLine
  | .nop => ⟨.nop, none⟩
  | .sha1Init => ⟨.sha1Init, none⟩
  | .sha1Update n => ⟨.sha1Update, some n.toNat⟩
  | .sha1Final => ⟨.sha1Final, none⟩
  | .sha1Hash n => ⟨.sha1Hash, some n.toNat⟩
  | .hmacCompute n => ⟨.hmacCompute, some n.toNat⟩
  | .hotpDerive => ⟨.hotpDerive, none⟩
  | .decRender w => ⟨.decRender, some w.toNat⟩
  | .timeXlate .subtract => ⟨.timeXlate, some 0⟩
  | .timeXlate .add => ⟨.timeXlate, some 1⟩
  | .totpDerive => ⟨.totpDerive, none⟩
  | .xorMask n => ⟨.xorMask, some n.toNat⟩
  | .ctxClear => ⟨.ctxClear, none⟩

/-- A command is well formed when the line that spells it is. -/
def Instr.wellFormed (i : Instr) : Bool := i.sourceLine.wellFormed

end Sys2Proof
end

