-- ==== Sys2Proof/Decode.lean ====
section
/-! DEFINITION. Decoding and encoding of the command word (30_encoding.md R60 to R70, R75), the
opcode table as rows, and the assembler of R71 over abstract source lines. -/

namespace Sys2Proof

/-- Why a word is illegal. The machine treats all of these alike (R68). -/
inductive IllegalWord where
  /-- `opc` is none of the twelve of R66. -/
  | unassignedOpcode
  /-- A format-Z opcode with `imm8 != 0` (R62). -/
  | nonzeroImmediate
  /-- TIME.XLATE with `imm8 > 1` (R64). -/
  | modeOutOfRange
deriving DecidableEq, Repr

/-- What `decode` returns: a command with its operand, or illegal (R67). -/
inductive Decoded where
  | command (i : Instr)
  | illegal (why : IllegalWord)
deriving DecidableEq, Repr

/-- The command, where there is one. -/
def Decoded.toOption : Decoded → Option Instr
  | .command i => some i
  | .illegal _ => none

/-- The field `opc = w[15:8]` (R61). -/
def opcField (w : CmdWord) : Byte := w.extractLsb' 8 8

/-- The field `imm8 = w[7:0]` (R61, R65). -/
def immField (w : CmdWord) : Byte := w.extractLsb' 0 8

/-- Format Z: the immediate must be zero (R62). -/
def decodeZ (i : Instr) (imm8 : Byte) : Decoded :=
  if imm8 = 0 then .command i else .illegal .nonzeroImmediate

/-- Format M: the mode bit is `imm8[0]` and `imm8[7:1]` must be zero (R64). -/
def decodeM (imm8 : Byte) : Decoded :=
  if imm8 = 0 then .command (.timeXlate .subtract)
  else if imm8 = 1 then .command (.timeXlate .add)
  else .illegal .modeOutOfRange

/-- What the two fields of a word say (R66 to R68). -/
def decodeFields (opc imm8 : Byte) : Decoded :=
  if opc = 0x00 then decodeZ .nop imm8
  else if opc = 0x10 then decodeZ .sha1Init imm8
  else if opc = 0x11 then .command (.sha1Update imm8)
  else if opc = 0x12 then decodeZ .sha1Final imm8
  else if opc = 0x13 then .command (.sha1Hash imm8)
  else if opc = 0x20 then .command (.hmacCompute imm8)
  else if opc = 0x30 then decodeZ .hotpDerive imm8
  else if opc = 0x31 then .command (.decRender imm8)
  else if opc = 0x40 then decodeM imm8
  else if opc = 0x41 then decodeZ .totpDerive imm8
  else if opc = 0x50 then .command (.xorMask imm8)
  else if opc = 0xF0 then decodeZ .ctxClear imm8
  else .illegal .unassignedOpcode

/-- Decoding, total on all 65,536 words (R67). -/
def decode (w : CmdWord) : Decoded := decodeFields (opcField w) (immField w)

/-- The word of a number presented on a command port of any width: `w mod 65536` (R60). -/
def portWord (w : Nat) : CmdWord := BitVec.ofNat 16 w

/-- The instruction the decoder reads from a table word of `nbits` bits: every bit above them is 0. -/
def decodeTableWord (nbits w : Nat) : Option Instr := (decode (portWord (w % 2 ^ nbits))).toOption

/-- The mode bit `a` as an 8-bit immediate (R64). -/
def TzMode.imm8 : TzMode → Byte
  | .subtract => 0
  | .add => 1

/-- Encoding: `opc` in bits 15:8, the operand or zero in bits 7:0 (R61 to R66). -/
def encode : Instr → CmdWord
  | .nop => 0x00#8 ++ 0x00#8
  | .sha1Init => 0x10#8 ++ 0x00#8
  | .sha1Update n => 0x11#8 ++ n
  | .sha1Final => 0x12#8 ++ 0x00#8
  | .sha1Hash n => 0x13#8 ++ n
  | .hmacCompute n => 0x20#8 ++ n
  | .hotpDerive => 0x30#8 ++ 0x00#8
  | .decRender w => 0x31#8 ++ w
  | .timeXlate a => 0x40#8 ++ a.imm8
  | .totpDerive => 0x41#8 ++ 0x00#8
  | .xorMask n => 0x50#8 ++ n
  | .ctxClear => 0xF0#8 ++ 0x00#8

/-! ### The opcode table as rows (R66, R75) -/

/-- One row of R66: a word `w` selects it when `(w and mask) = pattern`. -/
structure OpcodeRow where
  /-- The row's mnemonic. -/
  mnemonic : Mnemonic
  /-- The column "match" of R66. -/
  pattern : CmdWord
  /-- The column "mask" of R66. -/
  mask : CmdWord
deriving DecidableEq, Repr

/-- The rows of R66, in its order. -/
def opcodeTable : List OpcodeRow :=
  [⟨.nop, 0x0000, 0xFFFF⟩, ⟨.sha1Init, 0x1000, 0xFFFF⟩, ⟨.sha1Update, 0x1100, 0xFF00⟩,
   ⟨.sha1Final, 0x1200, 0xFFFF⟩, ⟨.sha1Hash, 0x1300, 0xFF00⟩, ⟨.hmacCompute, 0x2000, 0xFF00⟩,
   ⟨.hotpDerive, 0x3000, 0xFFFF⟩, ⟨.decRender, 0x3100, 0xFF00⟩, ⟨.timeXlate, 0x4000, 0xFFFE⟩,
   ⟨.totpDerive, 0x4100, 0xFFFF⟩, ⟨.xorMask, 0x5000, 0xFF00⟩, ⟨.ctxClear, 0xF000, 0xFFFF⟩]

/-- Whether a word selects a row (R66). -/
def OpcodeRow.selects (r : OpcodeRow) (w : CmdWord) : Bool := (w &&& r.mask) == r.pattern

/-- The mnemonic of a command. -/
def Instr.mnemonic (i : Instr) : Mnemonic := i.sourceLine.mnemonic

/-! ### Assembling a source line (R71) -/

/-- R71: the command a source line spells; an ill-formed line yields none. -/
def assemble (l : SourceLine) : Option Instr :=
  if l.wellFormed then
    let v := l.operand.getD 0
    some (match l.mnemonic with
      | .nop => .nop
      | .sha1Init => .sha1Init
      | .sha1Update => .sha1Update (BitVec.ofNat 8 v)
      | .sha1Final => .sha1Final
      | .sha1Hash => .sha1Hash (BitVec.ofNat 8 v)
      | .hmacCompute => .hmacCompute (BitVec.ofNat 8 v)
      | .hotpDerive => .hotpDerive
      | .decRender => .decRender (BitVec.ofNat 8 v)
      | .timeXlate => .timeXlate (if v = 0 then .subtract else .add)
      | .totpDerive => .totpDerive
      | .xorMask => .xorMask (BitVec.ofNat 8 v)
      | .ctxClear => .ctxClear)
  else none

/-- The word of a source line: `opc * 256 + operand`, or `opc * 256` for format Z (R71). -/
def assembleWord (l : SourceLine) : Option CmdWord := (assemble l).map encode

end Sys2Proof
end

