-- ==== Sys2Proof/Machine/State.lean ====
section
/-! DEFINITION. The state of the block (10_state.md R10 to R38), the reset state, and the reasons a
step can stop. Every field up to `hmaccnt` is one the spec names; the last two are the model's own
and carry the two ports. -/

namespace Sys2Proof.Machine

/-- PHASE, the lifecycle of the hash engine (R16). -/
inductive Phase where
  /-- IDLE = 0: not initialised since reset or CTX.CLEAR. -/
  | idle
  /-- ACTIVE = 1: initialised, not finalised. -/
  | active
  /-- DONE = 2: finalised. -/
  | done
deriving DecidableEq, Repr

/-- The hash state, the source's `HashState` (R10, R12 to R16). -/
@[ext]
structure HashState where
  /-- H0 (R12). -/
  h0 : Word
  /-- H1 (R12). -/
  h1 : Word
  /-- H2 (R12). -/
  h2 : Word
  /-- H3 (R12). -/
  h3 : Word
  /-- H4 (R12). -/
  h4 : Word
  /-- CNT_HI, the upper half of the processed-bit counter (R13). -/
  cntHi : Word
  /-- CNT_LO, the lower half of the processed-bit counter (R13). -/
  cntLo : Word
  /-- BUF[0..63], the pending-block buffer (R14). -/
  buf : Vector Byte 64
  /-- OFF, the number of pending bytes, 0 to 63 (R15). -/
  off : Fin 64
  /-- PHASE (R16). -/
  phase : Phase
deriving DecidableEq, Repr

/-- One transaction the host or the platform performs on the block. -/
inductive HostAction where
  /-- `issue(w)` on the command port (R60); bits above 15 are ignored. -/
  | issue (w : Nat)
  /-- `MemRead(addr, 1)` on the data port (R45); bits above 9 are ignored. -/
  | read (addr : Nat)
  /-- `MemWrite(addr, 1, v)` on the data port (R46); bits above 9 are ignored. -/
  | write (addr : Nat) (v : Byte)
  /-- The reset event, applied by the platform (R180). -/
  | reset
deriving DecidableEq, Repr

/-- The whole state of the block (R10), and the model's own two port fields. -/
@[ext]
structure State where
  /-- H0 to H4, CNT_HI, CNT_LO, BUF, OFF, PHASE (R12 to R16). -/
  hash : HashState
  /-- KEY[0..63] (R17). -/
  key : Vector Byte 64
  /-- KLEN (R17). -/
  klen : Byte
  /-- DIGITS (R18). -/
  digits : Byte
  /-- CTR (R19). -/
  ctr : DWord
  /-- CLK (R20). -/
  clk : Word
  /-- TZOFF, two's complement seconds (R21). -/
  tzoff : Word
  /-- TS (R22). -/
  ts : DWord
  /-- TSTEP (R23). -/
  tstep : Word
  /-- DKEY[0..19] (R29). -/
  dkey : Vector Byte 20
  /-- ESEC[0..19] (R30). -/
  esec : Vector Byte 20
  /-- MSG[0..255] (R31). -/
  msg : Vector Byte 256
  /-- BINCODE (R24). -/
  bincode : Word
  /-- CODE (R25). -/
  code : Word
  /-- OUT[0..10] (R26). -/
  out : Vector Byte 11
  /-- OLEN, 0 to 10 (R26). -/
  olen : Fin 11
  /-- DIGEST[0..19] (R27). -/
  digest : Vector Byte 20
  /-- DVALID (R28). -/
  dvalid : Bool
  /-- CSTEP (R32). -/
  cstep : DWord
  /-- CVALID (R32). -/
  cvalid : Bool
  /-- ERR (R34). -/
  err : Byte
  /-- FAULTED (R35). -/
  faulted : Bool
  /-- HMACCNT (R36). -/
  hmaccnt : Word
  /-- The MODEL's own field: what the host and the platform do next, oldest first (log entry 1). -/
  pending : List HostAction
  /-- The MODEL's own field: the bytes the data-port reads returned, oldest first (log entry 2). -/
  returned : List Byte
deriving DecidableEq, Repr

/-- The hash state after reset: all zero, and not the SHA-1 initial constants (R38). -/
def HashState.reset : HashState :=
  { h0 := 0, h1 := 0, h2 := 0, h3 := 0, h4 := 0, cntHi := 0, cntLo := 0,
    buf := Vector.replicate 64 0, off := 0, phase := .idle }

/-- The state after reset: every bit of state zero (R38, R181). -/
def State.reset : State :=
  { hash := HashState.reset,
    key := Vector.replicate 64 0, klen := 0, digits := 0, ctr := 0, clk := 0, tzoff := 0,
    ts := 0, tstep := 0, dkey := Vector.replicate 20 0, esec := Vector.replicate 20 0,
    msg := Vector.replicate 256 0, bincode := 0, code := 0, out := Vector.replicate 11 0,
    olen := 0, digest := Vector.replicate 20 0, dvalid := false, cstep := 0, cvalid := false,
    err := 0, faulted := false, hmaccnt := 0, pending := [], returned := [] }

/-- The faults of the machine: there are none. A failing command ends in a next state with a code
in ERR (R157, R169), and no data-port access fails (R46), so no step stops with a fault (safe). -/
inductive Fault where
deriving DecidableEq, Repr

/-- The refusals of the machine. -/
inductive Refusal where
  /-- Raised only by an arm of `exec` whose command has no meaning yet; no arm does (safe). -/
  | notModelled (mnemonic : String)
deriving DecidableEq, Repr

end Sys2Proof.Machine
end

