-- ==== Sys2Proof/Machine/Flags.lean ====
section
/-! DEFINITION. The flags (10_state.md R16, R28, R32, R33, R35): the STATUS view, and the shared
operations that clear flags and result registers. -/

namespace Sys2Proof.Machine

/-- The two-bit code of PHASE: IDLE 0, ACTIVE 1, DONE 2 (R16). -/
def Phase.code : Phase → Nat
  | .idle => 0
  | .active => 1
  | .done => 2

/-- A flag as a number, 0 or 1. -/
def bit (b : Bool) : Nat := if b then 1 else 0

/-- `STATUS = FAULTED * 128 + CVALID * 8 + DVALID * 4 + PHASE` (R33). -/
def State.status (s : State) : Byte :=
  BitVec.ofNat 8 (bit s.faulted * 128 + bit s.cvalid * 8 + bit s.dvalid * 4 + s.hash.phase.code)

/-- CVALID <- 0 (R32, R46, R74). -/
def clearCvalid (s : State) : State := { s with cvalid := false }

/-- DVALID <- 0, the "unset digest" (R28); DIGEST keeps its bytes (R171). -/
def unsetDigest (s : State) : State := { s with dvalid := false }

/-- OLEN <- 0 and OUT[0..10] <- `0x00`: no output string (R26, R171). -/
def clearString (s : State) : State := { s with olen := 0, out := Vector.replicate 11 0 }

/-- The commands whose frame leaves CVALID alone: NOP, TIME.XLATE and TOTP.DERIVE (R74). -/
def keepsCache : Instr → Bool
  | .nop | .timeXlate _ | .totpDerive => true
  | .sha1Init | .sha1Update _ | .sha1Final | .sha1Hash _ | .hmacCompute _ | .hotpDerive
  | .decRender _ | .xorMask _ | .ctxClear => false

end Sys2Proof.Machine
end

