-- ==== Sys2Proof/Machine/Ops.lean ====
section
/-! DEFINITION. The shared operations: byte order (20_memory.md R49, 00_scope.md R198), access to
the bytes of a window, the bit counter, failing a command (60_exceptions.md R157) and the frame
every command runs in (30_encoding.md R74). -/

namespace Sys2Proof.Machine

/-! ### Bytes and numbers -/

/-- `be32(b0, b1, b2, b3)`: four bytes as a word, the first most significant (R198). -/
def be32 (b0 b1 b2 b3 : Byte) : Word := b0 ++ b1 ++ b2 ++ b3

/-- Byte `k` of `bytes_be(v, n)`: `(v div 2^(8 * (n - 1 - k))) mod 256` (R198, R49). -/
def byteBE {w : Nat} (n : Nat) (v : BitVec w) (k : Nat) : Byte := v.extractLsb' (8 * (n - 1 - k)) 8

/-- `bytes_be(v, n)`, most significant byte first (R198). -/
def bytesBE {w : Nat} (n : Nat) (v : BitVec w) : List Byte := (List.range n).map (byteBE n v)

/-- `v` with byte `k` of its `n` big-endian bytes replaced by `b` (R49). -/
def putByteBE {w : Nat} (n : Nat) (v : BitVec w) (k : Nat) (b : Byte) : BitVec w :=
  (v &&& ~~~((0xFF#8).setWidth w <<< (8 * (n - 1 - k)))) ||| (b.setWidth w <<< (8 * (n - 1 - k)))

/-- The byte of a window at index `k`; indexes the window does not have are not asked for. -/
def byteAt {n : Nat} (v : Vector Byte n) (k : Nat) : Byte := v[k]?.getD 0

/-- A window with the byte at index `k` replaced. -/
def putAt {n : Nat} (v : Vector Byte n) (k : Nat) (b : Byte) : Vector Byte n := v.setIfInBounds k b

/-! ### The bit counter and the accumulators -/

/-- `CNT = CNT_HI * 2^32 + CNT_LO` (R13, R198). -/
def HashState.cnt (h : HashState) : DWord := h.cntHi ++ h.cntLo

/-- Writes CNT into its two halves (R13). -/
def HashState.setCnt (h : HashState) (c : DWord) : HashState :=
  { h with cntHi := c.extractLsb' 32 32, cntLo := c.extractLsb' 0 32 }

/-- `H[i]` for `i` in 0 to 4 (R198). -/
def HashState.acc (h : HashState) : Nat → Word
  | 0 => h.h0
  | 1 => h.h1
  | 2 => h.h2
  | 3 => h.h3
  | _ => h.h4

/-! ### Failing a command, and the frame -/

/-- The failure codes of ERR by name (R156). -/
inductive ErrorCode where
  /-- E_ILLCMD: the word decodes to no command (R159). -/
  | illcmd
  /-- E_SEQ: the command does not fit the hash lifecycle (R160). -/
  | seq
  /-- E_KEYLEN: KLEN > 64 (R161). -/
  | keylen
  /-- E_DIGIT: render width > 10 (R162). -/
  | digit
  /-- E_LEN: mask length > 20 (R163). -/
  | len
  /-- E_DIVZ: TSTEP = 0 (R164). -/
  | divz
  /-- E_RANGE: translated time negative (R165). -/
  | range
deriving DecidableEq, Repr

/-- The number ERR holds for each code (R156). -/
def ErrorCode.byte : ErrorCode → Byte
  | .illcmd => 0x01
  | .seq => 0x02
  | .keylen => 0x03
  | .digit => 0x04
  | .len => 0x05
  | .divz => 0x06
  | .range => 0x07

/-- `fail(code)`: ERR <- code, FAULTED <- 1, and the command ends (R157). -/
def fail (c : ErrorCode) (s : State) : State := { s with err := c.byte, faulted := true }

/-- How the body of a command ends: it runs to its end, or it raises a code (R74, R198). -/
inductive BodyEnd where
  | done (s : State)
  | raised (c : ErrorCode) (s : State)
deriving DecidableEq, Repr

/-- The end of `execute`: ERR <- `0x00` if the body did not raise, `fail(code)` if it did (R74). -/
def endCommand : BodyEnd → State
  | .done s => { s with err := 0x00 }
  | .raised c s => fail c s

/-- The state a body starts in: CVALID cleared, but for NOP, TIME.XLATE and TOTP.DERIVE (R74). -/
def enterCommand (i : Instr) (s : State) : State := if keepsCache i then s else clearCvalid s

/-- The frame `execute` around the body of a decoded command (R74). -/
def runCommand (i : Instr) (body : State → BodyEnd) (s : State) :
    Host.Outcome State Fault Refusal :=
  .next (endCommand (body (enterCommand i s)))

end Sys2Proof.Machine
end

