-- ==== Sys2Proof/Machine/Operands.lean ====
section
/-! DEFINITION. The operands of the commands (20_memory.md R53): fixed windows from index 0, with a
length from the immediate or from KLEN, and the registers read through a rule of their own. -/

namespace Sys2Proof.Machine

/-- The bytes MSG[0..n-1], with `n` the zero-extended immediate (R53, R65). -/
def msgBytes (n : Byte) (s : State) : List Byte := s.msg.toList.take n.toNat

/-- Byte `i` of the key padded with zeros: `KEY[i] if i < KLEN else 0x00` (R101). -/
def keyByte (s : State) (i : Nat) : Byte := if i < s.klen.toNat then byteAt s.key i else 0x00

/-- Whether KLEN is a length the HMAC processor refuses (R102). -/
def keyTooLong (s : State) : Bool := decide (Config.keyCap < s.klen.toNat)

/-- Whether a streaming hash is in flight: PHASE = ACTIVE (R160). -/
def hashing (s : State) : Bool := decide (s.hash.phase = .active)

/-- `digits_of(v)`: 6, 7 and 8 stand, every other value is 6 (R112). -/
def digitsOf (v : Byte) : Fin 11 := if v = 6 then 6 else if v = 7 then 7 else if v = 8 then 8 else 6

/-- `clk = zext_32(CLK)` (R126). -/
def clkSeconds (s : State) : Int := s.clk.toNat

/-- `tz = sext_32(TZOFF)` (R126). -/
def tzSeconds (s : State) : Int := s.tzoff.toInt

/-- `step = TS div TSTEP` on unsigned integers; only used with `TSTEP != 0` (R128). -/
def timeStep (s : State) : DWord := BitVec.ofNat 64 (s.ts.toNat / s.tstep.toNat)

end Sys2Proof.Machine
end

