-- ==== Sys2Proof/Machine/Control.lean ====
section
/-! DEFINITION. The control commands (45_control.md): NOP and CTX.CLEAR. -/

namespace Sys2Proof.Machine

/-- Every piece of state to its reset value, except FAULTED and HMACCNT (R148). The two port fields
are the model's own and no part of the context. -/
def clearContext (s : State) : State :=
  { State.reset with faulted := s.faulted, hmaccnt := s.hmaccnt,
                     pending := s.pending, returned := s.returned }

/-- The body of NOP: nothing (R147). -/
def nopBody (s : State) : BodyEnd := .done s

/-- The body of CTX.CLEAR (R148). -/
def ctxClearBody (s : State) : BodyEnd := .done (clearContext s)

/-- NOP (R147). -/
def execNop (s : State) : Host.Outcome State Fault Refusal := runCommand .nop nopBody s

/-- CTX.CLEAR (R148). -/
def execCtxClear (s : State) : Host.Outcome State Fault Refusal := runCommand .ctxClear ctxClearBody s

end Sys2Proof.Machine
end

