-- ==== Sys2Proof/Machine/Sha1.lean ====
section
/-! DEFINITION. The SHA-1 streaming hash engine (40_sha1.md): the internal procedures `sha1_init`,
`sha1_update`, `compress` and `sha1_final`, and the commands SHA1.INIT, SHA1.UPDATE, SHA1.FINAL and
SHA1.HASH. The constants are the ones R81, R83, R84 and R85 state (log entry 8). -/

namespace Sys2Proof.Machine

/-! ### compress (R83 to R85) -/

/-- `W[t] = be32(BUF[4t], BUF[4t+1], BUF[4t+2], BUF[4t+3])`, the ingest boundary (R83, R50). -/
def blockWord (buf : Vector Byte 64) (t : Nat) : Word :=
  be32 (byteAt buf (4 * t)) (byteAt buf (4 * t + 1)) (byteAt buf (4 * t + 2)) (byteAt buf (4 * t + 3))

/-- The next schedule word from the ones before it, newest first: `W[t]` is the rotation by 1 of
`W[t-3] xor W[t-8] xor W[t-14] xor W[t-16]` (R83). -/
def nextWord (ws : List Word) : Word :=
  (ws.getD 2 0 ^^^ ws.getD 7 0 ^^^ ws.getD 13 0 ^^^ ws.getD 15 0).rotateLeft 1

/-- `k` more schedule words in front of those given, newest first. -/
def extendSchedule : Nat → List Word → List Word
  | 0, ws => ws
  | k + 1, ws => extendSchedule k (nextWord ws :: ws)

/-- The message schedule W[0..79] of a block (R83). -/
def schedule (buf : Vector Byte 64) : List Word :=
  (extendSchedule 64 ((List.range 16).map (blockWord buf)).reverse).reverse

/-- The round function `f(t; b, c, d)`: choose, parity, majority, parity (R84). -/
def roundFun (t : Nat) (b c d : Word) : Word :=
  if t < 20 then (b &&& c) ||| (~~~b &&& d)
  else if t < 40 then b ^^^ c ^^^ d
  else if t < 60 then (b &&& c) ||| (b &&& d) ||| (c &&& d)
  else b ^^^ c ^^^ d

/-- The round constant `K(t)` (R84). -/
def roundConst (t : Nat) : Word :=
  if t < 20 then 0x5A827999
  else if t < 40 then 0x6ED9EBA1
  else if t < 60 then 0x8F1BBCDC
  else 0xCA62C1D6

/-- The working variables `a, b, c, d, e` of `compress`; temporaries, not state (R37, R85). -/
structure Working where
  a : Word
  b : Word
  c : Word
  d : Word
  e : Word
deriving DecidableEq, Repr

/-- One round (R85). -/
def round (t : Nat) (w : Word) (v : Working) : Working :=
  { a := v.a.rotateLeft 5 + roundFun t v.b v.c v.d + v.e + roundConst t + w,
    b := v.a, c := v.b.rotateLeft 30, d := v.c, e := v.d }

/-- The rounds from round `t` on, one for each schedule word (R85). -/
def rounds : Nat → List Word → Working → Working
  | _, [], v => v
  | t, w :: ws, v => rounds (t + 1) ws (round t w v)

/-- The final addition of the working variables into the accumulators (R85). -/
def accumulate (h : HashState) (v : Working) : HashState :=
  { h with h0 := h.h0 + v.a, h1 := h.h1 + v.b, h2 := h.h2 + v.c, h3 := h.h3 + v.d,
           h4 := h.h4 + v.e }

/-- `compress()`: reads BUF and H0 to H4, writes H0 to H4 and nothing else (R83 to R85). -/
def compress (h : HashState) : HashState :=
  accumulate h (rounds 0 (schedule h.buf) ⟨h.h0, h.h1, h.h2, h.h3, h.h4⟩)

/-! ### sha1_init, sha1_update, sha1_final on the hash state -/

/-- What `sha1_init` does to the hash state; BUF is not cleared (R81). -/
def hashInit (h : HashState) : HashState :=
  { h with h0 := 0x67452301, h1 := 0xEFCDAB89, h2 := 0x98BADCFE, h3 := 0x10325476,
           h4 := 0xC3D2E1F0, cntHi := 0, cntLo := 0, off := 0, phase := .active }

/-- BUF <- `buf` (R14). -/
def withBuf (h : HashState) (buf : Vector Byte 64) : HashState := { h with buf := buf }

/-- BUF[OFF] <- b and CNT <- (CNT + 8) mod 2^64 (R82). -/
def storeByte (h : HashState) (b : Byte) : HashState :=
  withBuf (h.setCnt (h.cnt + 8)) (h.buf.set h.off.val b h.off.isLt)

/-- OFF <- `k` (R15). -/
def setOff (h : HashState) (k : Fin 64) : HashState := { h with off := k }

/-- One turn of the loop of `sha1_update`: store the byte and count it, move OFF on, and compress a
buffer that is full at once (R82). -/
def hashAccept (h : HashState) (b : Byte) : HashState :=
  if room : h.off.val + 1 < 64 then setOff (storeByte h b) ⟨h.off.val + 1, room⟩
  else setOff (compress (storeByte h b)) 0

/-- `sha1_update(b)` on the hash state, a byte at a time (R82). -/
def hashUpdate (h : HashState) (bs : List Byte) : HashState := bs.foldl hashAccept h

/-- BUF with `0x80` at OFF and zeros after it (R86). -/
def padMark (h : HashState) : Vector Byte 64 :=
  Vector.ofFn fun i : Fin 64 =>
    if i.val < h.off.val then h.buf[i.val] else if i.val = h.off.val then 0x80 else 0x00

/-- BUF with its last eight bytes replaced by `bytes_be(L, 8)` (R86). -/
def padLength (buf : Vector Byte 64) (l : DWord) : Vector Byte 64 :=
  Vector.ofFn fun i : Fin 64 => if i.val < 56 then buf[i.val] else byteBE 8 l (i.val - 56)

/-- The hash state when the last block is ready to take the length: the padding block of its own is
compressed and BUF zeroed when OFF >= 56 (R86). -/
def padBlock (h : HashState) : HashState :=
  if 56 ≤ h.off.val then withBuf (compress (withBuf h (padMark h))) (Vector.replicate 64 0x00)
  else withBuf h (padMark h)

/-- The last block: the padding with the bit count `l` in its last eight bytes (R86). -/
def lastBlock (h : HashState) (l : DWord) : HashState := withBuf h (padLength h.buf l)

/-- OFF <- 0, PHASE <- DONE (R86). -/
def closeHash (h : HashState) : HashState := { h with off := 0, phase := .done }

/-- `sha1_final` on the hash state: pad, append the bit count, compress, end the lifecycle (R86). -/
def hashFinal (h : HashState) : HashState := closeHash (compress (lastBlock (padBlock h) h.cnt))

/-- The digest the accumulators spell: DIGEST[4i+j] = bytes_be(H[i], 4)[j] (R86, R50). -/
def digestOf (h : HashState) : Vector Byte 20 :=
  Vector.ofFn fun k : Fin 20 => byteBE 4 (h.acc (k.val / 4)) (k.val % 4)

/-! ### The procedures on the state -/

/-- `sha1_init()` (R81). -/
def sha1Init (s : State) : State := { s with hash := hashInit s.hash, dvalid := false }

/-- `sha1_update(b)` (R82). -/
def sha1Update (bs : List Byte) (s : State) : State := { s with hash := hashUpdate s.hash bs }

/-- The hash state as `sha1_final` leaves it (R86). -/
def finishHash (s : State) : State := { s with hash := hashFinal s.hash }

/-- DIGEST <- the accumulators, DVALID <- 1 (R86). -/
def emitDigest (s : State) : State := { s with digest := digestOf s.hash, dvalid := true }

/-- `sha1_final()` (R86). -/
def sha1Final (s : State) : State := emitDigest (finishHash s)

/-- One whole lifecycle over the message `m`: `sha1_init`, `sha1_update(m)`, `sha1_final` (R87). -/
def sha1Run (m : List Byte) (s : State) : State := sha1Final (sha1Update m (sha1Init s))

/-! ### The commands -/

/-- The body of SHA1.INIT (R88). -/
def sha1InitBody (s : State) : BodyEnd := .done (sha1Init s)

/-- The body of SHA1.UPDATE n: E_SEQ unless PHASE = ACTIVE (R89). -/
def sha1UpdateBody (n : Byte) (s : State) : BodyEnd :=
  if hashing s then .done (sha1Update (msgBytes n s) s) else .raised .seq s

/-- The body of SHA1.FINAL: E_SEQ unless PHASE = ACTIVE (R90). -/
def sha1FinalBody (s : State) : BodyEnd :=
  if hashing s then .done (sha1Final s) else .raised .seq s

/-- The body of SHA1.HASH n: E_SEQ if PHASE = ACTIVE, else one whole lifecycle (R92). -/
def sha1HashBody (n : Byte) (s : State) : BodyEnd :=
  if hashing s then .raised .seq s else .done (sha1Run (msgBytes n s) s)

/-- SHA1.INIT (R88). -/
def execSha1Init (s : State) : Host.Outcome State Fault Refusal :=
  runCommand .sha1Init sha1InitBody s

/-- SHA1.UPDATE n (R89). -/
def execSha1Update (n : Byte) (s : State) : Host.Outcome State Fault Refusal :=
  runCommand (.sha1Update n) (sha1UpdateBody n) s

/-- SHA1.FINAL (R90). -/
def execSha1Final (s : State) : Host.Outcome State Fault Refusal :=
  runCommand .sha1Final sha1FinalBody s

/-- SHA1.HASH n (R92). -/
def execSha1Hash (n : Byte) (s : State) : Host.Outcome State Fault Refusal :=
  runCommand (.sha1Hash n) (sha1HashBody n) s

end Sys2Proof.Machine
end

