-- ==== Sys2Proof/Machine/Hmac.lean ====
section
/-! DEFINITION. The HMAC-SHA1 processor (41_hmac.md): the internal procedure `hmac` and the command
HMAC.COMPUTE. -/

namespace Sys2Proof.Machine

/-- A 64-byte pad block: `pad xor k` for the key bytes padded with zeros (R101). -/
def keyPad (pad : Byte) (s : State) : List Byte := (List.range 64).map fun i => pad ^^^ keyByte s i

/-- The inner pad block, `0x36` repeated and XORed with the key (R101). -/
def ipad (s : State) : List Byte := keyPad 0x36 s

/-- The outer pad block, `0x5C` repeated and XORed with the key (R101). -/
def opad (s : State) : List Byte := keyPad 0x5C s

/-- The inner lifecycle of `hmac(m)`; DIGEST is then the digest `inner` (R101). -/
def hmacInner (m : List Byte) (s : State) : State := sha1Run (ipad s ++ m) s

/-- HMACCNT <- (HMACCNT + 1) mod 2^32 (R36, R101). -/
def countHmac (s : State) : State := { s with hmaccnt := s.hmaccnt + 1 }

/-- `hmac(m)` under the key KEY[0..KLEN-1]: the inner and the outer lifecycle, then HMACCNT; its
caller has checked PHASE and KLEN (R101). -/
def hmac (m : List Byte) (s : State) : State :=
  countHmac (sha1Run (opad s ++ (hmacInner m s).digest.toList) (hmacInner m s))

/-- The body of HMAC.COMPUTE n: E_SEQ, then E_KEYLEN, each with DVALID <- 0 (R102). -/
def hmacComputeBody (n : Byte) (s : State) : BodyEnd :=
  if hashing s then .raised .seq (unsetDigest s)
  else if keyTooLong s then .raised .keylen (unsetDigest s)
  else .done (hmac (msgBytes n s) s)

/-- HMAC.COMPUTE n (R102). -/
def execHmacCompute (n : Byte) (s : State) : Host.Outcome State Fault Refusal :=
  runCommand (.hmacCompute n) (hmacComputeBody n) s

end Sys2Proof.Machine
end

