-- ==== Sys2Proof/Machine/Hotp.lean ====
section
/-! DEFINITION. HOTP truncation, digit derivation and decimal rendering (42_hotp.md): the internal
procedures `truncate`, `hotp` and `render`, and the commands HOTP.DERIVE and DEC.RENDER. -/

namespace Sys2Proof.Machine

/-- Dynamic truncation of a 20-byte digest (R111). -/
def truncate (g : Vector Byte 20) : Word :=
  let o := (byteAt g 19 &&& 0x0F).toNat
  be32 (byteAt g o &&& 0x7F) (byteAt g (o + 1)) (byteAt g (o + 2)) (byteAt g (o + 3))

/-- The character OUT[i] of `render(w)` for the value `code` (R115). -/
def renderByte (code : Word) (w i : Nat) : Byte :=
  if i < w then 0x30 + BitVec.ofNat 8 (code.toNat / 10 ^ (w - 1 - i) % 10) else 0x00

/-- `render(w)`: CODE as exactly `w` decimal characters, then zeros; OLEN <- w (R115). -/
def render (w : Fin 11) (s : State) : State :=
  { s with out := Vector.ofFn fun i : Fin 11 => renderByte s.code w.val i.val, olen := w }

/-- The eleven bytes of the sentinel `"EDIGIT"` and its zero fill (R116). -/
def sentinel : Vector Byte 11 :=
  #v[0x45, 0x44, 0x49, 0x47, 0x49, 0x54, 0x00, 0x00, 0x00, 0x00, 0x00]

/-- OUT <- `"EDIGIT"` and zeros, OLEN <- 6 (R116). -/
def renderSentinel (s : State) : State := { s with out := sentinel, olen := 6 }

/-- BINCODE <- truncate(DIGEST) (R113). -/
def setBincode (s : State) : State := { s with bincode := truncate s.digest }

/-- CODE <- BINCODE mod 10^d (R113). -/
def setCode (d : Nat) (s : State) : State :=
  { s with code := BitVec.ofNat 32 (s.bincode.toNat % 10 ^ d) }

/-- `hotp(c)`: the code for the counter value `c`; its caller has checked PHASE and KLEN (R113). -/
def hotp (c : DWord) (s : State) : State :=
  render (digitsOf s.digits)
    (setCode (digitsOf s.digits).val (setBincode (hmac (bytesBE 8 c) s)))

/-- DVALID <- 0, OLEN <- 0, OUT <- zeros: what a refused derivation invalidates (R114, R171). -/
def unsetCode (s : State) : State := clearString (unsetDigest s)

/-- The body of HOTP.DERIVE: E_SEQ, then E_KEYLEN, then `hotp(CTR)` (R114). -/
def hotpDeriveBody (s : State) : BodyEnd :=
  if hashing s then .raised .seq (unsetCode s)
  else if keyTooLong s then .raised .keylen (unsetCode s)
  else .done (hotp s.ctr s)

/-- The body of DEC.RENDER w: the sentinel and E_DIGIT when `w > 10`, else `render(w)` (R116). -/
def decRenderBody (w : Byte) (s : State) : BodyEnd :=
  if fits : w.toNat < Config.dispCap + 1 then .done (render ⟨w.toNat, fits⟩ s)
  else .raised .digit (renderSentinel s)

/-- HOTP.DERIVE (R114). -/
def execHotpDerive (s : State) : Host.Outcome State Fault Refusal :=
  runCommand .hotpDerive hotpDeriveBody s

/-- DEC.RENDER w (R116). -/
def execDecRender (w : Byte) (s : State) : Host.Outcome State Fault Refusal :=
  runCommand (.decRender w) (decRenderBody w) s

end Sys2Proof.Machine
end

