-- ==== Sys2Proof/Machine/Totp.lean ====
section
/-! DEFINITION. The TOTP time-to-counter translator (43_totp.md): the clock translation, the step
cache, and the commands TIME.XLATE and TOTP.DERIVE. -/

namespace Sys2Proof.Machine

/-- The translation formula on unbounded integers (R126). -/
def translatedTime (a : TzMode) (s : State) : Int :=
  match a with
  | .subtract => clkSeconds s + Config.epochOffset - tzSeconds s
  | .add => clkSeconds s + Config.epochOffset + tzSeconds s

/-- TS <- v (R22). -/
def setTs (v : DWord) (s : State) : State := { s with ts := v }

/-- The body of TIME.XLATE a: E_RANGE with TS unchanged when `t < 0`, else TS <- t (R127). -/
def timeXlateBody (a : TzMode) (s : State) : BodyEnd :=
  if translatedTime a s < 0 then .raised .range s
  else .done (setTs (BitVec.ofNat 64 (translatedTime a s).toNat) s)

/-- Whether the cached step answers this evaluation: CVALID = 1 and CSTEP = step (R129). -/
def cacheHit (s : State) : Bool := s.cvalid && decide (s.cstep = timeStep s)

/-- CSTEP <- step, CVALID <- 1 (R129). -/
def storeStep (step : DWord) (s : State) : State := { s with cstep := step, cvalid := true }

/-- A computing TOTP.DERIVE: `hotp(step)`, CSTEP <- step, CVALID <- 1 (R129). -/
def totpCompute (s : State) : State := storeStep (timeStep s) (hotp (timeStep s) s)

/-- The body of TOTP.DERIVE: E_SEQ, E_DIVZ, the cache, E_KEYLEN, then the computation (R129). -/
def totpDeriveBody (s : State) : BodyEnd :=
  if hashing s then .raised .seq (unsetCode (clearCvalid s))
  else if s.tstep = 0 then .raised .divz (unsetCode (clearCvalid s))
  else if cacheHit s then .done s
  else if keyTooLong s then .raised .keylen (unsetCode (clearCvalid s))
  else .done (totpCompute (clearCvalid s))

/-- TIME.XLATE a (R127). -/
def execTimeXlate (a : TzMode) (s : State) : Host.Outcome State Fault Refusal :=
  runCommand (.timeXlate a) (timeXlateBody a) s

/-- TOTP.DERIVE (R129). -/
def execTotpDerive (s : State) : Host.Outcome State Fault Refusal :=
  runCommand .totpDerive totpDeriveBody s

end Sys2Proof.Machine
end

