-- ==== Sys2Proof/Machine/XorMask.lean ====
section
/-! DEFINITION. The XOR masking engine (44_xormask.md): the command XOR.MASK. -/

namespace Sys2Proof.Machine

/-- KEY with KEY[i] <- DKEY[i] xor ESEC[i] for `i < n` (R141). -/
def maskedKey (n : Nat) (s : State) : Vector Byte 64 :=
  Vector.ofFn fun i : Fin 64 =>
    if i.val < n then byteAt s.dkey i.val ^^^ byteAt s.esec i.val else s.key[i.val]

/-- KEY <- k, KLEN <- n (R141). -/
def setKey (k : Vector Byte 64) (n : Byte) (s : State) : State := { s with key := k, klen := n }

/-- The body of XOR.MASK n: E_LEN with KEY and KLEN unchanged when `n > 20` (R141). -/
def xorMaskBody (n : Byte) (s : State) : BodyEnd :=
  if Config.secCap < n.toNat then .raised .len s
  else .done (setKey (maskedKey n.toNat s) n s)

/-- XOR.MASK n (R141). -/
def execXorMask (n : Byte) (s : State) : Host.Outcome State Fault Refusal :=
  runCommand (.xorMask n) (xorMaskBody n) s

end Sys2Proof.Machine
end

