-- ==== Sys2Proof/Machine/Dispatch.lean ====
section
/-! DEFINITION. One arm per command (30_encoding.md R66): each calls the command's meaning. -/

namespace Sys2Proof.Machine

/-- The meaning of a decoded command (R74). -/
def exec (i : Instr) (s : State) : Host.Outcome State Fault Refusal :=
  match i with
  | .nop => Sys2Proof.Machine.execNop s
  | .sha1Init => Sys2Proof.Machine.execSha1Init s
  | .sha1Update n => Sys2Proof.Machine.execSha1Update n s
  | .sha1Final => Sys2Proof.Machine.execSha1Final s
  | .sha1Hash n => Sys2Proof.Machine.execSha1Hash n s
  | .hmacCompute n => Sys2Proof.Machine.execHmacCompute n s
  | .hotpDerive => Sys2Proof.Machine.execHotpDerive s
  | .decRender w => Sys2Proof.Machine.execDecRender w s
  | .timeXlate a => Sys2Proof.Machine.execTimeXlate a s
  | .totpDerive => Sys2Proof.Machine.execTotpDerive s
  | .xorMask n => Sys2Proof.Machine.execXorMask n s
  | .ctxClear => Sys2Proof.Machine.execCtxClear s

end Sys2Proof.Machine
end

