-- ==== Sys2Proof/Machine/Port.lean ====
section
/-! DEFINITION. The data port (20_memory.md R40 to R49): the register map, the read and the write of
one byte, and the register space as a list of cells in canonical form. -/

namespace Sys2Proof.Machine

/-- The named registers and windows of the map (R42). -/
inductive RegName where
  | status | err | klen | digits | olen | off | ctr | ts | tstep | clk | tzoff | bincode | code
  | hmaccnt | cstep | cntHi | cntLo | h0 | h1 | h2 | h3 | h4 | digest | out | key | dkey | esec
  | msg | buf
deriving DecidableEq, Repr

/-- The access class of a register: readable and writable, or readable only (R42, R43). -/
inductive Access where
  /-- RW. -/
  | rw
  /-- RO. -/
  | ro
deriving DecidableEq, Repr

/-- One row of the map (R42). -/
structure Region where
  /-- The register or window. -/
  name : RegName
  /-- Its first address. -/
  base : Nat
  /-- Its length in bytes. -/
  size : Nat
  /-- Its access class. -/
  access : Access
  /-- Whether any host write to it clears CVALID (R46). -/
  clearsCvalid : Bool
deriving DecidableEq, Repr

/-- The address map, lowest address first; addresses in no row are reserved (R42, R47). -/
def regMap : List Region :=
  [⟨.status, 0x000, 1, .ro, false⟩, ⟨.err, 0x001, 1, .ro, false⟩, ⟨.klen, 0x002, 1, .rw, true⟩,
   ⟨.digits, 0x003, 1, .rw, true⟩, ⟨.olen, 0x004, 1, .ro, false⟩, ⟨.off, 0x005, 1, .ro, false⟩,
   ⟨.ctr, 0x008, 8, .rw, false⟩, ⟨.ts, 0x010, 8, .rw, false⟩, ⟨.tstep, 0x018, 4, .rw, true⟩,
   ⟨.clk, 0x01C, 4, .rw, false⟩, ⟨.tzoff, 0x020, 4, .rw, false⟩, ⟨.bincode, 0x024, 4, .ro, false⟩,
   ⟨.code, 0x028, 4, .rw, true⟩, ⟨.hmaccnt, 0x02C, 4, .ro, false⟩, ⟨.cstep, 0x030, 8, .ro, false⟩,
   ⟨.cntHi, 0x038, 4, .ro, false⟩, ⟨.cntLo, 0x03C, 4, .ro, false⟩] ++
  [⟨.h0, 0x040, 4, .ro, false⟩, ⟨.h1, 0x044, 4, .ro, false⟩, ⟨.h2, 0x048, 4, .ro, false⟩,
   ⟨.h3, 0x04C, 4, .ro, false⟩, ⟨.h4, 0x050, 4, .ro, false⟩, ⟨.digest, 0x060, 20, .ro, false⟩,
   ⟨.out, 0x074, 11, .ro, false⟩, ⟨.key, 0x080, 64, .rw, true⟩, ⟨.dkey, 0x0C0, 20, .rw, false⟩,
   ⟨.esec, 0x0E0, 20, .rw, false⟩, ⟨.msg, 0x100, 256, .rw, false⟩, ⟨.buf, 0x200, 64, .ro, false⟩]

/-- Whether an address is one of a region's. -/
def Region.holds (r : Region) (a : Nat) : Bool := decide (r.base ≤ a) && decide (a < r.base + r.size)

/-- The region an address names a byte of; none when the address is reserved (R42, R47). -/
def regionAt (a : Nat) : Option Region := regMap.find? fun r => r.holds a

/-- Byte `k` of a register or window, multi-byte registers most significant byte first (R45, R49). -/
def readReg (s : State) (r : RegName) (k : Nat) : Byte :=
  match r with
  | .status => s.status
  | .err => s.err
  | .klen => s.klen
  | .digits => s.digits
  | .olen => BitVec.ofNat 8 s.olen.val
  | .off => BitVec.ofNat 8 s.hash.off.val
  | .ctr => byteBE 8 s.ctr k
  | .ts => byteBE 8 s.ts k
  | .tstep => byteBE 4 s.tstep k
  | .clk => byteBE 4 s.clk k
  | .tzoff => byteBE 4 s.tzoff k
  | .bincode => byteBE 4 s.bincode k
  | .code => byteBE 4 s.code k
  | .hmaccnt => byteBE 4 s.hmaccnt k
  | .cstep => byteBE 8 s.cstep k
  | .cntHi => byteBE 4 s.hash.cntHi k
  | .cntLo => byteBE 4 s.hash.cntLo k
  | .h0 => byteBE 4 s.hash.h0 k
  | .h1 => byteBE 4 s.hash.h1 k
  | .h2 => byteBE 4 s.hash.h2 k
  | .h3 => byteBE 4 s.hash.h3 k
  | .h4 => byteBE 4 s.hash.h4 k
  | .digest => byteAt s.digest k
  | .out => byteAt s.out k
  | .key => byteAt s.key k
  | .dkey => byteAt s.dkey k
  | .esec => byteAt s.esec k
  | .msg => byteAt s.msg k
  | .buf => byteAt s.hash.buf k

/-- The state with byte `k` of a register or window replaced by `v`; a read-only one ignores the
write in full (R46, R48, R49). -/
def writeReg (s : State) (r : RegName) (k : Nat) (v : Byte) : State :=
  match r with
  | .klen => { s with klen := v }
  | .digits => { s with digits := v }
  | .ctr => { s with ctr := putByteBE 8 s.ctr k v }
  | .ts => { s with ts := putByteBE 8 s.ts k v }
  | .tstep => { s with tstep := putByteBE 4 s.tstep k v }
  | .clk => { s with clk := putByteBE 4 s.clk k v }
  | .tzoff => { s with tzoff := putByteBE 4 s.tzoff k v }
  | .code => { s with code := putByteBE 4 s.code k v }
  | .key => { s with key := putAt s.key k v }
  | .dkey => { s with dkey := putAt s.dkey k v }
  | .esec => { s with esec := putAt s.esec k v }
  | .msg => { s with msg := putAt s.msg k v }
  | .status | .err | .olen | .off | .bincode | .hmaccnt | .cstep | .cntHi | .cntLo
  | .h0 | .h1 | .h2 | .h3 | .h4 | .digest | .out | .buf => s

/-- The address used for a number presented on an address port of any width (R41). -/
def portAddr (addr : Nat) : Nat := addr % Config.regSpaceBytes

/-- `MemRead(addr, 1)`: the byte at the address; a reserved address reads `0x00` (R45, R47). -/
def memRead (s : State) (addr : Nat) : Byte :=
  match regionAt (portAddr addr) with
  | some r => readReg s r.name (portAddr addr - r.base)
  | none => 0x00

/-- What a write to a region does: only a writable one stores the byte and, where marked, clears
CVALID (R46, R48). -/
def writeRegion (s : State) (r : Region) (k : Nat) (v : Byte) : State :=
  match r.access with
  | .ro => s
  | .rw =>
    let s' := writeReg s r.name k v
    if r.clearsCvalid then clearCvalid s' else s'

/-- `MemWrite(addr, 1, v)`: never fails; reserved addresses ignore it (R46, R47). -/
def memWrite (s : State) (addr : Nat) (v : Byte) : State :=
  match regionAt (portAddr addr) with
  | some r => writeRegion s r (portAddr addr - r.base) v
  | none => s

/-! ### The register space as a list of cells -/

/-- The canonical form of a list of cells over a space whose unlisted bytes read `0x00` (R38, R47):
addresses strictly rising, inside the space, and no cell that holds `0x00`. -/
abbrev Memory.wf (m : List Host.Cell) : Prop :=
  m.Pairwise (fun x y => x.1 < y.1) ∧ ∀ c ∈ m, c.1 < Config.regSpaceBytes ∧ c.2 ≠ 0x00

/-- The byte a list of cells holds at an address. -/
def Memory.read (m : List Host.Cell) (a : Nat) : Byte :=
  ((m.find? fun c => c.1 == a).map Prod.snd).getD 0x00

/-- The register space of a state as cells: every address whose byte is not `0x00`, rising (R41). -/
def registerCells (s : State) : List Host.Cell :=
  (List.range Config.regSpaceBytes).filterMap fun a =>
    if memRead s a = 0x00 then none else some (a, memRead s a)

end Sys2Proof.Machine
end

