-- ==== Sys2Proof/Machine/Issue.lean ====
section
/-! DEFINITION. The command port and the transactions of the host and the platform: `issue`
(30_encoding.md R60), illegal words (60_exceptions.md R159), data-port accesses (20_memory.md R45,
R46) and reset (70_reset_and_hazards.md R180). -/

namespace Sys2Proof.Machine

/-- An illegal word fails with E_ILLCMD: only ERR and FAULTED change (R68, R159). -/
def illegalWord (s : State) : State := fail .illcmd s

/-- `issue(w)`: decode the presented word and run the command, or fail with E_ILLCMD (R60, R74). -/
def issue (w : Nat) (s : State) : Host.Outcome State Fault Refusal :=
  match decode (portWord w) with
  | .command i => exec i s
  | .illegal _ => .next (illegalWord s)

/-- A data-port read returns the byte to the host and changes no state of the block (R45). -/
def portRead (addr : Nat) (s : State) : State := { s with returned := s.returned ++ [memRead s addr] }

/-- Reset writes every piece of state of the block; the port fields are the host's (R180, R181). -/
def platformReset (s : State) : State :=
  { State.reset with pending := s.pending, returned := s.returned }

/-- One transaction, from start to end (R44). -/
def perform (act : HostAction) (s : State) : Host.Outcome State Fault Refusal :=
  match act with
  | .issue w => issue w s
  | .read addr => .next (portRead addr s)
  | .write addr v => .next (memWrite s addr v)
  | .reset => .next (platformReset s)

/-- The pending transactions behind the first, which the step takes off the list. -/
def dropTransaction (s : State) : State := { s with pending := s.pending.tail }

/-- A number as `nbits` bits of a table word, put in front of what the host does next. -/
def presentWord (s : State) (nbits w : Nat) : State :=
  { s with pending := .issue (w % 2 ^ nbits) :: s.pending }

/-- The first pending transaction; with none, nothing happens in the block (R44, R167). -/
def advance (s : State) : Host.Outcome State Fault Refusal :=
  match s.pending with
  | [] => .next s
  | act :: _ => perform act (dropTransaction s)

end Sys2Proof.Machine
end

