-- ==== Sys2Proof/Machine/Step.lean ====
section
/-! DEFINITION. The step function: the first pending transaction of the host or the platform
(20_memory.md R44, R55), and the state in which a given word is issued next. -/

namespace Sys2Proof.Machine

/-- One step: the first pending transaction, from start to end. -/
def step (s : State) : Host.Outcome State Fault Refusal := advance s

/-- The state in which the very next step issues the word: the host presents it first (R60). -/
def State.withFetchWord (s : State) (nbits w : Nat) : State := presentWord s nbits w

end Sys2Proof.Machine
end

