-- ==== Sys2Proof/Machine/Script.lean ====
section
/-! DEFINITION. Host scripts (30_encoding.md R71 to R73): the text of a command, the host directives
and the pseudo-instructions, each expanded to the transactions it stands for. -/

namespace Sys2Proof.Machine

/-! ### The text of a command (R71) -/

/-- The spelling of each mnemonic (R66, R71). -/
def spelling : Mnemonic → List Char
  | .nop => "NOP".toList
  | .sha1Init => "SHA1.INIT".toList
  | .sha1Update => "SHA1.UPDATE".toList
  | .sha1Final => "SHA1.FINAL".toList
  | .sha1Hash => "SHA1.HASH".toList
  | .hmacCompute => "HMAC.COMPUTE".toList
  | .hotpDerive => "HOTP.DERIVE".toList
  | .decRender => "DEC.RENDER".toList
  | .timeXlate => "TIME.XLATE".toList
  | .totpDerive => "TOTP.DERIVE".toList
  | .xorMask => "XOR.MASK".toList
  | .ctxClear => "CTX.CLEAR".toList

/-- The twelve mnemonics, in the order of R66. -/
def mnemonics : List Mnemonic := opcodeTable.map OpcodeRow.mnemonic

/-- The value of one digit of a numeral in the given base, 10 or 16. -/
def digitValue (base : Nat) (c : Char) : Option Nat :=
  let v := if '0' ≤ c ∧ c ≤ '9' then some (c.toNat - 0x30)
           else if 'a' ≤ c ∧ c ≤ 'f' then some (c.toNat - 0x61 + 10)
           else if 'A' ≤ c ∧ c ≤ 'F' then some (c.toNat - 0x41 + 10)
           else none
  v.filter fun d => d < base

/-- The value of a run of digits after those already read. -/
def digitsValue (base : Nat) : Nat → List Char → Option Nat
  | acc, [] => some acc
  | acc, c :: cs => (digitValue base c).bind fun d => digitsValue base (acc * base + d) cs

/-- A decimal numeral, or a hexadecimal numeral with `0x` (R71, R198). -/
def numeral : List Char → Option Nat
  | [] => none
  | ['0', 'x'] => none
  | '0' :: 'x' :: cs => digitsValue 16 0 cs
  | cs => digitsValue 10 0 cs

/-- Characters without the blanks at their two ends (log entry 9). -/
def trim (cs : List Char) : List Char :=
  ((cs.dropWhile (· == ' ')).reverse.dropWhile (· == ' ')).reverse

/-- A line up to the `#` that starts its comment; a `#` between quotation marks starts none
(R71; log entry 9). -/
def dropComment : Bool → List Char → List Char
  | _, [] => []
  | quoted, c :: cs =>
    if c = '#' ∧ quoted = false then []
    else c :: dropComment (if c = '"' then !quoted else quoted) cs

/-- A line without its comment and the blanks around what is left (R71; log entry 9). -/
def stripLine (line : List Char) : List Char := trim (dropComment false line)

/-- The source line a text spells: a mnemonic, and for an operand one space and a numeral (R71). -/
def parseCommand (line : List Char) : Option SourceLine :=
  let body := stripLine line
  (mnemonics.find? fun m => spelling m == body.takeWhile (· != ' ')).bind fun m =>
    match body.dropWhile (· != ' ') with
    | [] => some ⟨m, none⟩
    | _ :: rest => (numeral rest).map fun v => ⟨m, some v⟩

/-- The word of a line of text; an assembly error produces none (R71). -/
def assembleText (line : List Char) : Option CmdWord := (parseCommand line).bind assembleWord

/-! ### Host directives and pseudo-instructions (R72, R73) -/

/-- A host directive with its operands evaluated (R72). -/
inductive Directive where
  /-- `WR addr, b0 b1 ... bk`. -/
  | wr (addr : Nat) (bytes : List Byte)
  /-- `WRS addr, "text"`, the text as its ASCII codes. -/
  | wrs (addr : Nat) (codes : List Byte)
  /-- `WR32 addr, v`. -/
  | wr32 (addr : Nat) (v : Word)
  /-- `WR64 addr, v`. -/
  | wr64 (addr : Nat) (v : DWord)
  /-- `RD addr, k`. -/
  | rd (addr : Nat) (k : Nat)
deriving DecidableEq, Repr

/-- A pseudo-instruction (R73). -/
inductive Pseudo where
  /-- `SHA1.STREAM n`. -/
  | sha1Stream (n : Byte)
  /-- `TOTP.NOW a`. -/
  | totpNow (a : TzMode)
  /-- `HOTP.AT c`. -/
  | hotpAt (c : DWord)
deriving DecidableEq, Repr

/-- One line of a script (R71 to R73). -/
inductive ScriptLine where
  | command (i : Instr)
  | directive (d : Directive)
  | pseudo (p : Pseudo)
deriving DecidableEq, Repr

/-- The address a register name stands for in a directive: the register's first address (R72). -/
def addrOf (r : RegName) : Nat := ((regMap.find? fun g => g.name == r).map Region.base).getD 0

/-- The bytes written at `addr`, `addr + 1`, ..., in that order (R72). -/
def writeBytes : Nat → List Byte → List HostAction
  | _, [] => []
  | addr, b :: bs => .write addr b :: writeBytes (addr + 1) bs

/-- The ASCII code of a character (R72). DESIGN CHOICE (log entry 9): the rule speaks of ASCII codes
only; a character that has none has no byte here, and a text that holds one makes its line spell
nothing. -/
def asciiByte (c : Char) : Option Byte :=
  if c.toNat < 128 then some (BitVec.ofNat 8 c.toNat) else none

/-- The transaction that issues a command. -/
def issueOf (i : Instr) : HostAction := .issue (encode i).toNat

/-- The transactions of a directive (R72). -/
def expandDirective : Directive → List HostAction
  | .wr addr bytes => writeBytes addr bytes
  | .wrs addr codes => writeBytes addr codes
  | .wr32 addr v => writeBytes addr (bytesBE 4 v)
  | .wr64 addr v => writeBytes addr (bytesBE 8 v)
  | .rd addr k => (List.range k).map fun i => .read (addr + i)

/-- The transactions of a pseudo-instruction (R73). -/
def expandPseudo : Pseudo → List HostAction
  | .sha1Stream n => [issueOf .sha1Init, issueOf (.sha1Update n), issueOf .sha1Final]
  | .totpNow a => [issueOf (.timeXlate a), issueOf .totpDerive]
  | .hotpAt c => expandDirective (.wr64 (addrOf .ctr) c) ++ [issueOf .hotpDerive]

/-- The transactions of one line. -/
def expandLine : ScriptLine → List HostAction
  | .command i => [issueOf i]
  | .directive d => expandDirective d
  | .pseudo p => expandPseudo p

/-- The transactions of a script, its lines top to bottom (R11, R72). -/
def expandScript (lines : List ScriptLine) : List HostAction := lines.flatMap expandLine

/-! ### The text of a script (R71 to R73) -/

/-- The spelling of a register name in a directive (R42, R72). -/
def registerSpelling : RegName → List Char
  | .status => "STATUS".toList
  | .err => "ERR".toList
  | .klen => "KLEN".toList
  | .digits => "DIGITS".toList
  | .olen => "OLEN".toList
  | .off => "OFF".toList
  | .ctr => "CTR".toList
  | .ts => "TS".toList
  | .tstep => "TSTEP".toList
  | .clk => "CLK".toList
  | .tzoff => "TZOFF".toList
  | .bincode => "BINCODE".toList
  | .code => "CODE".toList
  | .hmaccnt => "HMACCNT".toList
  | .cstep => "CSTEP".toList
  | .cntHi => "CNT_HI".toList
  | .cntLo => "CNT_LO".toList
  | .h0 => "H0".toList
  | .h1 => "H1".toList
  | .h2 => "H2".toList
  | .h3 => "H3".toList
  | .h4 => "H4".toList
  | .digest => "DIGEST".toList
  | .out => "OUT".toList
  | .key => "KEY".toList
  | .dkey => "DKEY".toList
  | .esec => "ESEC".toList
  | .msg => "MSG".toList
  | .buf => "BUF".toList

/-- `addr` in a directive: a numeral, or a register name for its first address (R72). -/
def addressText (cs : List Char) : Option Nat :=
  match numeral cs with
  | some a => some a
  | none => (regMap.find? fun r => registerSpelling r.name == cs).map Region.base

/-- The blank-separated pieces of a text. -/
def pieces (cs : List Char) : List (List Char) := (cs.splitOn ' ').filter fun p => !p.isEmpty

/-- A numeral that fits in one byte (R72). -/
def byteNumeral (cs : List Char) : Option Byte :=
  ((numeral cs).filter fun v => v < 256).map (BitVec.ofNat 8)

/-- A numeral of `w` bits, or a minus sign and a numeral read as its two's complement
(R72, R198; log entry 9). -/
def valueText (w : Nat) : List Char → Option (BitVec w)
  | '-' :: cs => ((numeral cs).filter fun v => v ≤ 2 ^ (w - 1)).map fun v => -BitVec.ofNat w v
  | cs => ((numeral cs).filter fun v => v < 2 ^ w).map (BitVec.ofNat w)

/-- The characters between two quotation marks (R72). -/
def quotedText : List Char → Option (List Char)
  | '"' :: cs =>
    match cs.reverse with
    | '"' :: rev => if rev.contains '"' then none else some rev.reverse
    | _ => none
  | _ => none

/-- The first word of a line and what follows it. -/
def splitHead (body : List Char) : List Char × List Char :=
  (body.takeWhile (· != ' '), trim (body.dropWhile (· != ' ')))

/-- The directive a line spells (R72). What follows `=>` in `RD` is what the writer of the script
expects, not an access. -/
def parseDirective (line : List Char) : Option Directive :=
  let (head, rest) := splitHead (stripLine line)
  let operand := trim ((rest.dropWhile (· != ',')).drop 1)
  (addressText (trim (rest.takeWhile (· != ',')))).bind fun addr =>
    if head = "WR".toList then
      match (pieces operand).mapM byteNumeral with
      | some (b :: bs) => some (.wr addr (b :: bs))
      | _ => none
    else if head = "WRS".toList then
      ((quotedText operand).bind fun text => text.mapM asciiByte).map (.wrs addr)
    else if head = "WR32".toList then (valueText 32 operand).map (.wr32 addr)
    else if head = "WR64".toList then (valueText 64 operand).map (.wr64 addr)
    else if head = "RD".toList then
      (numeral (trim (operand.takeWhile (· != '=')))).map (.rd addr)
    else none

/-- The pseudo-instruction a line spells (R73). -/
def parsePseudo (line : List Char) : Option Pseudo :=
  let (head, operand) := splitHead (stripLine line)
  if head = "SHA1.STREAM".toList then (byteNumeral operand).map .sha1Stream
  else if head = "TOTP.NOW".toList then
    match numeral operand with
    | some 0 => some (.totpNow .subtract)
    | some 1 => some (.totpNow .add)
    | _ => none
  else if head = "HOTP.AT".toList then (valueText 64 operand).map .hotpAt
  else none

/-- The script line a text spells (R71 to R73); none when it spells none of the three kinds. -/
def parseLine (line : List Char) : Option ScriptLine :=
  (((parseCommand line).bind assemble).map ScriptLine.command).orElse fun _ =>
    ((parseDirective line).map ScriptLine.directive).orElse fun _ =>
      (parsePseudo line).map ScriptLine.pseudo

/-- The script a text spells, one line each; lines that hold only a comment are left out. -/
def parseScript (lines : List (List Char)) : Option (List ScriptLine) :=
  (lines.filter fun l => !(stripLine l).isEmpty).mapM parseLine

/-- The block performs transactions one after another, stopping if one stops (R55). -/
def hostRun : List HostAction → State → Host.Outcome State Fault Refusal
  | [], s => .next s
  | act :: acts, s =>
    match perform act s with
    | .next t => hostRun acts t
    | .fault f => .fault f
    | .refused r => .refused r

end Sys2Proof.Machine
end

