-- ==== Sys2Proof/Safety.lean ====
section
/-! DEFINITION. The terms claims use: the invariants of the state (10_state.md R39), the coherence of
the step cache (43_totp.md R130, R131), which command raises what (60_exceptions.md R158, R168), which
registers a command may write, and SHA-1, HMAC and HOTP as functions of whole messages. -/

namespace Sys2Proof.Machine

/-! ### Safe runs and invariants -/

/-- A step that does not stop: the block always goes on (R170, R189). -/
def stepGoesOn (s : State) : Prop := ∃ t, step s = .next t

/-- "No failure since reset": the premise FAULTED exists for (R35). -/
abbrev noFailure (s : State) : Prop := s.faulted = false

/-- The invariants of R39 that the types of State do not already say: (c) to (h). -/
structure StateInv (s : State) : Prop where
  /-- (c) OUT[i] = `0x00` for OLEN <= i <= 10. -/
  outTail : ∀ i : Fin 11, s.olen.val ≤ i.val → s.out[i.val] = 0x00
  /-- (d) While PHASE = ACTIVE neither a cached step nor a digest is valid. -/
  activeClears : s.hash.phase = .active → s.cvalid = false ∧ s.dvalid = false
  /-- (e) A valid cached step means a finished engine, a digest, a legal key and a time step. -/
  cacheNeeds : s.cvalid = true →
    s.hash.phase = .done ∧ s.dvalid = true ∧ s.klen.toNat ≤ 64 ∧ s.tstep ≠ 0
  /-- (f) While PHASE = ACTIVE, OFF counts the accepted bytes modulo 64. -/
  activeCount : s.hash.phase = .active →
    s.hash.off.val = s.hash.cnt.toNat / 8 % 64 ∧ s.hash.cnt.toNat % 8 = 0
  /-- (g) ERR holds a code of R156, and a failure code only with FAULTED set. -/
  errCodes : s.err.toNat ≤ 7 ∧ (s.err ≠ 0 → s.faulted = true)
  /-- (h) BINCODE is below 2^31. -/
  bincodeBound : s.bincode.toNat < 2 ^ 31

/-- The cached step is coherent: recomputing it would write what is there, and count one HMAC
(R130, R131). -/
def CacheCoherent (s : State) : Prop :=
  s.cvalid = true → hotp s.cstep s = { s with hmaccnt := s.hmaccnt + 1 }

/-- The registers are as reset leaves them, but for FAULTED and HMACCNT (R148, R183). -/
def clearedBut (s t : State) : Prop :=
  t = { State.reset with faulted := s.faulted, hmaccnt := s.hmaccnt,
                         pending := s.pending, returned := s.returned }

/-! ### Outcomes of commands -/

/-- The code a command leaves in ERR, by the table of R158 and the order of R168. -/
def outcomeCode (i : Instr) (s : State) : Byte :=
  match i with
  | .nop | .sha1Init | .ctxClear => 0x00
  | .sha1Update _ | .sha1Final => if s.hash.phase = .active then 0x00 else 0x02
  | .sha1Hash _ => if s.hash.phase = .active then 0x02 else 0x00
  | .hmacCompute _ | .hotpDerive =>
    if s.hash.phase = .active then 0x02 else if 64 < s.klen.toNat then 0x03 else 0x00
  | .decRender w => if 10 < w.toNat then 0x04 else 0x00
  | .timeXlate .subtract =>
    if (s.clk.toNat : Int) + 852076800 - s.tzoff.toInt < 0 then 0x07 else 0x00
  | .timeXlate .add => if (s.clk.toNat : Int) + 852076800 + s.tzoff.toInt < 0 then 0x07 else 0x00
  | .totpDerive =>
    if s.hash.phase = .active then 0x02 else if s.tstep = 0 then 0x06
    else if s.cvalid = true ∧ s.cstep.toNat = s.ts.toNat / s.tstep.toNat then 0x00
    else if 64 < s.klen.toNat then 0x03 else 0x00
  | .xorMask n => if 20 < n.toNat then 0x05 else 0x00

/-- The accumulators' registers. -/
def accRegs : List RegName := [.h0, .h1, .h2, .h3, .h4]

/-- Every register of the hash state but PHASE, which STATUS shows. -/
def hashRegs : List RegName := accRegs ++ [.cntHi, .cntLo, .off, .buf]

/-- The registers whose bytes a command may change, from the "State written" list of its rule. -/
def writtenRegs : Instr → List RegName
  | .nop => [.err]
  | .sha1Init => [.status, .err, .cntHi, .cntLo, .off] ++ accRegs
  | .sha1Update _ => [.status, .err] ++ hashRegs
  | .sha1Final => [.status, .err, .off, .buf, .digest] ++ accRegs
  | .sha1Hash _ => [.status, .err, .digest] ++ hashRegs
  | .hmacCompute _ => [.status, .err, .digest, .hmaccnt] ++ hashRegs
  | .hotpDerive => [.status, .err, .digest, .hmaccnt, .bincode, .code, .out, .olen] ++ hashRegs
  | .decRender _ => [.status, .err, .out, .olen]
  | .timeXlate _ => [.status, .err, .ts]
  | .totpDerive =>
    [.status, .err, .digest, .hmaccnt, .bincode, .code, .out, .olen, .cstep] ++ hashRegs
  | .xorMask _ => [.status, .err, .klen, .key]
  | .ctxClear => (regMap.map Region.name).filter fun r => r ≠ .hmaccnt

/-- The addresses the host can write, row by row of the map: KLEN, DIGITS, CTR, TS, TSTEP, CLK, TZOFF,
CODE, KEY, DKEY, ESEC, MSG (R42). -/
abbrev hostWritable (a : Nat) : Prop :=
  a = 0x002 ∨ a = 0x003 ∨ (0x008 ≤ a ∧ a ≤ 0x00F) ∨ (0x010 ≤ a ∧ a ≤ 0x017) ∨
  (0x018 ≤ a ∧ a ≤ 0x01B) ∨ (0x01C ≤ a ∧ a ≤ 0x01F) ∨ (0x020 ≤ a ∧ a ≤ 0x023) ∨
  (0x028 ≤ a ∧ a ≤ 0x02B) ∨ (0x080 ≤ a ∧ a ≤ 0x0BF) ∨ (0x0C0 ≤ a ∧ a ≤ 0x0D3) ∨
  (0x0E0 ≤ a ∧ a ≤ 0x0F3) ∨ (0x100 ≤ a ∧ a ≤ 0x1FF)

/-! ### The numbers of R198 -/

/-- `rotl32(x, n)` on numbers, for `0 < n < 32`: `((x * 2^n) mod 2^32) + (x div 2^(32 - n))`
(R198). -/
def rotl32 (x n : Nat) : Nat := x * 2 ^ n % 2 ^ 32 + x / 2 ^ (32 - n)

/-! ### SHA-1, HMAC and HOTP of whole messages (R87, R101, R111 to R113) -/

/-- A message with its padding: `0x80`, zeros up to 56 bytes modulo 64, and the bit count as a
64-bit big-endian integer (R80). -/
def paddedMessage (m : List Byte) : List Byte :=
  m ++ [0x80] ++ List.replicate ((119 - m.length % 64) % 64) 0x00 ++
    bytesBE 8 (BitVec.ofNat 64 (8 * m.length))

/-- Block `j` of a padded message. -/
def messageBlock (p : List Byte) (j : Nat) : Vector Byte 64 :=
  Vector.ofFn fun i : Fin 64 => p.getD (64 * j + i.val) 0x00

/-- The blocks of a padded message, first to last. -/
def messageBlocks (p : List Byte) : List (Vector Byte 64) :=
  (List.range (p.length / 64)).map (messageBlock p)

/-- Compressing one block into the accumulators. -/
def compressBlock (h : HashState) (block : Vector Byte 64) : HashState :=
  compress { h with buf := block }

/-- The accumulators after all blocks of the padded message. -/
def messageHash (m : List Byte) : HashState :=
  (messageBlocks (paddedMessage m)).foldl compressBlock (hashInit HashState.reset)

/-- SHA-1 of a whole message: five accumulators as a 20-byte big-endian digest (R87). -/
def messageDigest (m : List Byte) : Vector Byte 20 := digestOf (messageHash m)

/-- HMAC-SHA1 of a message under a key of at most 64 bytes (R100). -/
def macDigest (key m : List Byte) : Vector Byte 20 :=
  let padded := key ++ List.replicate (64 - key.length) 0x00
  let inner := messageDigest (padded.map (0x36 ^^^ ·) ++ m)
  messageDigest (padded.map (0x5C ^^^ ·) ++ inner.toList)

/-- The key the HMAC processor uses: KEY[0..KLEN-1] (R17). -/
def keyBytes (s : State) : List Byte := s.key.toList.take s.klen.toNat

/-- Streaming a message in chunks: SHA1.INIT, each chunk written to MSG and taken by SHA1.UPDATE, then
SHA1.FINAL (R91). -/
def streamScript (chunks : List (List Byte)) : List HostAction :=
  issueOf .sha1Init ::
    ((chunks.flatMap fun c =>
      writeBytes (addrOf .msg) c ++ [issueOf (.sha1Update (BitVec.ofNat 8 c.length))]) ++
    [issueOf .sha1Final])

/-- The decimal number a string of digit characters spells (R115). -/
def decimalValue (cs : List Byte) : Nat := cs.foldl (fun acc c => acc * 10 + (c.toNat - 0x30)) 0

end Sys2Proof.Machine
end

