-- ==== Sys2Proof/Certificates/Slice0/Obligations.lean ====
section
/-! DEFINITION. The statements for the provers. Each is a proposition about the model; the docstring
says which rule of the spec it formalises, or which it rests on. -/

open Sys2Proof Sys2Proof.Machine

/-! ### Encoding -/

/-- Words written out from the encodings of 30_encoding.md R61 to R66 decode to their commands, and
three words of its R68 and R69 to none. -/
def Obligations.DecodesWrittenOutWords : Prop :=
  decode 0b0000000000000000 = .command .nop ∧
  decode 0b0001000000000000 = .command .sha1Init ∧
  decode 0b0001000100000011 = .command (.sha1Update 3) ∧
  decode 0b0010000000001000 = .command (.hmacCompute 8) ∧
  decode 0b0011000100001011 = .command (.decRender 11) ∧
  decode 0b0100000000000001 = .command (.timeXlate .add) ∧
  decode 0b0101000000010100 = .command (.xorMask 20) ∧
  decode 0b1111000000000000 = .command .ctxClear ∧
  decode 0b0100000000000010 = .illegal .modeOutOfRange ∧
  decode 0b0001000000000001 = .illegal .nonzeroImmediate ∧
  decode 0b1111111111111111 = .illegal .unassignedOpcode

/-- Decoding and encoding agree on every command and every legal word (R66, R67): each command's word
decodes to it, and a word that decodes to a command is that command's word. -/
def Obligations.DecodeEncodeAgree : Prop :=
  (∀ i : Instr, i.wellFormed = true → decode (encode i) = .command i) ∧
  (∀ (w : CmdWord) (i : Instr), decode w = .command i → encode i = w)

/-- A decoder written from the opcode table alone agrees with `decode` on every word (R75): a row
selects exactly the words that decode to a command of its mnemonic, no two rows select one word, and
a word no row selects is illegal. -/
def Obligations.DecodeAgreesWithTheTable : Prop :=
  ∀ w : CmdWord,
    (∀ r ∈ opcodeTable, r.selects w = true ↔ ∃ i, decode w = .command i ∧ i.mnemonic = r.mnemonic) ∧
    (opcodeTable.filter fun r => r.selects w).length ≤ 1 ∧
    ((∀ r ∈ opcodeTable, r.selects w = false) ↔ ∃ why, decode w = .illegal why)

/-- The assembler of R71: it makes a word of exactly the well-formed lines, the word is
`opc * 256 + operand` with the operand 0 for format Z, and it decodes to the command. -/
def Obligations.AssembledLinesDecode : Prop :=
  ∀ l : SourceLine,
    (l.wellFormed = false → assembleWord l = none) ∧
    (l.wellFormed = true → ∃ i w, assemble l = some i ∧ assembleWord l = some w ∧
      decode w = .command i ∧ i.sourceLine = l ∧ w.toNat % 256 = l.operand.getD 0)

/-! ### Steps -/

/-- When the host presents a word that decodes to a command, the step is `exec` of that command
(R60, R74) at the state without the transaction (log entry 1). -/
def Obligations.StepRunsDecodedCommand : Prop :=
  ∀ (s : State) (w : Nat) (rest : List HostAction) (i : Instr),
    s.pending = .issue w :: rest → decode (portWord w) = .command i →
    step s = exec i { s with pending := rest }

/-- An illegal word fails with E_ILLCMD: ERR and FAULTED, nothing else (R159). -/
def Obligations.IllegalWordChangesOnlyErrAndFaulted : Prop :=
  ∀ (s : State) (w : Nat) (rest : List HostAction) (why : IllegalWord),
    s.pending = .issue w :: rest → decode (portWord w) = .illegal why →
    step s = .next { s with pending := rest, err := 0x01, faulted := true }

/-- A data-port read appends the byte to what the host has received and changes nothing else, a write
is `memWrite` (R45, R46), the reset event writes the reset state (R180), and with nothing pending
nothing happens (R167); `pending` and `returned` are the model's own (log entries 1, 2). -/
def Obligations.StepPerformsPortTransactions : Prop :=
  ∀ (s : State) (rest : List HostAction),
    (∀ a, s.pending = .read a :: rest →
      step s = .next { s with pending := rest, returned := s.returned ++ [memRead s a] }) ∧
    (∀ a v, s.pending = .write a v :: rest →
      step s = .next { memWrite s a v with pending := rest }) ∧
    (s.pending = .reset :: rest →
      step s = .next { State.reset with pending := rest, returned := s.returned }) ∧
    (s.pending = [] → step s = .next s)

/-- Every step goes on: whatever the state and whatever the host presents, the block is never stuck
(R170, R189). -/
def Obligations.EveryStepGoesOn : Prop :=
  ∀ s : State, stepGoesOn s

/-- Transactions are performed in the order the host gives them, and what is pending behind them does
not change what they do (R55). -/
def Obligations.TransactionsRunInOrder : Prop :=
  ∀ (acts rest : List HostAction) (s : State),
    Host.Core.run Sys2Proof.core acts.length { s with pending := acts ++ rest } =
      hostRun acts { s with pending := rest }

/-- Ports wider than the block's have their extra bits ignored (R41, R60). -/
def Obligations.PortsIgnoreExtraBits : Prop :=
  (∀ (w k : Nat) (s : State), issue (w + 65536 * k) s = issue w s) ∧
  (∀ (a k : Nat) (s : State), memRead s (a + 1024 * k) = memRead s a) ∧
  (∀ (a k : Nat) (v : Byte) (s : State), memWrite s (a + 1024 * k) v = memWrite s a v)

/-! ### Reset -/

/-- The state after reset: every piece of state is zero, PHASE = IDLE, and every address of the
register space reads `0x00` (R181). -/
def Obligations.ResetStateIsZero : Prop :=
  State.reset.hash.phase = .idle ∧ State.reset.dvalid = false ∧ State.reset.cvalid = false ∧
  State.reset.faulted = false ∧ State.reset.err = 0 ∧ State.reset.hmaccnt = 0 ∧
  State.reset.status = 0 ∧ ∀ a : Nat, memRead State.reset a = 0x00

/-- The invariants hold at reset (R39). -/
def Obligations.ResetMeetsInvariants : Prop :=
  StateInv State.reset ∧ CacheCoherent State.reset

/-! ### Whole-machine rules -/

/-- Every step keeps the invariants of R39: OUT's zero tail, no valid digest or cached step while a
hash is in flight, what a valid cached step implies, OFF against CNT, ERR against FAULTED, BINCODE. -/
def Obligations.StepKeepsStateInv : Prop :=
  ∀ s t : State, StateInv s → step s = .next t → StateInv t

/-- Every step keeps the step cache coherent: whenever CVALID = 1, recomputing the cached step would
write what is already there and only count one HMAC more (R130, R131). -/
def Obligations.StepKeepsCacheCoherent : Prop :=
  ∀ s t : State, CacheCoherent s → step s = .next t → CacheCoherent t

/-- Every command ends in a next state whose ERR is the code of the table of R158 in the order of
R168, and FAULTED is set exactly when it was set or the command failed (R157). -/
def Obligations.CommandOutcomeCodes : Prop :=
  ∀ (i : Instr) (s : State), ∃ t, exec i s = .next t ∧ t.err = outcomeCode i s ∧
    t.faulted = (s.faulted || decide (outcomeCode i s ≠ 0x00))

/-- FAULTED is set by every failing command and cleared only by reset; no command clears it; it is
STATUS[7] (R35). -/
def Obligations.FaultedIsSticky : Prop :=
  (∀ (i : Instr) (s t : State), exec i s = .next t → t.err ≠ 0x00 → t.faulted = true) ∧
  (∀ (s : State) (w : Nat), (∀ i, decode (portWord w) ≠ .command i) →
    ∃ t, issue w s = .next t ∧ t.faulted = true) ∧
  (∀ (act : HostAction) (s t : State), s.faulted = true → perform act s = .next t →
    t.faulted = false → act = .reset) ∧
  (∀ (i : Instr) (s t : State), s.faulted = true → exec i s = .next t → t.faulted = true) ∧
  State.reset.faulted = false ∧
  ∀ s : State, (memRead s 0x000).getLsbD 7 = s.faulted

/-- Everything a failing command writes, row by row of the table of R171. -/
def Obligations.FailingCommandWritesOnlyTheTable : Prop :=
  (∀ (i : Instr) (s t : State), exec i s = .next t → t.err ≠ 0x00 →
    t = { s with
      err := t.err
      faulted := true
      cvalid := (match i with | .timeXlate _ => s.cvalid | _ => false)
      dvalid := (match i with | .hmacCompute _ | .hotpDerive | .totpDerive => false | _ => s.dvalid)
      olen := (match i with | .hotpDerive | .totpDerive => 0 | .decRender _ => 6 | _ => s.olen)
      out := (match i with
        | .hotpDerive | .totpDerive => Vector.replicate 11 0x00
        | .decRender _ => #v[0x45, 0x44, 0x49, 0x47, 0x49, 0x54, 0x00, 0x00, 0x00, 0x00, 0x00]
        | _ => s.out) }) ∧
  (∀ (s : State) (w : Nat), (∀ i, decode (portWord w) ≠ .command i) →
    issue w s = .next { s with err := 0x01, faulted := true })

/-- Every command other than NOP, TIME.XLATE and TOTP.DERIVE clears CVALID, whether it succeeds or
fails, and only TOTP.DERIVE sets it (R32, R74). -/
def Obligations.CommandsClearCachedStep : Prop :=
  (∀ (i : Instr) (s t : State), exec i s = .next t →
    i ≠ .nop → (∀ a, i ≠ .timeXlate a) → i ≠ .totpDerive → t.cvalid = false) ∧
  (∀ (i : Instr) (s t : State), exec i s = .next t → s.cvalid = false → t.cvalid = true →
    i = .totpDerive)

/-- The frame of every command on the register space: a byte of a register the command's rule does not
list as written reads after it as before (the lists are `writtenRegs`, from the command rules). -/
def Obligations.UnwrittenBytesReadAsBefore : Prop :=
  ∀ (i : Instr) (s t : State), exec i s = .next t → ∀ a : Nat,
    (∀ r, regionAt (portAddr a) = some r → r.name ∉ writtenRegs i) → memRead t a = memRead s a

/-! ### The data port -/

/-- The data-port write (R46): a byte of a writable register takes the value and no other byte of the
register space changes but STATUS, which shows CVALID; CVALID is cleared at exactly the marked
addresses; PHASE, DVALID, ERR and FAULTED never change; a write to a read-only or reserved address
changes nothing. The writable addresses are those R42 gives (`hostWritable`). -/
def Obligations.PortWriteStoresOneByte : Prop :=
  ∀ (s : State) (addr : Nat) (v : Byte),
    let a := addr % 1024
    (hostWritable a →
      memRead (memWrite s addr v) addr = v ∧
      (∀ b, b % 1024 ≠ a → b % 1024 ≠ 0x000 → memRead (memWrite s addr v) b = memRead s b) ∧
      (memWrite s addr v).cvalid =
        (if a = 0x002 ∨ a = 0x003 ∨ (0x018 ≤ a ∧ a ≤ 0x01B) ∨ (0x028 ≤ a ∧ a ≤ 0x02B) ∨
            (0x080 ≤ a ∧ a ≤ 0x0BF) then false else s.cvalid) ∧
      (memWrite s addr v).hash = s.hash ∧ (memWrite s addr v).dvalid = s.dvalid ∧
      (memWrite s addr v).err = s.err ∧ (memWrite s addr v).faulted = s.faulted) ∧
    (¬ hostWritable a → memWrite s addr v = s)

/-- The host cannot set the read-only results (DIGEST, OUT, OLEN, BINCODE, CSTEP, HMACCNT), the hash
state, ERR, DVALID or FAULTED through the data port, and can clear but never set CVALID (R43, R48).
CODE is a result the host may write (R25, R43), and is not among them. -/
def Obligations.PortWriteLeavesReadOnlyResultsAlone : Prop :=
  ∀ (s : State) (a : Nat) (v : Byte), ∃ t, memWrite s a v = t ∧ t.hash = s.hash ∧
    t.digest = s.digest ∧ t.dvalid = s.dvalid ∧ t.out = s.out ∧ t.olen = s.olen ∧
    t.bincode = s.bincode ∧ t.cstep = s.cstep ∧ t.err = s.err ∧ t.faulted = s.faulted ∧
    t.hmaccnt = s.hmaccnt ∧ (t.cvalid = true → s.cvalid = true)

/-- Multi-byte registers are big-endian on the data port: byte `k` of a register of `n` bytes at first
address `A` holding `V` reads `(V div 2^(8 * (n - 1 - k))) mod 256` (R49). -/
def Obligations.RegistersReadBigEndian : Prop :=
  ∀ (s : State) (k : Nat),
    (k < 8 →
      (memRead s (0x008 + k)).toNat = s.ctr.toNat / 2 ^ (8 * (7 - k)) % 256 ∧
      (memRead s (0x010 + k)).toNat = s.ts.toNat / 2 ^ (8 * (7 - k)) % 256 ∧
      (memRead s (0x030 + k)).toNat = s.cstep.toNat / 2 ^ (8 * (7 - k)) % 256 ∧
      (memRead s (0x038 + k)).toNat = s.hash.cnt.toNat / 2 ^ (8 * (7 - k)) % 256) ∧
    (k < 4 →
      (memRead s (0x018 + k)).toNat = s.tstep.toNat / 2 ^ (8 * (3 - k)) % 256 ∧
      (memRead s (0x01C + k)).toNat = s.clk.toNat / 2 ^ (8 * (3 - k)) % 256 ∧
      (memRead s (0x020 + k)).toNat = s.tzoff.toNat / 2 ^ (8 * (3 - k)) % 256 ∧
      (memRead s (0x024 + k)).toNat = s.bincode.toNat / 2 ^ (8 * (3 - k)) % 256 ∧
      (memRead s (0x028 + k)).toNat = s.code.toNat / 2 ^ (8 * (3 - k)) % 256 ∧
      (memRead s (0x02C + k)).toNat = s.hmaccnt.toNat / 2 ^ (8 * (3 - k)) % 256 ∧
      (memRead s (0x038 + k)).toNat = s.hash.cntHi.toNat / 2 ^ (8 * (3 - k)) % 256 ∧
      (memRead s (0x03C + k)).toNat = s.hash.cntLo.toNat / 2 ^ (8 * (3 - k)) % 256 ∧
      ∀ j < 5, (memRead s (0x040 + 4 * j + k)).toNat =
        (s.hash.acc j).toNat / 2 ^ (8 * (3 - k)) % 256)

/-- Reserved addresses hold no state: they read as `0x00` and ignore writes (R47). -/
def Obligations.ReservedAddressesHoldNothing : Prop :=
  ∀ (s : State) (a : Nat) (v : Byte),
    (a = 0x006 ∨ a = 0x007 ∨ (0x054 ≤ a ∧ a ≤ 0x05F) ∨ a = 0x07F ∨ (0x0D4 ≤ a ∧ a ≤ 0x0DF) ∨
      (0x0F4 ≤ a ∧ a ≤ 0x0FF) ∨ (0x240 ≤ a ∧ a ≤ 0x3FF)) →
    memRead s a = 0x00 ∧ memWrite s a v = s

/-! ### Control commands -/

/-- NOP: ERR <- `0x00` and nothing else; its word is `0x0000` (R147). -/
def Obligations.NopOnlyClearsErr : Prop :=
  encode .nop = 0x0000 ∧ ∀ s : State, exec .nop s = .next { s with err := 0x00 }

/-- CTX.CLEAR: every piece of state to its reset value except FAULTED and HMACCNT; so every address
reads `0x00` after it but STATUS, which shows FAULTED, and HMACCNT (R148). That `pending` and
`returned` survive it is the model's choice (log entries 1, 2). -/
def Obligations.CtxClearRestoresReset : Prop :=
  encode .ctxClear = 0xF000 ∧
  ∀ s : State, ∃ t, exec .ctxClear s = .next t ∧ clearedBut s t ∧
    t.status = (if s.faulted then 0x80 else 0x00) ∧
    (∀ a, portAddr a ≠ 0x000 → (portAddr a < 0x02C ∨ 0x02F < portAddr a) → memRead t a = 0x00) ∧
    (∀ a, 0x02C ≤ a → a ≤ 0x02F → memRead t a = memRead s a)

/-! ### SHA-1 -/

/-- SHA1.INIT: the five accumulators to their initial constants, CNT and OFF to 0, PHASE to ACTIVE,
DVALID to 0, in every PHASE; all else but CVALID and ERR unchanged (R88). -/
def Obligations.Sha1InitStartsLifecycle : Prop :=
  encode .sha1Init = 0x1000 ∧
  ∀ s : State, exec .sha1Init s = .next { s with
    hash := { s.hash with
      h0 := 0x67452301, h1 := 0xEFCDAB89, h2 := 0x98BADCFE, h3 := 0x10325476, h4 := 0xC3D2E1F0,
      cntHi := 0, cntLo := 0, off := 0, phase := .active }
    dvalid := false
    cvalid := false
    err := 0x00 }

/-- SHA1.UPDATE n in PHASE ACTIVE (R89, R82). With `p` the pending bytes followed by MSG[0..n-1]: every
full 64-byte block of `p` is compressed in order, what is left of `p` is pending, CNT advances by 8n
modulo 2^64, and nothing else changes but CVALID and ERR. -/
def Obligations.Sha1UpdateCompressesFullBlocks : Prop :=
  ∀ (n : Byte) (s : State), s.hash.phase = .active →
    ∃ h, exec (.sha1Update n) s = .next { s with hash := h, cvalid := false, err := 0x00 } ∧
      h.phase = .active ∧
      h.cnt.toNat = (s.hash.cnt.toNat + 8 * n.toNat) % 2 ^ 64 ∧
      h.off.val = (s.hash.off.val + n.toNat) % 64 ∧
      (let p := s.hash.buf.toList.take s.hash.off.val ++ s.msg.toList.take n.toNat
       (∀ i < 5, h.acc i = ((messageBlocks p).foldl compressBlock s.hash).acc i) ∧
       (∀ j < h.off.val, byteAt h.buf j = p.getD (64 * (p.length / 64) + j) 0x00)) ∧
      (s.hash.off.val + n.toNat < 64 →
        ∀ j, s.hash.off.val + n.toNat ≤ j → byteAt h.buf j = byteAt s.hash.buf j)

/-- SHA1.FINAL in PHASE ACTIVE (R90, R86): the `0x80` byte, zeros, the bit count in the last eight bytes
of the last block, one compression or two as OFF is below 56 or not, and the accumulators emitted
big-endian; CNT unchanged, OFF 0, PHASE DONE, DVALID 1. -/
def Obligations.Sha1FinalPadsAndEmits : Prop :=
  ∀ s : State, s.hash.phase = .active →
    ∃ h, exec .sha1Final s = .next { s with
        hash := h, digest := digestOf h, dvalid := true, cvalid := false, err := 0x00 } ∧
      h.phase = .done ∧ h.off.val = 0 ∧ h.cntHi = s.hash.cntHi ∧ h.cntLo = s.hash.cntLo ∧
      (let tail := bytesBE 8 s.hash.cnt
       let pend := s.hash.buf.toList.take s.hash.off.val ++ [0x80]
       let p := if s.hash.off.val < 56 then pend ++ List.replicate (55 - s.hash.off.val) 0x00 ++ tail
         else pend ++ List.replicate (119 - s.hash.off.val) 0x00 ++ tail
       (messageBlocks p).length = (if s.hash.off.val < 56 then 1 else 2) ∧
       (∀ i < 5, h.acc i = ((messageBlocks p).foldl compressBlock s.hash).acc i) ∧
       h.buf = messageBlock p ((messageBlocks p).length - 1)) ∧
      (∀ i < 5, ∀ j < 4, (byteAt (digestOf h) (4 * i + j)).toNat =
        (h.acc i).toNat / 2 ^ (8 * (3 - j)) % 256)

/-- SHA1.UPDATE and SHA1.FINAL with PHASE not ACTIVE fail with E_SEQ and change nothing but ERR,
FAULTED and CVALID: finalise once (R190). -/
def Obligations.LifecycleViolationsAreRefused : Prop :=
  ∀ s : State, s.hash.phase ≠ .active →
    (∀ n, exec (.sha1Update n) s =
      .next { s with err := 0x02, faulted := true, cvalid := false }) ∧
    exec .sha1Final s = .next { s with err := 0x02, faulted := true, cvalid := false }

/-- SHA1.HASH n ends with the same state as SHA1.INIT, SHA1.UPDATE n, SHA1.FINAL issued from the same
state, and with PHASE = ACTIVE it fails with E_SEQ and destroys nothing (R92). -/
def Obligations.Sha1HashEqualsStream : Prop :=
  ∀ (n : Byte) (s : State),
    encode (.sha1Hash n) = 0x1300 + n.setWidth 16 ∧
    (s.hash.phase ≠ .active → ∃ t, exec (.sha1Hash n) s = .next t ∧
      hostRun (expandPseudo (.sha1Stream n)) s = .next t ∧
      t = { s with
        hash := t.hash, digest := t.digest, dvalid := true, cvalid := false, err := 0x00 } ∧
      t.hash.phase = .done ∧ t.hash.off.val = 0) ∧
    (s.hash.phase = .active →
      exec (.sha1Hash n) s = .next { s with err := 0x02, faulted := true, cvalid := false })

/-- What the engine computes (R87): SHA1.HASH n leaves the SHA-1 digest of MSG[0..n-1], defined over
the whole padded message, in DIGEST and in H0 to H4, and the message takes
`(n + 8) div 64 + 1` compressions. -/
def Obligations.Sha1HashComputesMessageDigest : Prop :=
  ∀ (n : Byte) (s : State), s.hash.phase ≠ .active →
    let m := s.msg.toList.take n.toNat
    ∃ t, exec (.sha1Hash n) s = .next t ∧ t.digest = messageDigest m ∧
      (∀ i < 5, t.hash.acc i = (messageHash m).acc i) ∧ t.hash.cnt.toNat = 8 * n.toNat ∧
      (messageBlocks (paddedMessage m)).length = (n.toNat + 8) / 64 + 1

/-- The streaming law (R91): SHA1.INIT, then each chunk written to MSG and taken by SHA1.UPDATE, then
SHA1.FINAL ends with the digest of the whole message, and with the same hash state and digest
whatever the split into chunks of at most 255 bytes. -/
def Obligations.StreamingSplitIsIrrelevant : Prop :=
  ∀ (s : State) (chunks chunks' : List (List Byte)),
    (∀ c ∈ chunks, c.length ≤ 255) → (∀ c ∈ chunks', c.length ≤ 255) →
    chunks.flatten = chunks'.flatten →
    ∃ t t', hostRun (streamScript chunks) s = .next t ∧ hostRun (streamScript chunks') s = .next t' ∧
      t.digest = messageDigest chunks.flatten ∧ t.hash = t'.hash ∧ t.digest = t'.digest ∧
      t.dvalid = true ∧ t.hash.phase = .done ∧
      t.hash.cnt.toNat = 8 * chunks.flatten.length % 2 ^ 64

/-! ### HMAC -/

/-- HMAC.COMPUTE n with no hash in flight and KLEN <= 64 (R102, R100): DIGEST is the HMAC-SHA1 of
MSG[0..n-1] under KEY[0..KLEN-1], the engine ends as the outer lifecycle leaves it, HMACCNT counts
one, and nothing else changes but CVALID and ERR. -/
def Obligations.HmacComputesMac : Prop :=
  ∀ (n : Byte) (s : State), s.hash.phase ≠ .active → s.klen.toNat ≤ 64 →
    ∃ h, exec (.hmacCompute n) s = .next { s with
        hash := h
        digest := macDigest (keyBytes s) (s.msg.toList.take n.toNat)
        dvalid := true
        hmaccnt := s.hmaccnt + 1
        cvalid := false
        err := 0x00 } ∧
      h.phase = .done ∧ h.off.val = 0 ∧ h.cnt.toNat = 672 ∧
      digestOf h = macDigest (keyBytes s) (s.msg.toList.take n.toNat)

/-- The refusals of HMAC.COMPUTE (R102): E_SEQ while a hash is in flight, tested first, then E_KEYLEN
for KLEN > 64; each unsets the digest and changes nothing else but CVALID, ERR and FAULTED. -/
def Obligations.HmacRefusalsUnsetTheDigest : Prop :=
  ∀ (n : Byte) (s : State),
    (s.hash.phase = .active → exec (.hmacCompute n) s =
      .next { s with dvalid := false, cvalid := false, err := 0x02, faulted := true }) ∧
    (s.hash.phase ≠ .active → 64 < s.klen.toNat → exec (.hmacCompute n) s =
      .next { s with dvalid := false, cvalid := false, err := 0x03, faulted := true })

/-- KEY bytes at index KLEN and above are ignored (R17): two states that agree on KEY[0..KLEN-1] and
differ above it are taken to states that differ there only, by HMAC.COMPUTE, HOTP.DERIVE and
TOTP.DERIVE alike. -/
def Obligations.KeyTailIsIgnored : Prop :=
  ∀ (s : State) (key' : Vector Byte 64),
    (∀ j < s.klen.toNat, byteAt key' j = byteAt s.key j) →
    ∀ i : Instr, ((∃ n, i = .hmacCompute n) ∨ i = .hotpDerive ∨ i = .totpDerive) →
      ∃ t, exec i s = .next t ∧ exec i { s with key := key' } = .next { t with key := key' }

/-! ### HOTP and rendering -/

/-- HOTP.DERIVE with no hash in flight and KLEN <= 64 (R114, R111 to R113, R115): the HMAC of the
8-byte big-endian counter, the 31-bit window at the offset of the last nibble, its remainder by
10^d, and that as exactly d digits; CTR, DIGITS, KEY, KLEN and MSG unchanged. -/
def Obligations.HotpDerivesCode : Prop :=
  ∀ s : State, s.hash.phase ≠ .active → s.klen.toNat ≤ 64 →
    let message := (List.range 8).map fun k => BitVec.ofNat 8 (s.ctr.toNat / 2 ^ (8 * (7 - k)))
    let g := macDigest (keyBytes s) message
    let o := (byteAt g 19).toNat % 16
    let d := if s.digits = 7 then 7 else if s.digits = 8 then 8 else 6
    ∃ t, exec .hotpDerive s = .next t ∧
      t = { s with
        hash := t.hash, digest := g, dvalid := true, hmaccnt := s.hmaccnt + 1,
        bincode := t.bincode, code := t.code, out := t.out, olen := t.olen,
        cvalid := false, err := 0x00 } ∧
      t.hash.phase = .done ∧ t.hash.cnt.toNat = 672 ∧
      t.bincode.toNat = (byteAt g o).toNat % 128 * 2 ^ 24 + (byteAt g (o + 1)).toNat * 2 ^ 16 +
        (byteAt g (o + 2)).toNat * 2 ^ 8 + (byteAt g (o + 3)).toNat ∧
      t.code.toNat = t.bincode.toNat % 10 ^ d ∧
      t.olen.val = d ∧ decimalValue (t.out.toList.take d) = t.code.toNat ∧
      (∀ k < d, 0x30 ≤ (byteAt t.out k).toNat ∧ (byteAt t.out k).toNat ≤ 0x39) ∧
      ∀ k, d ≤ k → byteAt t.out k = 0x00

/-- The refusals of HOTP.DERIVE (R114): E_SEQ first, then E_KEYLEN; each unsets the digest and the
output string and leaves BINCODE and CODE as they were. -/
def Obligations.HotpRefusalsLeaveNoString : Prop :=
  ∀ s : State,
    (s.hash.phase = .active → exec .hotpDerive s = .next { s with
      dvalid := false, olen := 0, out := Vector.replicate 11 0x00, cvalid := false,
      err := 0x02, faulted := true }) ∧
    (s.hash.phase ≠ .active → 64 < s.klen.toNat → exec .hotpDerive s = .next { s with
      dvalid := false, olen := 0, out := Vector.replicate 11 0x00, cvalid := false,
      err := 0x03, faulted := true })

/-- An unsupported digit count behaves identically to 6 (R112): with DIGITS outside 6, 7, 8, the
derivations end as with DIGITS = 6, but for DIGITS itself. -/
def Obligations.UnsupportedDigitsActAsSix : Prop :=
  ∀ s : State, s.digits ≠ 6 → s.digits ≠ 7 → s.digits ≠ 8 →
    ∀ i : Instr, (i = .hotpDerive ∨ i = .totpDerive) →
      ∃ t, exec i s = .next t ∧ t.digits = s.digits ∧
        exec i { s with digits := 6 } = .next { t with digits := 6 }

/-- DEC.RENDER w (R116, R115): for `w <= 10` the low `w` decimal digits of CODE, left-zero-padded, and
zeros after them; for `w > 10` the sentinel `"EDIGIT"` and E_DIGIT; accepted in every PHASE, and
nothing else changes but CVALID. -/
def Obligations.DecRenderWritesDecimalString : Prop :=
  ∀ (w : Byte) (s : State),
    encode (.decRender w) = 0x3100 + w.setWidth 16 ∧
    (w.toNat ≤ 10 → ∃ t, exec (.decRender w) s = .next t ∧
      t = { s with out := t.out, olen := t.olen, cvalid := false, err := 0x00 } ∧
      t.olen.val = w.toNat ∧
      decimalValue (t.out.toList.take w.toNat) = s.code.toNat % 10 ^ w.toNat ∧
      (∀ k < w.toNat, 0x30 ≤ (byteAt t.out k).toNat ∧ (byteAt t.out k).toNat ≤ 0x39) ∧
      ∀ k, w.toNat ≤ k → byteAt t.out k = 0x00) ∧
    (10 < w.toNat → exec (.decRender w) s = .next { s with
      out := #v[0x45, 0x44, 0x49, 0x47, 0x49, 0x54, 0x00, 0x00, 0x00, 0x00, 0x00], olen := 6,
      cvalid := false, err := 0x04, faulted := true })

/-! ### TOTP -/

/-- TIME.XLATE a (R127, R126): TS becomes the exact translated time when it is not negative, and
otherwise E_RANGE with TS unchanged; CVALID is kept in both cases. -/
def Obligations.TimeXlateTranslatesExactly : Prop :=
  ∀ (a : TzMode) (s : State),
    let t : Int := match a with
      | .subtract => (s.clk.toNat : Int) + 852076800 - s.tzoff.toInt
      | .add => (s.clk.toNat : Int) + 852076800 + s.tzoff.toInt
    (0 ≤ t → ∃ ts : DWord, (ts.toNat : Int) = t ∧
      exec (.timeXlate a) s = .next { s with ts := ts, err := 0x00 }) ∧
    (t < 0 → exec (.timeXlate a) s = .next { s with err := 0x07, faulted := true }) ∧
    encode (.timeXlate .subtract) = 0x4000 ∧ encode (.timeXlate .add) = 0x4001

/-- Mode 0 with TZOFF = tz equals mode 1 with TZOFF = -tz, for every tz but -2^31 (R127). -/
def Obligations.TimeXlateModesMirror : Prop :=
  ∀ s : State, s.tzoff ≠ 0x80000000 →
    ∃ t, exec (.timeXlate .subtract) s = .next t ∧
      exec (.timeXlate .add) { s with tzoff := -s.tzoff } = .next { t with tzoff := -s.tzoff }

/-- A computing TOTP.DERIVE (R129, R128): with no hash in flight, TSTEP != 0, KLEN <= 64 and no cached
step that equals TS div TSTEP, it derives the code of that step as HOTP.DERIVE does of its counter,
and caches the step; CTR is neither read nor written. -/
def Obligations.TotpComputesAndCaches : Prop :=
  ∀ s : State, s.hash.phase ≠ .active → s.tstep ≠ 0 → s.klen.toNat ≤ 64 →
    ¬(s.cvalid = true ∧ s.cstep.toNat = s.ts.toNat / s.tstep.toNat) →
    ∃ t u, exec .totpDerive s = .next t ∧
      exec .hotpDerive { s with ctr := BitVec.ofNat 64 (s.ts.toNat / s.tstep.toNat) } = .next u ∧
      t.cstep.toNat = s.ts.toNat / s.tstep.toNat ∧ t.hmaccnt = s.hmaccnt + 1 ∧
      t = { u with ctr := s.ctr, cstep := t.cstep, cvalid := true }

/-- A cache hit writes ERR only: no additional HMAC computation and the identical code (R129, R130). -/
def Obligations.TotpHitWritesOnlyErr : Prop :=
  ∀ s : State, s.hash.phase ≠ .active → s.tstep ≠ 0 → s.cvalid = true →
    s.cstep.toNat = s.ts.toNat / s.tstep.toNat →
    exec .totpDerive s = .next { s with err := 0x00 }

/-- The refusals of TOTP.DERIVE in their order (R129, R168): E_SEQ, then E_DIVZ, then on a miss
E_KEYLEN; each leaves CVALID = 0, DVALID = 0 and no output string. -/
def Obligations.TotpRefusalsInOrder : Prop :=
  ∀ s : State,
    let refused := fun code : Byte => { s with
      dvalid := false, olen := 0, out := Vector.replicate 11 0x00, cvalid := false,
      err := code, faulted := true }
    (s.hash.phase = .active → exec .totpDerive s = .next (refused 0x02)) ∧
    (s.hash.phase ≠ .active → s.tstep = 0 → exec .totpDerive s = .next (refused 0x06)) ∧
    (s.hash.phase ≠ .active → s.tstep ≠ 0 →
      ¬(s.cvalid = true ∧ s.cstep.toNat = s.ts.toNat / s.tstep.toNat) → 64 < s.klen.toNat →
      exec .totpDerive s = .next (refused 0x03))

/-- Cache transparency (R131): from a coherent state whose cached step answers, the hit and the
recomputation agree on every piece of state except HMACCNT, which the recomputation raises by one. -/
def Obligations.CacheHitEqualsRecomputation : Prop :=
  ∀ s : State, CacheCoherent s → s.cvalid = true → s.cstep.toNat = s.ts.toNat / s.tstep.toNat →
    s.hash.phase ≠ .active → s.tstep ≠ 0 → s.klen.toNat ≤ 64 →
    ∃ t, exec .totpDerive s = .next t ∧
      exec .totpDerive { s with cvalid := false } = .next { t with hmaccnt := s.hmaccnt + 1 }

/-- Cache correctness (R130): two evaluations whose timestamps map to the same step, with only TS
written between them; the second performs no HMAC and leaves the identical code. -/
def Obligations.SecondEvaluationInStepIsFree : Prop :=
  ∀ (s : State) (t1 t2 : DWord), s.hash.phase ≠ .active → s.tstep ≠ 0 → s.klen.toNat ≤ 64 →
    t1.toNat / s.tstep.toNat = t2.toNat / s.tstep.toNat →
    ∃ u v,
      hostRun (expandScript [.directive (.wr64 (addrOf .ts) t1), .command .totpDerive]) s = .next u ∧
      hostRun (expandScript [.directive (.wr64 (addrOf .ts) t2), .command .totpDerive]) u = .next v ∧
      u.ts = t1 ∧ v.ts = t2 ∧ v = { u with ts := t2 }

/-! ### XOR masking -/

/-- XOR.MASK n (R141): for `n <= 20` KEY[i] becomes DKEY[i] xor ESEC[i] below `n` and keeps its byte from
`n` on, KLEN becomes `n`; for `n > 20` E_LEN with KEY and KLEN unchanged; nothing else changes but
CVALID, and every address outside KEY[0..n-1], KLEN, STATUS and ERR reads as before. -/
def Obligations.XorMaskUnmasksTheKey : Prop :=
  ∀ (n : Byte) (s : State),
    encode (.xorMask n) = 0x5000 + n.setWidth 16 ∧
    (n.toNat ≤ 20 → ∃ t, exec (.xorMask n) s = .next t ∧
      t = { s with key := t.key, klen := n, cvalid := false, err := 0x00 } ∧
      (∀ i < n.toNat, byteAt t.key i = byteAt s.dkey i ^^^ byteAt s.esec i) ∧
      (∀ i, n.toNat ≤ i → byteAt t.key i = byteAt s.key i) ∧
      ∀ a, 2 < portAddr a → (portAddr a < 0x080 ∨ 0x080 + n.toNat ≤ portAddr a) →
        memRead t a = memRead s a) ∧
    (20 < n.toNat →
      exec (.xorMask n) s = .next { s with cvalid := false, err := 0x05, faulted := true })

/-- Masking is an involution (R142): XOR.MASK n, KEY[0..n-1] copied to ESEC by the data port, and
XOR.MASK n again gives the masked secret back in KEY. -/
def Obligations.MaskingIsInvolution : Prop :=
  ∀ (n : Byte) (s : State), n.toNat ≤ 20 →
    ∃ t u v, exec (.xorMask n) s = .next t ∧
      hostRun (writeBytes (addrOf .esec) (t.key.toList.take n.toNat)) t = .next u ∧
      exec (.xorMask n) u = .next v ∧
      (∀ i < n.toNat, byteAt v.key i = byteAt s.esec i) ∧ v.klen = n

/-! ### STATUS, the one-byte registers and the windows -/

/-- STATUS reads as FAULTED * 128 + CVALID * 8 + DVALID * 4 + PHASE (R33), each one-byte register reads
at its own address, and element `i` of a window reads at the window's first address plus `i`
(R42, R45). -/
def Obligations.StatusAndWindowsReadAtTheirAddresses : Prop :=
  ∀ s : State,
    (memRead s 0x000).toNat =
      (if s.faulted then 128 else 0) + (if s.cvalid then 8 else 0) + (if s.dvalid then 4 else 0) +
        (match s.hash.phase with | .idle => 0 | .active => 1 | .done => 2) ∧
    memRead s 0x001 = s.err ∧ memRead s 0x002 = s.klen ∧ memRead s 0x003 = s.digits ∧
    (memRead s 0x004).toNat = s.olen.val ∧ (memRead s 0x005).toNat = s.hash.off.val ∧
    (∀ (i : Nat) (_ : i < 20), memRead s (0x060 + i) = s.digest[i]) ∧
    (∀ (i : Nat) (_ : i < 11), memRead s (0x074 + i) = s.out[i]) ∧
    (∀ (i : Nat) (_ : i < 64), memRead s (0x080 + i) = s.key[i]) ∧
    (∀ (i : Nat) (_ : i < 20), memRead s (0x0C0 + i) = s.dkey[i]) ∧
    (∀ (i : Nat) (_ : i < 20), memRead s (0x0E0 + i) = s.esec[i]) ∧
    (∀ (i : Nat) (_ : i < 256), memRead s (0x100 + i) = s.msg[i]) ∧
    (∀ (i : Nat) (_ : i < 64), memRead s (0x200 + i) = s.hash.buf[i])

/-! ### The compression function -/

/-- `compress` (R83 to R85), for every BUF and H0 to H4. There are 80 schedule words: be32 of BUF for
`t < 16`, then the rotation by 1 of W[t-3] xor W[t-8] xor W[t-14] xor W[t-16]. The working variables
start as H0 to H4 and go through the 80 rounds with the functions and constants of the four windows;
the last ones are added into H0 to H4 modulo 2^32; nothing else is written. `compressBlock` is
`compress` with the block in BUF. -/
def Obligations.CompressRunsTheEightyRounds : Prop :=
  (∀ h : HashState, ∃ W a b c d e : Nat → Word,
    schedule h.buf = (List.range 80).map W ∧
    (∀ (t : Nat) (_ : t < 16), (W t).toNat = h.buf[4 * t].toNat * 2 ^ 24 +
      h.buf[4 * t + 1].toNat * 2 ^ 16 + h.buf[4 * t + 2].toNat * 2 ^ 8 + h.buf[4 * t + 3].toNat) ∧
    (∀ t, 16 ≤ t → t < 80 →
      (W t).toNat = rotl32 (W (t - 3) ^^^ W (t - 8) ^^^ W (t - 14) ^^^ W (t - 16)).toNat 1) ∧
    a 0 = h.h0 ∧ b 0 = h.h1 ∧ c 0 = h.h2 ∧ d 0 = h.h3 ∧ e 0 = h.h4 ∧
    (∀ t < 80,
      let f : Word :=
        if t ≤ 19 then (b t &&& c t) ||| (~~~(b t) &&& d t)
        else if 40 ≤ t ∧ t ≤ 59 then (b t &&& c t) ||| (b t &&& d t) ||| (c t &&& d t)
        else b t ^^^ c t ^^^ d t
      let K : Nat :=
        if t ≤ 19 then 0x5A827999 else if t ≤ 39 then 0x6ED9EBA1
        else if t ≤ 59 then 0x8F1BBCDC else 0xCA62C1D6
      (a (t + 1)).toNat =
        (rotl32 (a t).toNat 5 + f.toNat + (e t).toNat + K + (W t).toNat) % 2 ^ 32 ∧
      b (t + 1) = a t ∧ (c (t + 1)).toNat = rotl32 (b t).toNat 30 ∧ d (t + 1) = c t ∧
      e (t + 1) = d t) ∧
    ∃ g : HashState, compress h = { h with
        h0 := g.h0, h1 := g.h1, h2 := g.h2, h3 := g.h3, h4 := g.h4 } ∧
      g.h0.toNat = (h.h0.toNat + (a 80).toNat) % 2 ^ 32 ∧
      g.h1.toNat = (h.h1.toNat + (b 80).toNat) % 2 ^ 32 ∧
      g.h2.toNat = (h.h2.toNat + (c 80).toNat) % 2 ^ 32 ∧
      g.h3.toNat = (h.h3.toNat + (d 80).toNat) % 2 ^ 32 ∧
      g.h4.toNat = (h.h4.toNat + (e 80).toNat) % 2 ^ 32) ∧
  ∀ (h : HashState) (block : Vector Byte 64), compressBlock h block = compress { h with buf := block }
end

