-- ==== Sys2Proof/Laws/Decode.lean ====
section
/-! SUPPORT. The fields of a command word and the decoder in terms of them (30_encoding.md R61, R67). -/

namespace Sys2Proof

theorem opcField_append (opc imm8 : Byte) : opcField (opc ++ imm8) = opc := by
  apply BitVec.eq_of_getLsbD_eq
  intro i hi
  rw [opcField, BitVec.getLsbD_extractLsb', BitVec.getLsbD_append]
  simp only [hi, decide_true, Bool.true_and, show ¬8 + i < 8 by omega, Nat.add_sub_cancel_left,
    if_false]

theorem immField_append (opc imm8 : Byte) : immField (opc ++ imm8) = imm8 := by
  apply BitVec.eq_of_getLsbD_eq
  intro i hi
  rw [immField, BitVec.getLsbD_extractLsb', BitVec.getLsbD_append]
  simp only [hi, decide_true, Bool.true_and, Nat.zero_add, if_true]

/-- A word is its two fields. -/
theorem opcField_append_immField (w : CmdWord) : opcField w ++ immField w = w := by
  apply BitVec.eq_of_getLsbD_eq
  intro i hi
  simp only [opcField, immField, BitVec.getLsbD_append, BitVec.getLsbD_extractLsb']
  by_cases h : i < 8
  · simp [h]
  · simp [h, show i - 8 < 8 by omega, show 8 + (i - 8) = i by omega]

/-- Decoding a word put together from its fields. -/
theorem decode_append (opc imm8 : Byte) : decode (opc ++ imm8) = decodeFields opc imm8 := by
  rw [decode, opcField_append, immField_append]

theorem decodeZ_eq_command {i j : Instr} {imm8 : Byte} :
    decodeZ i imm8 = .command j ↔ imm8 = 0 ∧ i = j := by
  rw [decodeZ]
  split <;> simp_all

theorem decodeM_eq_command {j : Instr} {imm8 : Byte} :
    decodeM imm8 = .command j ↔ ∃ a, j = .timeXlate a ∧ imm8 = a.imm8 := by
  rw [decodeM]
  constructor
  · intro h
    split at h
    · exact ⟨.subtract, by simpa using h.symm, by assumption⟩
    · split at h
      · exact ⟨.add, by simpa using h.symm, by assumption⟩
      · simp at h
  · rintro ⟨a, rfl, rfl⟩
    cases a <;> rfl

/-- Whether a word put together from its fields selects a row: both fields match under the mask
(R66). -/
theorem selects_append (r : OpcodeRow) (opc n : Byte) :
    r.selects (opc ++ n) = true ↔
      opc &&& opcField r.mask = opcField r.pattern ∧ n &&& immField r.mask = immField r.pattern := by
  rw [OpcodeRow.selects, beq_iff_eq, ← opcField_append_immField r.mask,
    ← opcField_append_immField r.pattern, BitVec.and_append, opcField_append, immField_append,
    opcField_append, immField_append]
  constructor
  · intro h
    exact ⟨by simpa only [opcField_append] using congrArg opcField h,
      by simpa only [immField_append] using congrArg immField h⟩
  · rintro ⟨h1, h2⟩
    rw [h1, h2]

/-- The number on the command port is taken modulo 65536 (R60). -/
theorem portWord_add (w k : Nat) : portWord (w + 65536 * k) = portWord w := by
  apply BitVec.eq_of_toNat_eq
  simp only [portWord, BitVec.toNat_ofNat]
  omega

end Sys2Proof
end

