-- ==== Sys2Proof/Laws/State.lean ====
section
/-! SUPPORT. One lemma per field of State for each named update of it, so that no later proof unfolds
a record update. Each unfolds one update or cites the lemmas before it; none is a bare `rfl` between two
states, which would make the elaborator compare whole states field by field. -/

namespace Sys2Proof.Machine

/-! ### clearCvalid -/

@[simp] theorem clearCvalid_hash (s : State) : (clearCvalid s).hash = s.hash := by rw [clearCvalid]
@[simp] theorem clearCvalid_key (s : State) : (clearCvalid s).key = s.key := by rw [clearCvalid]
@[simp] theorem clearCvalid_klen (s : State) : (clearCvalid s).klen = s.klen := by rw [clearCvalid]
@[simp] theorem clearCvalid_digits (s : State) :
    (clearCvalid s).digits = s.digits := by rw [clearCvalid]
@[simp] theorem clearCvalid_ctr (s : State) : (clearCvalid s).ctr = s.ctr := by rw [clearCvalid]
@[simp] theorem clearCvalid_clk (s : State) : (clearCvalid s).clk = s.clk := by rw [clearCvalid]
@[simp] theorem clearCvalid_tzoff (s : State) :
    (clearCvalid s).tzoff = s.tzoff := by rw [clearCvalid]
@[simp] theorem clearCvalid_ts (s : State) : (clearCvalid s).ts = s.ts := by rw [clearCvalid]
@[simp] theorem clearCvalid_tstep (s : State) :
    (clearCvalid s).tstep = s.tstep := by rw [clearCvalid]
@[simp] theorem clearCvalid_dkey (s : State) : (clearCvalid s).dkey = s.dkey := by rw [clearCvalid]
@[simp] theorem clearCvalid_esec (s : State) : (clearCvalid s).esec = s.esec := by rw [clearCvalid]
@[simp] theorem clearCvalid_msg (s : State) : (clearCvalid s).msg = s.msg := by rw [clearCvalid]
@[simp] theorem clearCvalid_bincode (s : State) :
    (clearCvalid s).bincode = s.bincode := by rw [clearCvalid]
@[simp] theorem clearCvalid_code (s : State) : (clearCvalid s).code = s.code := by rw [clearCvalid]
@[simp] theorem clearCvalid_out (s : State) : (clearCvalid s).out = s.out := by rw [clearCvalid]
@[simp] theorem clearCvalid_olen (s : State) : (clearCvalid s).olen = s.olen := by rw [clearCvalid]
@[simp] theorem clearCvalid_digest (s : State) :
    (clearCvalid s).digest = s.digest := by rw [clearCvalid]
@[simp] theorem clearCvalid_dvalid (s : State) :
    (clearCvalid s).dvalid = s.dvalid := by rw [clearCvalid]
@[simp] theorem clearCvalid_cstep (s : State) :
    (clearCvalid s).cstep = s.cstep := by rw [clearCvalid]
@[simp] theorem clearCvalid_cvalid (s : State) :
    (clearCvalid s).cvalid = false := by rw [clearCvalid]
@[simp] theorem clearCvalid_err (s : State) : (clearCvalid s).err = s.err := by rw [clearCvalid]
@[simp] theorem clearCvalid_faulted (s : State) :
    (clearCvalid s).faulted = s.faulted := by rw [clearCvalid]
@[simp] theorem clearCvalid_hmaccnt (s : State) :
    (clearCvalid s).hmaccnt = s.hmaccnt := by rw [clearCvalid]
@[simp] theorem clearCvalid_pending (s : State) :
    (clearCvalid s).pending = s.pending := by rw [clearCvalid]
@[simp] theorem clearCvalid_returned (s : State) :
    (clearCvalid s).returned = s.returned := by rw [clearCvalid]

/-! ### unsetDigest -/

@[simp] theorem unsetDigest_hash (s : State) : (unsetDigest s).hash = s.hash := by rw [unsetDigest]
@[simp] theorem unsetDigest_key (s : State) : (unsetDigest s).key = s.key := by rw [unsetDigest]
@[simp] theorem unsetDigest_klen (s : State) : (unsetDigest s).klen = s.klen := by rw [unsetDigest]
@[simp] theorem unsetDigest_digits (s : State) :
    (unsetDigest s).digits = s.digits := by rw [unsetDigest]
@[simp] theorem unsetDigest_ctr (s : State) : (unsetDigest s).ctr = s.ctr := by rw [unsetDigest]
@[simp] theorem unsetDigest_clk (s : State) : (unsetDigest s).clk = s.clk := by rw [unsetDigest]
@[simp] theorem unsetDigest_tzoff (s : State) :
    (unsetDigest s).tzoff = s.tzoff := by rw [unsetDigest]
@[simp] theorem unsetDigest_ts (s : State) : (unsetDigest s).ts = s.ts := by rw [unsetDigest]
@[simp] theorem unsetDigest_tstep (s : State) :
    (unsetDigest s).tstep = s.tstep := by rw [unsetDigest]
@[simp] theorem unsetDigest_dkey (s : State) : (unsetDigest s).dkey = s.dkey := by rw [unsetDigest]
@[simp] theorem unsetDigest_esec (s : State) : (unsetDigest s).esec = s.esec := by rw [unsetDigest]
@[simp] theorem unsetDigest_msg (s : State) : (unsetDigest s).msg = s.msg := by rw [unsetDigest]
@[simp] theorem unsetDigest_bincode (s : State) :
    (unsetDigest s).bincode = s.bincode := by rw [unsetDigest]
@[simp] theorem unsetDigest_code (s : State) : (unsetDigest s).code = s.code := by rw [unsetDigest]
@[simp] theorem unsetDigest_out (s : State) : (unsetDigest s).out = s.out := by rw [unsetDigest]
@[simp] theorem unsetDigest_olen (s : State) : (unsetDigest s).olen = s.olen := by rw [unsetDigest]
@[simp] theorem unsetDigest_digest (s : State) :
    (unsetDigest s).digest = s.digest := by rw [unsetDigest]
@[simp] theorem unsetDigest_dvalid (s : State) :
    (unsetDigest s).dvalid = false := by rw [unsetDigest]
@[simp] theorem unsetDigest_cstep (s : State) :
    (unsetDigest s).cstep = s.cstep := by rw [unsetDigest]
@[simp] theorem unsetDigest_cvalid (s : State) :
    (unsetDigest s).cvalid = s.cvalid := by rw [unsetDigest]
@[simp] theorem unsetDigest_err (s : State) : (unsetDigest s).err = s.err := by rw [unsetDigest]
@[simp] theorem unsetDigest_faulted (s : State) :
    (unsetDigest s).faulted = s.faulted := by rw [unsetDigest]
@[simp] theorem unsetDigest_hmaccnt (s : State) :
    (unsetDigest s).hmaccnt = s.hmaccnt := by rw [unsetDigest]
@[simp] theorem unsetDigest_pending (s : State) :
    (unsetDigest s).pending = s.pending := by rw [unsetDigest]
@[simp] theorem unsetDigest_returned (s : State) :
    (unsetDigest s).returned = s.returned := by rw [unsetDigest]

/-! ### clearString -/

@[simp] theorem clearString_hash (s : State) : (clearString s).hash = s.hash := by rw [clearString]
@[simp] theorem clearString_key (s : State) : (clearString s).key = s.key := by rw [clearString]
@[simp] theorem clearString_klen (s : State) : (clearString s).klen = s.klen := by rw [clearString]
@[simp] theorem clearString_digits (s : State) :
    (clearString s).digits = s.digits := by rw [clearString]
@[simp] theorem clearString_ctr (s : State) : (clearString s).ctr = s.ctr := by rw [clearString]
@[simp] theorem clearString_clk (s : State) : (clearString s).clk = s.clk := by rw [clearString]
@[simp] theorem clearString_tzoff (s : State) :
    (clearString s).tzoff = s.tzoff := by rw [clearString]
@[simp] theorem clearString_ts (s : State) : (clearString s).ts = s.ts := by rw [clearString]
@[simp] theorem clearString_tstep (s : State) :
    (clearString s).tstep = s.tstep := by rw [clearString]
@[simp] theorem clearString_dkey (s : State) : (clearString s).dkey = s.dkey := by rw [clearString]
@[simp] theorem clearString_esec (s : State) : (clearString s).esec = s.esec := by rw [clearString]
@[simp] theorem clearString_msg (s : State) : (clearString s).msg = s.msg := by rw [clearString]
@[simp] theorem clearString_bincode (s : State) :
    (clearString s).bincode = s.bincode := by rw [clearString]
@[simp] theorem clearString_code (s : State) : (clearString s).code = s.code := by rw [clearString]
@[simp] theorem clearString_out (s : State) :
    (clearString s).out = Vector.replicate 11 0 := by rw [clearString]
@[simp] theorem clearString_olen (s : State) : (clearString s).olen = 0 := by rw [clearString]
@[simp] theorem clearString_digest (s : State) :
    (clearString s).digest = s.digest := by rw [clearString]
@[simp] theorem clearString_dvalid (s : State) :
    (clearString s).dvalid = s.dvalid := by rw [clearString]
@[simp] theorem clearString_cstep (s : State) :
    (clearString s).cstep = s.cstep := by rw [clearString]
@[simp] theorem clearString_cvalid (s : State) :
    (clearString s).cvalid = s.cvalid := by rw [clearString]
@[simp] theorem clearString_err (s : State) : (clearString s).err = s.err := by rw [clearString]
@[simp] theorem clearString_faulted (s : State) :
    (clearString s).faulted = s.faulted := by rw [clearString]
@[simp] theorem clearString_hmaccnt (s : State) :
    (clearString s).hmaccnt = s.hmaccnt := by rw [clearString]
@[simp] theorem clearString_pending (s : State) :
    (clearString s).pending = s.pending := by rw [clearString]
@[simp] theorem clearString_returned (s : State) :
    (clearString s).returned = s.returned := by rw [clearString]

/-! ### unsetCode -/

@[simp] theorem unsetCode_hash (s : State) : (unsetCode s).hash = s.hash := by rw [unsetCode]; simp
@[simp] theorem unsetCode_key (s : State) : (unsetCode s).key = s.key := by rw [unsetCode]; simp
@[simp] theorem unsetCode_klen (s : State) : (unsetCode s).klen = s.klen := by rw [unsetCode]; simp
@[simp] theorem unsetCode_digits (s : State) :
    (unsetCode s).digits = s.digits := by rw [unsetCode]; simp
@[simp] theorem unsetCode_ctr (s : State) : (unsetCode s).ctr = s.ctr := by rw [unsetCode]; simp
@[simp] theorem unsetCode_clk (s : State) : (unsetCode s).clk = s.clk := by rw [unsetCode]; simp
@[simp] theorem unsetCode_tzoff (s : State) :
    (unsetCode s).tzoff = s.tzoff := by rw [unsetCode]; simp
@[simp] theorem unsetCode_ts (s : State) : (unsetCode s).ts = s.ts := by rw [unsetCode]; simp
@[simp] theorem unsetCode_tstep (s : State) :
    (unsetCode s).tstep = s.tstep := by rw [unsetCode]; simp
@[simp] theorem unsetCode_dkey (s : State) : (unsetCode s).dkey = s.dkey := by rw [unsetCode]; simp
@[simp] theorem unsetCode_esec (s : State) : (unsetCode s).esec = s.esec := by rw [unsetCode]; simp
@[simp] theorem unsetCode_msg (s : State) : (unsetCode s).msg = s.msg := by rw [unsetCode]; simp
@[simp] theorem unsetCode_bincode (s : State) :
    (unsetCode s).bincode = s.bincode := by rw [unsetCode]; simp
@[simp] theorem unsetCode_code (s : State) : (unsetCode s).code = s.code := by rw [unsetCode]; simp
@[simp] theorem unsetCode_out (s : State) :
    (unsetCode s).out = Vector.replicate 11 0 := by rw [unsetCode]; simp
@[simp] theorem unsetCode_olen (s : State) : (unsetCode s).olen = 0 := by rw [unsetCode]; simp
@[simp] theorem unsetCode_digest (s : State) :
    (unsetCode s).digest = s.digest := by rw [unsetCode]; simp
@[simp] theorem unsetCode_dvalid (s : State) :
    (unsetCode s).dvalid = false := by rw [unsetCode]; simp
@[simp] theorem unsetCode_cstep (s : State) :
    (unsetCode s).cstep = s.cstep := by rw [unsetCode]; simp
@[simp] theorem unsetCode_cvalid (s : State) :
    (unsetCode s).cvalid = s.cvalid := by rw [unsetCode]; simp
@[simp] theorem unsetCode_err (s : State) : (unsetCode s).err = s.err := by rw [unsetCode]; simp
@[simp] theorem unsetCode_faulted (s : State) :
    (unsetCode s).faulted = s.faulted := by rw [unsetCode]; simp
@[simp] theorem unsetCode_hmaccnt (s : State) :
    (unsetCode s).hmaccnt = s.hmaccnt := by rw [unsetCode]; simp
@[simp] theorem unsetCode_pending (s : State) :
    (unsetCode s).pending = s.pending := by rw [unsetCode]; simp
@[simp] theorem unsetCode_returned (s : State) :
    (unsetCode s).returned = s.returned := by rw [unsetCode]; simp

/-! ### fail -/

@[simp] theorem fail_hash (s : State) (c : ErrorCode) : (fail c s).hash = s.hash := by rw [fail]
@[simp] theorem fail_key (s : State) (c : ErrorCode) : (fail c s).key = s.key := by rw [fail]
@[simp] theorem fail_klen (s : State) (c : ErrorCode) : (fail c s).klen = s.klen := by rw [fail]
@[simp] theorem fail_digits (s : State) (c : ErrorCode) :
    (fail c s).digits = s.digits := by rw [fail]
@[simp] theorem fail_ctr (s : State) (c : ErrorCode) : (fail c s).ctr = s.ctr := by rw [fail]
@[simp] theorem fail_clk (s : State) (c : ErrorCode) : (fail c s).clk = s.clk := by rw [fail]
@[simp] theorem fail_tzoff (s : State) (c : ErrorCode) : (fail c s).tzoff = s.tzoff := by rw [fail]
@[simp] theorem fail_ts (s : State) (c : ErrorCode) : (fail c s).ts = s.ts := by rw [fail]
@[simp] theorem fail_tstep (s : State) (c : ErrorCode) : (fail c s).tstep = s.tstep := by rw [fail]
@[simp] theorem fail_dkey (s : State) (c : ErrorCode) : (fail c s).dkey = s.dkey := by rw [fail]
@[simp] theorem fail_esec (s : State) (c : ErrorCode) : (fail c s).esec = s.esec := by rw [fail]
@[simp] theorem fail_msg (s : State) (c : ErrorCode) : (fail c s).msg = s.msg := by rw [fail]
@[simp] theorem fail_bincode (s : State) (c : ErrorCode) :
    (fail c s).bincode = s.bincode := by rw [fail]
@[simp] theorem fail_code (s : State) (c : ErrorCode) : (fail c s).code = s.code := by rw [fail]
@[simp] theorem fail_out (s : State) (c : ErrorCode) : (fail c s).out = s.out := by rw [fail]
@[simp] theorem fail_olen (s : State) (c : ErrorCode) : (fail c s).olen = s.olen := by rw [fail]
@[simp] theorem fail_digest (s : State) (c : ErrorCode) :
    (fail c s).digest = s.digest := by rw [fail]
@[simp] theorem fail_dvalid (s : State) (c : ErrorCode) :
    (fail c s).dvalid = s.dvalid := by rw [fail]
@[simp] theorem fail_cstep (s : State) (c : ErrorCode) : (fail c s).cstep = s.cstep := by rw [fail]
@[simp] theorem fail_cvalid (s : State) (c : ErrorCode) :
    (fail c s).cvalid = s.cvalid := by rw [fail]
@[simp] theorem fail_err (s : State) (c : ErrorCode) : (fail c s).err = c.byte := by rw [fail]
@[simp] theorem fail_faulted (s : State) (c : ErrorCode) : (fail c s).faulted = true := by rw [fail]
@[simp] theorem fail_hmaccnt (s : State) (c : ErrorCode) :
    (fail c s).hmaccnt = s.hmaccnt := by rw [fail]
@[simp] theorem fail_pending (s : State) (c : ErrorCode) :
    (fail c s).pending = s.pending := by rw [fail]
@[simp] theorem fail_returned (s : State) (c : ErrorCode) :
    (fail c s).returned = s.returned := by rw [fail]

/-! ### render -/

@[simp] theorem render_hash (s : State) (w : Fin 11) : (render w s).hash = s.hash := by rw [render]
@[simp] theorem render_key (s : State) (w : Fin 11) : (render w s).key = s.key := by rw [render]
@[simp] theorem render_klen (s : State) (w : Fin 11) : (render w s).klen = s.klen := by rw [render]
@[simp] theorem render_digits (s : State) (w : Fin 11) :
    (render w s).digits = s.digits := by rw [render]
@[simp] theorem render_ctr (s : State) (w : Fin 11) : (render w s).ctr = s.ctr := by rw [render]
@[simp] theorem render_clk (s : State) (w : Fin 11) : (render w s).clk = s.clk := by rw [render]
@[simp] theorem render_tzoff (s : State) (w : Fin 11) :
    (render w s).tzoff = s.tzoff := by rw [render]
@[simp] theorem render_ts (s : State) (w : Fin 11) : (render w s).ts = s.ts := by rw [render]
@[simp] theorem render_tstep (s : State) (w : Fin 11) :
    (render w s).tstep = s.tstep := by rw [render]
@[simp] theorem render_dkey (s : State) (w : Fin 11) : (render w s).dkey = s.dkey := by rw [render]
@[simp] theorem render_esec (s : State) (w : Fin 11) : (render w s).esec = s.esec := by rw [render]
@[simp] theorem render_msg (s : State) (w : Fin 11) : (render w s).msg = s.msg := by rw [render]
@[simp] theorem render_bincode (s : State) (w : Fin 11) :
    (render w s).bincode = s.bincode := by rw [render]
@[simp] theorem render_code (s : State) (w : Fin 11) : (render w s).code = s.code := by rw [render]
@[simp] theorem render_out (s : State) (w : Fin 11) :
    (render w s).out = Vector.ofFn fun i : Fin 11 => renderByte s.code w.val i.val := by rw [render]
@[simp] theorem render_olen (s : State) (w : Fin 11) : (render w s).olen = w := by rw [render]
@[simp] theorem render_digest (s : State) (w : Fin 11) :
    (render w s).digest = s.digest := by rw [render]
@[simp] theorem render_dvalid (s : State) (w : Fin 11) :
    (render w s).dvalid = s.dvalid := by rw [render]
@[simp] theorem render_cstep (s : State) (w : Fin 11) :
    (render w s).cstep = s.cstep := by rw [render]
@[simp] theorem render_cvalid (s : State) (w : Fin 11) :
    (render w s).cvalid = s.cvalid := by rw [render]
@[simp] theorem render_err (s : State) (w : Fin 11) : (render w s).err = s.err := by rw [render]
@[simp] theorem render_faulted (s : State) (w : Fin 11) :
    (render w s).faulted = s.faulted := by rw [render]
@[simp] theorem render_hmaccnt (s : State) (w : Fin 11) :
    (render w s).hmaccnt = s.hmaccnt := by rw [render]
@[simp] theorem render_pending (s : State) (w : Fin 11) :
    (render w s).pending = s.pending := by rw [render]
@[simp] theorem render_returned (s : State) (w : Fin 11) :
    (render w s).returned = s.returned := by rw [render]

/-! ### renderSentinel -/

@[simp] theorem renderSentinel_hash (s : State) :
    (renderSentinel s).hash = s.hash := by rw [renderSentinel]
@[simp] theorem renderSentinel_key (s : State) :
    (renderSentinel s).key = s.key := by rw [renderSentinel]
@[simp] theorem renderSentinel_klen (s : State) :
    (renderSentinel s).klen = s.klen := by rw [renderSentinel]
@[simp] theorem renderSentinel_digits (s : State) :
    (renderSentinel s).digits = s.digits := by rw [renderSentinel]
@[simp] theorem renderSentinel_ctr (s : State) :
    (renderSentinel s).ctr = s.ctr := by rw [renderSentinel]
@[simp] theorem renderSentinel_clk (s : State) :
    (renderSentinel s).clk = s.clk := by rw [renderSentinel]
@[simp] theorem renderSentinel_tzoff (s : State) :
    (renderSentinel s).tzoff = s.tzoff := by rw [renderSentinel]
@[simp] theorem renderSentinel_ts (s : State) :
    (renderSentinel s).ts = s.ts := by rw [renderSentinel]
@[simp] theorem renderSentinel_tstep (s : State) :
    (renderSentinel s).tstep = s.tstep := by rw [renderSentinel]
@[simp] theorem renderSentinel_dkey (s : State) :
    (renderSentinel s).dkey = s.dkey := by rw [renderSentinel]
@[simp] theorem renderSentinel_esec (s : State) :
    (renderSentinel s).esec = s.esec := by rw [renderSentinel]
@[simp] theorem renderSentinel_msg (s : State) :
    (renderSentinel s).msg = s.msg := by rw [renderSentinel]
@[simp] theorem renderSentinel_bincode (s : State) :
    (renderSentinel s).bincode = s.bincode := by rw [renderSentinel]
@[simp] theorem renderSentinel_code (s : State) :
    (renderSentinel s).code = s.code := by rw [renderSentinel]
@[simp] theorem renderSentinel_out (s : State) :
    (renderSentinel s).out = sentinel := by rw [renderSentinel]
@[simp] theorem renderSentinel_olen (s : State) :
    (renderSentinel s).olen = 6 := by rw [renderSentinel]
@[simp] theorem renderSentinel_digest (s : State) :
    (renderSentinel s).digest = s.digest := by rw [renderSentinel]
@[simp] theorem renderSentinel_dvalid (s : State) :
    (renderSentinel s).dvalid = s.dvalid := by rw [renderSentinel]
@[simp] theorem renderSentinel_cstep (s : State) :
    (renderSentinel s).cstep = s.cstep := by rw [renderSentinel]
@[simp] theorem renderSentinel_cvalid (s : State) :
    (renderSentinel s).cvalid = s.cvalid := by rw [renderSentinel]
@[simp] theorem renderSentinel_err (s : State) :
    (renderSentinel s).err = s.err := by rw [renderSentinel]
@[simp] theorem renderSentinel_faulted (s : State) :
    (renderSentinel s).faulted = s.faulted := by rw [renderSentinel]
@[simp] theorem renderSentinel_hmaccnt (s : State) :
    (renderSentinel s).hmaccnt = s.hmaccnt := by rw [renderSentinel]
@[simp] theorem renderSentinel_pending (s : State) :
    (renderSentinel s).pending = s.pending := by rw [renderSentinel]
@[simp] theorem renderSentinel_returned (s : State) :
    (renderSentinel s).returned = s.returned := by rw [renderSentinel]

/-! ### setBincode -/

@[simp] theorem setBincode_hash (s : State) : (setBincode s).hash = s.hash := by rw [setBincode]
@[simp] theorem setBincode_key (s : State) : (setBincode s).key = s.key := by rw [setBincode]
@[simp] theorem setBincode_klen (s : State) : (setBincode s).klen = s.klen := by rw [setBincode]
@[simp] theorem setBincode_digits (s : State) :
    (setBincode s).digits = s.digits := by rw [setBincode]
@[simp] theorem setBincode_ctr (s : State) : (setBincode s).ctr = s.ctr := by rw [setBincode]
@[simp] theorem setBincode_clk (s : State) : (setBincode s).clk = s.clk := by rw [setBincode]
@[simp] theorem setBincode_tzoff (s : State) : (setBincode s).tzoff = s.tzoff := by rw [setBincode]
@[simp] theorem setBincode_ts (s : State) : (setBincode s).ts = s.ts := by rw [setBincode]
@[simp] theorem setBincode_tstep (s : State) : (setBincode s).tstep = s.tstep := by rw [setBincode]
@[simp] theorem setBincode_dkey (s : State) : (setBincode s).dkey = s.dkey := by rw [setBincode]
@[simp] theorem setBincode_esec (s : State) : (setBincode s).esec = s.esec := by rw [setBincode]
@[simp] theorem setBincode_msg (s : State) : (setBincode s).msg = s.msg := by rw [setBincode]
@[simp] theorem setBincode_bincode (s : State) :
    (setBincode s).bincode = truncate s.digest := by rw [setBincode]
@[simp] theorem setBincode_code (s : State) : (setBincode s).code = s.code := by rw [setBincode]
@[simp] theorem setBincode_out (s : State) : (setBincode s).out = s.out := by rw [setBincode]
@[simp] theorem setBincode_olen (s : State) : (setBincode s).olen = s.olen := by rw [setBincode]
@[simp] theorem setBincode_digest (s : State) :
    (setBincode s).digest = s.digest := by rw [setBincode]
@[simp] theorem setBincode_dvalid (s : State) :
    (setBincode s).dvalid = s.dvalid := by rw [setBincode]
@[simp] theorem setBincode_cstep (s : State) : (setBincode s).cstep = s.cstep := by rw [setBincode]
@[simp] theorem setBincode_cvalid (s : State) :
    (setBincode s).cvalid = s.cvalid := by rw [setBincode]
@[simp] theorem setBincode_err (s : State) : (setBincode s).err = s.err := by rw [setBincode]
@[simp] theorem setBincode_faulted (s : State) :
    (setBincode s).faulted = s.faulted := by rw [setBincode]
@[simp] theorem setBincode_hmaccnt (s : State) :
    (setBincode s).hmaccnt = s.hmaccnt := by rw [setBincode]
@[simp] theorem setBincode_pending (s : State) :
    (setBincode s).pending = s.pending := by rw [setBincode]
@[simp] theorem setBincode_returned (s : State) :
    (setBincode s).returned = s.returned := by rw [setBincode]

/-! ### setCode -/

@[simp] theorem setCode_hash (s : State) (d : Nat) : (setCode d s).hash = s.hash := by rw [setCode]
@[simp] theorem setCode_key (s : State) (d : Nat) : (setCode d s).key = s.key := by rw [setCode]
@[simp] theorem setCode_klen (s : State) (d : Nat) : (setCode d s).klen = s.klen := by rw [setCode]
@[simp] theorem setCode_digits (s : State) (d : Nat) :
    (setCode d s).digits = s.digits := by rw [setCode]
@[simp] theorem setCode_ctr (s : State) (d : Nat) : (setCode d s).ctr = s.ctr := by rw [setCode]
@[simp] theorem setCode_clk (s : State) (d : Nat) : (setCode d s).clk = s.clk := by rw [setCode]
@[simp] theorem setCode_tzoff (s : State) (d : Nat) :
    (setCode d s).tzoff = s.tzoff := by rw [setCode]
@[simp] theorem setCode_ts (s : State) (d : Nat) : (setCode d s).ts = s.ts := by rw [setCode]
@[simp] theorem setCode_tstep (s : State) (d : Nat) :
    (setCode d s).tstep = s.tstep := by rw [setCode]
@[simp] theorem setCode_dkey (s : State) (d : Nat) : (setCode d s).dkey = s.dkey := by rw [setCode]
@[simp] theorem setCode_esec (s : State) (d : Nat) : (setCode d s).esec = s.esec := by rw [setCode]
@[simp] theorem setCode_msg (s : State) (d : Nat) : (setCode d s).msg = s.msg := by rw [setCode]
@[simp] theorem setCode_bincode (s : State) (d : Nat) :
    (setCode d s).bincode = s.bincode := by rw [setCode]
@[simp] theorem setCode_code (s : State) (d : Nat) :
    (setCode d s).code = BitVec.ofNat 32 (s.bincode.toNat % 10 ^ d) := by rw [setCode]
@[simp] theorem setCode_out (s : State) (d : Nat) : (setCode d s).out = s.out := by rw [setCode]
@[simp] theorem setCode_olen (s : State) (d : Nat) : (setCode d s).olen = s.olen := by rw [setCode]
@[simp] theorem setCode_digest (s : State) (d : Nat) :
    (setCode d s).digest = s.digest := by rw [setCode]
@[simp] theorem setCode_dvalid (s : State) (d : Nat) :
    (setCode d s).dvalid = s.dvalid := by rw [setCode]
@[simp] theorem setCode_cstep (s : State) (d : Nat) :
    (setCode d s).cstep = s.cstep := by rw [setCode]
@[simp] theorem setCode_cvalid (s : State) (d : Nat) :
    (setCode d s).cvalid = s.cvalid := by rw [setCode]
@[simp] theorem setCode_err (s : State) (d : Nat) : (setCode d s).err = s.err := by rw [setCode]
@[simp] theorem setCode_faulted (s : State) (d : Nat) :
    (setCode d s).faulted = s.faulted := by rw [setCode]
@[simp] theorem setCode_hmaccnt (s : State) (d : Nat) :
    (setCode d s).hmaccnt = s.hmaccnt := by rw [setCode]
@[simp] theorem setCode_pending (s : State) (d : Nat) :
    (setCode d s).pending = s.pending := by rw [setCode]
@[simp] theorem setCode_returned (s : State) (d : Nat) :
    (setCode d s).returned = s.returned := by rw [setCode]

/-! ### sha1Init -/

@[simp] theorem sha1Init_hash (s : State) : (sha1Init s).hash = hashInit s.hash := by rw [sha1Init]
@[simp] theorem sha1Init_key (s : State) : (sha1Init s).key = s.key := by rw [sha1Init]
@[simp] theorem sha1Init_klen (s : State) : (sha1Init s).klen = s.klen := by rw [sha1Init]
@[simp] theorem sha1Init_digits (s : State) : (sha1Init s).digits = s.digits := by rw [sha1Init]
@[simp] theorem sha1Init_ctr (s : State) : (sha1Init s).ctr = s.ctr := by rw [sha1Init]
@[simp] theorem sha1Init_clk (s : State) : (sha1Init s).clk = s.clk := by rw [sha1Init]
@[simp] theorem sha1Init_tzoff (s : State) : (sha1Init s).tzoff = s.tzoff := by rw [sha1Init]
@[simp] theorem sha1Init_ts (s : State) : (sha1Init s).ts = s.ts := by rw [sha1Init]
@[simp] theorem sha1Init_tstep (s : State) : (sha1Init s).tstep = s.tstep := by rw [sha1Init]
@[simp] theorem sha1Init_dkey (s : State) : (sha1Init s).dkey = s.dkey := by rw [sha1Init]
@[simp] theorem sha1Init_esec (s : State) : (sha1Init s).esec = s.esec := by rw [sha1Init]
@[simp] theorem sha1Init_msg (s : State) : (sha1Init s).msg = s.msg := by rw [sha1Init]
@[simp] theorem sha1Init_bincode (s : State) : (sha1Init s).bincode = s.bincode := by rw [sha1Init]
@[simp] theorem sha1Init_code (s : State) : (sha1Init s).code = s.code := by rw [sha1Init]
@[simp] theorem sha1Init_out (s : State) : (sha1Init s).out = s.out := by rw [sha1Init]
@[simp] theorem sha1Init_olen (s : State) : (sha1Init s).olen = s.olen := by rw [sha1Init]
@[simp] theorem sha1Init_digest (s : State) : (sha1Init s).digest = s.digest := by rw [sha1Init]
@[simp] theorem sha1Init_dvalid (s : State) : (sha1Init s).dvalid = false := by rw [sha1Init]
@[simp] theorem sha1Init_cstep (s : State) : (sha1Init s).cstep = s.cstep := by rw [sha1Init]
@[simp] theorem sha1Init_cvalid (s : State) : (sha1Init s).cvalid = s.cvalid := by rw [sha1Init]
@[simp] theorem sha1Init_err (s : State) : (sha1Init s).err = s.err := by rw [sha1Init]
@[simp] theorem sha1Init_faulted (s : State) : (sha1Init s).faulted = s.faulted := by rw [sha1Init]
@[simp] theorem sha1Init_hmaccnt (s : State) : (sha1Init s).hmaccnt = s.hmaccnt := by rw [sha1Init]
@[simp] theorem sha1Init_pending (s : State) : (sha1Init s).pending = s.pending := by rw [sha1Init]
@[simp] theorem sha1Init_returned (s : State) :
    (sha1Init s).returned = s.returned := by rw [sha1Init]

/-! ### sha1Update -/

@[simp] theorem sha1Update_hash (s : State) (bs : List Byte) :
    (sha1Update bs s).hash = hashUpdate s.hash bs := by rw [sha1Update]
@[simp] theorem sha1Update_key (s : State) (bs : List Byte) :
    (sha1Update bs s).key = s.key := by rw [sha1Update]
@[simp] theorem sha1Update_klen (s : State) (bs : List Byte) :
    (sha1Update bs s).klen = s.klen := by rw [sha1Update]
@[simp] theorem sha1Update_digits (s : State) (bs : List Byte) :
    (sha1Update bs s).digits = s.digits := by rw [sha1Update]
@[simp] theorem sha1Update_ctr (s : State) (bs : List Byte) :
    (sha1Update bs s).ctr = s.ctr := by rw [sha1Update]
@[simp] theorem sha1Update_clk (s : State) (bs : List Byte) :
    (sha1Update bs s).clk = s.clk := by rw [sha1Update]
@[simp] theorem sha1Update_tzoff (s : State) (bs : List Byte) :
    (sha1Update bs s).tzoff = s.tzoff := by rw [sha1Update]
@[simp] theorem sha1Update_ts (s : State) (bs : List Byte) :
    (sha1Update bs s).ts = s.ts := by rw [sha1Update]
@[simp] theorem sha1Update_tstep (s : State) (bs : List Byte) :
    (sha1Update bs s).tstep = s.tstep := by rw [sha1Update]
@[simp] theorem sha1Update_dkey (s : State) (bs : List Byte) :
    (sha1Update bs s).dkey = s.dkey := by rw [sha1Update]
@[simp] theorem sha1Update_esec (s : State) (bs : List Byte) :
    (sha1Update bs s).esec = s.esec := by rw [sha1Update]
@[simp] theorem sha1Update_msg (s : State) (bs : List Byte) :
    (sha1Update bs s).msg = s.msg := by rw [sha1Update]
@[simp] theorem sha1Update_bincode (s : State) (bs : List Byte) :
    (sha1Update bs s).bincode = s.bincode := by rw [sha1Update]
@[simp] theorem sha1Update_code (s : State) (bs : List Byte) :
    (sha1Update bs s).code = s.code := by rw [sha1Update]
@[simp] theorem sha1Update_out (s : State) (bs : List Byte) :
    (sha1Update bs s).out = s.out := by rw [sha1Update]
@[simp] theorem sha1Update_olen (s : State) (bs : List Byte) :
    (sha1Update bs s).olen = s.olen := by rw [sha1Update]
@[simp] theorem sha1Update_digest (s : State) (bs : List Byte) :
    (sha1Update bs s).digest = s.digest := by rw [sha1Update]
@[simp] theorem sha1Update_dvalid (s : State) (bs : List Byte) :
    (sha1Update bs s).dvalid = s.dvalid := by rw [sha1Update]
@[simp] theorem sha1Update_cstep (s : State) (bs : List Byte) :
    (sha1Update bs s).cstep = s.cstep := by rw [sha1Update]
@[simp] theorem sha1Update_cvalid (s : State) (bs : List Byte) :
    (sha1Update bs s).cvalid = s.cvalid := by rw [sha1Update]
@[simp] theorem sha1Update_err (s : State) (bs : List Byte) :
    (sha1Update bs s).err = s.err := by rw [sha1Update]
@[simp] theorem sha1Update_faulted (s : State) (bs : List Byte) :
    (sha1Update bs s).faulted = s.faulted := by rw [sha1Update]
@[simp] theorem sha1Update_hmaccnt (s : State) (bs : List Byte) :
    (sha1Update bs s).hmaccnt = s.hmaccnt := by rw [sha1Update]
@[simp] theorem sha1Update_pending (s : State) (bs : List Byte) :
    (sha1Update bs s).pending = s.pending := by rw [sha1Update]
@[simp] theorem sha1Update_returned (s : State) (bs : List Byte) :
    (sha1Update bs s).returned = s.returned := by rw [sha1Update]

/-! ### finishHash -/

@[simp] theorem finishHash_hash (s : State) :
    (finishHash s).hash = hashFinal s.hash := by rw [finishHash]
@[simp] theorem finishHash_key (s : State) : (finishHash s).key = s.key := by rw [finishHash]
@[simp] theorem finishHash_klen (s : State) : (finishHash s).klen = s.klen := by rw [finishHash]
@[simp] theorem finishHash_digits (s : State) :
    (finishHash s).digits = s.digits := by rw [finishHash]
@[simp] theorem finishHash_ctr (s : State) : (finishHash s).ctr = s.ctr := by rw [finishHash]
@[simp] theorem finishHash_clk (s : State) : (finishHash s).clk = s.clk := by rw [finishHash]
@[simp] theorem finishHash_tzoff (s : State) : (finishHash s).tzoff = s.tzoff := by rw [finishHash]
@[simp] theorem finishHash_ts (s : State) : (finishHash s).ts = s.ts := by rw [finishHash]
@[simp] theorem finishHash_tstep (s : State) : (finishHash s).tstep = s.tstep := by rw [finishHash]
@[simp] theorem finishHash_dkey (s : State) : (finishHash s).dkey = s.dkey := by rw [finishHash]
@[simp] theorem finishHash_esec (s : State) : (finishHash s).esec = s.esec := by rw [finishHash]
@[simp] theorem finishHash_msg (s : State) : (finishHash s).msg = s.msg := by rw [finishHash]
@[simp] theorem finishHash_bincode (s : State) :
    (finishHash s).bincode = s.bincode := by rw [finishHash]
@[simp] theorem finishHash_code (s : State) : (finishHash s).code = s.code := by rw [finishHash]
@[simp] theorem finishHash_out (s : State) : (finishHash s).out = s.out := by rw [finishHash]
@[simp] theorem finishHash_olen (s : State) : (finishHash s).olen = s.olen := by rw [finishHash]
@[simp] theorem finishHash_digest (s : State) :
    (finishHash s).digest = s.digest := by rw [finishHash]
@[simp] theorem finishHash_dvalid (s : State) :
    (finishHash s).dvalid = s.dvalid := by rw [finishHash]
@[simp] theorem finishHash_cstep (s : State) : (finishHash s).cstep = s.cstep := by rw [finishHash]
@[simp] theorem finishHash_cvalid (s : State) :
    (finishHash s).cvalid = s.cvalid := by rw [finishHash]
@[simp] theorem finishHash_err (s : State) : (finishHash s).err = s.err := by rw [finishHash]
@[simp] theorem finishHash_faulted (s : State) :
    (finishHash s).faulted = s.faulted := by rw [finishHash]
@[simp] theorem finishHash_hmaccnt (s : State) :
    (finishHash s).hmaccnt = s.hmaccnt := by rw [finishHash]
@[simp] theorem finishHash_pending (s : State) :
    (finishHash s).pending = s.pending := by rw [finishHash]
@[simp] theorem finishHash_returned (s : State) :
    (finishHash s).returned = s.returned := by rw [finishHash]

/-! ### emitDigest -/

@[simp] theorem emitDigest_hash (s : State) : (emitDigest s).hash = s.hash := by rw [emitDigest]
@[simp] theorem emitDigest_key (s : State) : (emitDigest s).key = s.key := by rw [emitDigest]
@[simp] theorem emitDigest_klen (s : State) : (emitDigest s).klen = s.klen := by rw [emitDigest]
@[simp] theorem emitDigest_digits (s : State) :
    (emitDigest s).digits = s.digits := by rw [emitDigest]
@[simp] theorem emitDigest_ctr (s : State) : (emitDigest s).ctr = s.ctr := by rw [emitDigest]
@[simp] theorem emitDigest_clk (s : State) : (emitDigest s).clk = s.clk := by rw [emitDigest]
@[simp] theorem emitDigest_tzoff (s : State) : (emitDigest s).tzoff = s.tzoff := by rw [emitDigest]
@[simp] theorem emitDigest_ts (s : State) : (emitDigest s).ts = s.ts := by rw [emitDigest]
@[simp] theorem emitDigest_tstep (s : State) : (emitDigest s).tstep = s.tstep := by rw [emitDigest]
@[simp] theorem emitDigest_dkey (s : State) : (emitDigest s).dkey = s.dkey := by rw [emitDigest]
@[simp] theorem emitDigest_esec (s : State) : (emitDigest s).esec = s.esec := by rw [emitDigest]
@[simp] theorem emitDigest_msg (s : State) : (emitDigest s).msg = s.msg := by rw [emitDigest]
@[simp] theorem emitDigest_bincode (s : State) :
    (emitDigest s).bincode = s.bincode := by rw [emitDigest]
@[simp] theorem emitDigest_code (s : State) : (emitDigest s).code = s.code := by rw [emitDigest]
@[simp] theorem emitDigest_out (s : State) : (emitDigest s).out = s.out := by rw [emitDigest]
@[simp] theorem emitDigest_olen (s : State) : (emitDigest s).olen = s.olen := by rw [emitDigest]
@[simp] theorem emitDigest_digest (s : State) :
    (emitDigest s).digest = digestOf s.hash := by rw [emitDigest]
@[simp] theorem emitDigest_dvalid (s : State) : (emitDigest s).dvalid = true := by rw [emitDigest]
@[simp] theorem emitDigest_cstep (s : State) : (emitDigest s).cstep = s.cstep := by rw [emitDigest]
@[simp] theorem emitDigest_cvalid (s : State) :
    (emitDigest s).cvalid = s.cvalid := by rw [emitDigest]
@[simp] theorem emitDigest_err (s : State) : (emitDigest s).err = s.err := by rw [emitDigest]
@[simp] theorem emitDigest_faulted (s : State) :
    (emitDigest s).faulted = s.faulted := by rw [emitDigest]
@[simp] theorem emitDigest_hmaccnt (s : State) :
    (emitDigest s).hmaccnt = s.hmaccnt := by rw [emitDigest]
@[simp] theorem emitDigest_pending (s : State) :
    (emitDigest s).pending = s.pending := by rw [emitDigest]
@[simp] theorem emitDigest_returned (s : State) :
    (emitDigest s).returned = s.returned := by rw [emitDigest]

/-! ### sha1Final -/

@[simp] theorem sha1Final_hash (s : State) :
    (sha1Final s).hash = hashFinal s.hash := by rw [sha1Final]; simp
@[simp] theorem sha1Final_key (s : State) : (sha1Final s).key = s.key := by rw [sha1Final]; simp
@[simp] theorem sha1Final_klen (s : State) : (sha1Final s).klen = s.klen := by rw [sha1Final]; simp
@[simp] theorem sha1Final_digits (s : State) :
    (sha1Final s).digits = s.digits := by rw [sha1Final]; simp
@[simp] theorem sha1Final_ctr (s : State) : (sha1Final s).ctr = s.ctr := by rw [sha1Final]; simp
@[simp] theorem sha1Final_clk (s : State) : (sha1Final s).clk = s.clk := by rw [sha1Final]; simp
@[simp] theorem sha1Final_tzoff (s : State) :
    (sha1Final s).tzoff = s.tzoff := by rw [sha1Final]; simp
@[simp] theorem sha1Final_ts (s : State) : (sha1Final s).ts = s.ts := by rw [sha1Final]; simp
@[simp] theorem sha1Final_tstep (s : State) :
    (sha1Final s).tstep = s.tstep := by rw [sha1Final]; simp
@[simp] theorem sha1Final_dkey (s : State) : (sha1Final s).dkey = s.dkey := by rw [sha1Final]; simp
@[simp] theorem sha1Final_esec (s : State) : (sha1Final s).esec = s.esec := by rw [sha1Final]; simp
@[simp] theorem sha1Final_msg (s : State) : (sha1Final s).msg = s.msg := by rw [sha1Final]; simp
@[simp] theorem sha1Final_bincode (s : State) :
    (sha1Final s).bincode = s.bincode := by rw [sha1Final]; simp
@[simp] theorem sha1Final_code (s : State) : (sha1Final s).code = s.code := by rw [sha1Final]; simp
@[simp] theorem sha1Final_out (s : State) : (sha1Final s).out = s.out := by rw [sha1Final]; simp
@[simp] theorem sha1Final_olen (s : State) : (sha1Final s).olen = s.olen := by rw [sha1Final]; simp
@[simp] theorem sha1Final_digest (s : State) :
    (sha1Final s).digest = digestOf (hashFinal s.hash) := by rw [sha1Final]; simp
@[simp] theorem sha1Final_dvalid (s : State) :
    (sha1Final s).dvalid = true := by rw [sha1Final]; simp
@[simp] theorem sha1Final_cstep (s : State) :
    (sha1Final s).cstep = s.cstep := by rw [sha1Final]; simp
@[simp] theorem sha1Final_cvalid (s : State) :
    (sha1Final s).cvalid = s.cvalid := by rw [sha1Final]; simp
@[simp] theorem sha1Final_err (s : State) : (sha1Final s).err = s.err := by rw [sha1Final]; simp
@[simp] theorem sha1Final_faulted (s : State) :
    (sha1Final s).faulted = s.faulted := by rw [sha1Final]; simp
@[simp] theorem sha1Final_hmaccnt (s : State) :
    (sha1Final s).hmaccnt = s.hmaccnt := by rw [sha1Final]; simp
@[simp] theorem sha1Final_pending (s : State) :
    (sha1Final s).pending = s.pending := by rw [sha1Final]; simp
@[simp] theorem sha1Final_returned (s : State) :
    (sha1Final s).returned = s.returned := by rw [sha1Final]; simp

/-! ### sha1Run -/

@[simp] theorem sha1Run_hash (s : State) (m : List Byte) :
    (sha1Run m s).hash = hashFinal (hashUpdate (hashInit s.hash) m) := by rw [sha1Run]; simp
@[simp] theorem sha1Run_key (s : State) (m : List Byte) :
    (sha1Run m s).key = s.key := by rw [sha1Run]; simp
@[simp] theorem sha1Run_klen (s : State) (m : List Byte) :
    (sha1Run m s).klen = s.klen := by rw [sha1Run]; simp
@[simp] theorem sha1Run_digits (s : State) (m : List Byte) :
    (sha1Run m s).digits = s.digits := by rw [sha1Run]; simp
@[simp] theorem sha1Run_ctr (s : State) (m : List Byte) :
    (sha1Run m s).ctr = s.ctr := by rw [sha1Run]; simp
@[simp] theorem sha1Run_clk (s : State) (m : List Byte) :
    (sha1Run m s).clk = s.clk := by rw [sha1Run]; simp
@[simp] theorem sha1Run_tzoff (s : State) (m : List Byte) :
    (sha1Run m s).tzoff = s.tzoff := by rw [sha1Run]; simp
@[simp] theorem sha1Run_ts (s : State) (m : List Byte) :
    (sha1Run m s).ts = s.ts := by rw [sha1Run]; simp
@[simp] theorem sha1Run_tstep (s : State) (m : List Byte) :
    (sha1Run m s).tstep = s.tstep := by rw [sha1Run]; simp
@[simp] theorem sha1Run_dkey (s : State) (m : List Byte) :
    (sha1Run m s).dkey = s.dkey := by rw [sha1Run]; simp
@[simp] theorem sha1Run_esec (s : State) (m : List Byte) :
    (sha1Run m s).esec = s.esec := by rw [sha1Run]; simp
@[simp] theorem sha1Run_msg (s : State) (m : List Byte) :
    (sha1Run m s).msg = s.msg := by rw [sha1Run]; simp
@[simp] theorem sha1Run_bincode (s : State) (m : List Byte) :
    (sha1Run m s).bincode = s.bincode := by rw [sha1Run]; simp
@[simp] theorem sha1Run_code (s : State) (m : List Byte) :
    (sha1Run m s).code = s.code := by rw [sha1Run]; simp
@[simp] theorem sha1Run_out (s : State) (m : List Byte) :
    (sha1Run m s).out = s.out := by rw [sha1Run]; simp
@[simp] theorem sha1Run_olen (s : State) (m : List Byte) :
    (sha1Run m s).olen = s.olen := by rw [sha1Run]; simp
@[simp] theorem sha1Run_digest (s : State) (m : List Byte) :
    (sha1Run m s).digest = digestOf (hashFinal (hashUpdate (hashInit s.hash) m)) := by rw [sha1Run]; simp
@[simp] theorem sha1Run_dvalid (s : State) (m : List Byte) :
    (sha1Run m s).dvalid = true := by rw [sha1Run]; simp
@[simp] theorem sha1Run_cstep (s : State) (m : List Byte) :
    (sha1Run m s).cstep = s.cstep := by rw [sha1Run]; simp
@[simp] theorem sha1Run_cvalid (s : State) (m : List Byte) :
    (sha1Run m s).cvalid = s.cvalid := by rw [sha1Run]; simp
@[simp] theorem sha1Run_err (s : State) (m : List Byte) :
    (sha1Run m s).err = s.err := by rw [sha1Run]; simp
@[simp] theorem sha1Run_faulted (s : State) (m : List Byte) :
    (sha1Run m s).faulted = s.faulted := by rw [sha1Run]; simp
@[simp] theorem sha1Run_hmaccnt (s : State) (m : List Byte) :
    (sha1Run m s).hmaccnt = s.hmaccnt := by rw [sha1Run]; simp
@[simp] theorem sha1Run_pending (s : State) (m : List Byte) :
    (sha1Run m s).pending = s.pending := by rw [sha1Run]; simp
@[simp] theorem sha1Run_returned (s : State) (m : List Byte) :
    (sha1Run m s).returned = s.returned := by rw [sha1Run]; simp

/-! ### hmacInner -/

@[simp] theorem hmacInner_hash (s : State) (m : List Byte) :
    (hmacInner m s).hash = hashFinal (hashUpdate (hashInit s.hash) (ipad s ++ m)) := by rw [hmacInner]; simp
@[simp] theorem hmacInner_key (s : State) (m : List Byte) :
    (hmacInner m s).key = s.key := by rw [hmacInner]; simp
@[simp] theorem hmacInner_klen (s : State) (m : List Byte) :
    (hmacInner m s).klen = s.klen := by rw [hmacInner]; simp
@[simp] theorem hmacInner_digits (s : State) (m : List Byte) :
    (hmacInner m s).digits = s.digits := by rw [hmacInner]; simp
@[simp] theorem hmacInner_ctr (s : State) (m : List Byte) :
    (hmacInner m s).ctr = s.ctr := by rw [hmacInner]; simp
@[simp] theorem hmacInner_clk (s : State) (m : List Byte) :
    (hmacInner m s).clk = s.clk := by rw [hmacInner]; simp
@[simp] theorem hmacInner_tzoff (s : State) (m : List Byte) :
    (hmacInner m s).tzoff = s.tzoff := by rw [hmacInner]; simp
@[simp] theorem hmacInner_ts (s : State) (m : List Byte) :
    (hmacInner m s).ts = s.ts := by rw [hmacInner]; simp
@[simp] theorem hmacInner_tstep (s : State) (m : List Byte) :
    (hmacInner m s).tstep = s.tstep := by rw [hmacInner]; simp
@[simp] theorem hmacInner_dkey (s : State) (m : List Byte) :
    (hmacInner m s).dkey = s.dkey := by rw [hmacInner]; simp
@[simp] theorem hmacInner_esec (s : State) (m : List Byte) :
    (hmacInner m s).esec = s.esec := by rw [hmacInner]; simp
@[simp] theorem hmacInner_msg (s : State) (m : List Byte) :
    (hmacInner m s).msg = s.msg := by rw [hmacInner]; simp
@[simp] theorem hmacInner_bincode (s : State) (m : List Byte) :
    (hmacInner m s).bincode = s.bincode := by rw [hmacInner]; simp
@[simp] theorem hmacInner_code (s : State) (m : List Byte) :
    (hmacInner m s).code = s.code := by rw [hmacInner]; simp
@[simp] theorem hmacInner_out (s : State) (m : List Byte) :
    (hmacInner m s).out = s.out := by rw [hmacInner]; simp
@[simp] theorem hmacInner_olen (s : State) (m : List Byte) :
    (hmacInner m s).olen = s.olen := by rw [hmacInner]; simp
@[simp] theorem hmacInner_digest (s : State) (m : List Byte) :
    (hmacInner m s).digest = digestOf (hashFinal (hashUpdate (hashInit s.hash) (ipad s ++ m))) := by rw [hmacInner]; simp
@[simp] theorem hmacInner_dvalid (s : State) (m : List Byte) :
    (hmacInner m s).dvalid = true := by rw [hmacInner]; simp
@[simp] theorem hmacInner_cstep (s : State) (m : List Byte) :
    (hmacInner m s).cstep = s.cstep := by rw [hmacInner]; simp
@[simp] theorem hmacInner_cvalid (s : State) (m : List Byte) :
    (hmacInner m s).cvalid = s.cvalid := by rw [hmacInner]; simp
@[simp] theorem hmacInner_err (s : State) (m : List Byte) :
    (hmacInner m s).err = s.err := by rw [hmacInner]; simp
@[simp] theorem hmacInner_faulted (s : State) (m : List Byte) :
    (hmacInner m s).faulted = s.faulted := by rw [hmacInner]; simp
@[simp] theorem hmacInner_hmaccnt (s : State) (m : List Byte) :
    (hmacInner m s).hmaccnt = s.hmaccnt := by rw [hmacInner]; simp
@[simp] theorem hmacInner_pending (s : State) (m : List Byte) :
    (hmacInner m s).pending = s.pending := by rw [hmacInner]; simp
@[simp] theorem hmacInner_returned (s : State) (m : List Byte) :
    (hmacInner m s).returned = s.returned := by rw [hmacInner]; simp

/-! ### countHmac -/

@[simp] theorem countHmac_hash (s : State) : (countHmac s).hash = s.hash := by rw [countHmac]
@[simp] theorem countHmac_key (s : State) : (countHmac s).key = s.key := by rw [countHmac]
@[simp] theorem countHmac_klen (s : State) : (countHmac s).klen = s.klen := by rw [countHmac]
@[simp] theorem countHmac_digits (s : State) : (countHmac s).digits = s.digits := by rw [countHmac]
@[simp] theorem countHmac_ctr (s : State) : (countHmac s).ctr = s.ctr := by rw [countHmac]
@[simp] theorem countHmac_clk (s : State) : (countHmac s).clk = s.clk := by rw [countHmac]
@[simp] theorem countHmac_tzoff (s : State) : (countHmac s).tzoff = s.tzoff := by rw [countHmac]
@[simp] theorem countHmac_ts (s : State) : (countHmac s).ts = s.ts := by rw [countHmac]
@[simp] theorem countHmac_tstep (s : State) : (countHmac s).tstep = s.tstep := by rw [countHmac]
@[simp] theorem countHmac_dkey (s : State) : (countHmac s).dkey = s.dkey := by rw [countHmac]
@[simp] theorem countHmac_esec (s : State) : (countHmac s).esec = s.esec := by rw [countHmac]
@[simp] theorem countHmac_msg (s : State) : (countHmac s).msg = s.msg := by rw [countHmac]
@[simp] theorem countHmac_bincode (s : State) :
    (countHmac s).bincode = s.bincode := by rw [countHmac]
@[simp] theorem countHmac_code (s : State) : (countHmac s).code = s.code := by rw [countHmac]
@[simp] theorem countHmac_out (s : State) : (countHmac s).out = s.out := by rw [countHmac]
@[simp] theorem countHmac_olen (s : State) : (countHmac s).olen = s.olen := by rw [countHmac]
@[simp] theorem countHmac_digest (s : State) : (countHmac s).digest = s.digest := by rw [countHmac]
@[simp] theorem countHmac_dvalid (s : State) : (countHmac s).dvalid = s.dvalid := by rw [countHmac]
@[simp] theorem countHmac_cstep (s : State) : (countHmac s).cstep = s.cstep := by rw [countHmac]
@[simp] theorem countHmac_cvalid (s : State) : (countHmac s).cvalid = s.cvalid := by rw [countHmac]
@[simp] theorem countHmac_err (s : State) : (countHmac s).err = s.err := by rw [countHmac]
@[simp] theorem countHmac_faulted (s : State) :
    (countHmac s).faulted = s.faulted := by rw [countHmac]
@[simp] theorem countHmac_hmaccnt (s : State) :
    (countHmac s).hmaccnt = s.hmaccnt + 1 := by rw [countHmac]
@[simp] theorem countHmac_pending (s : State) :
    (countHmac s).pending = s.pending := by rw [countHmac]
@[simp] theorem countHmac_returned (s : State) :
    (countHmac s).returned = s.returned := by rw [countHmac]

/-! ### hmac -/

@[simp] theorem hmac_key (s : State) (m : List Byte) : (hmac m s).key = s.key := by rw [hmac]; simp
@[simp] theorem hmac_klen (s : State) (m : List Byte) :
    (hmac m s).klen = s.klen := by rw [hmac]; simp
@[simp] theorem hmac_digits (s : State) (m : List Byte) :
    (hmac m s).digits = s.digits := by rw [hmac]; simp
@[simp] theorem hmac_ctr (s : State) (m : List Byte) : (hmac m s).ctr = s.ctr := by rw [hmac]; simp
@[simp] theorem hmac_clk (s : State) (m : List Byte) : (hmac m s).clk = s.clk := by rw [hmac]; simp
@[simp] theorem hmac_tzoff (s : State) (m : List Byte) :
    (hmac m s).tzoff = s.tzoff := by rw [hmac]; simp
@[simp] theorem hmac_ts (s : State) (m : List Byte) : (hmac m s).ts = s.ts := by rw [hmac]; simp
@[simp] theorem hmac_tstep (s : State) (m : List Byte) :
    (hmac m s).tstep = s.tstep := by rw [hmac]; simp
@[simp] theorem hmac_dkey (s : State) (m : List Byte) :
    (hmac m s).dkey = s.dkey := by rw [hmac]; simp
@[simp] theorem hmac_esec (s : State) (m : List Byte) :
    (hmac m s).esec = s.esec := by rw [hmac]; simp
@[simp] theorem hmac_msg (s : State) (m : List Byte) : (hmac m s).msg = s.msg := by rw [hmac]; simp
@[simp] theorem hmac_bincode (s : State) (m : List Byte) :
    (hmac m s).bincode = s.bincode := by rw [hmac]; simp
@[simp] theorem hmac_code (s : State) (m : List Byte) :
    (hmac m s).code = s.code := by rw [hmac]; simp
@[simp] theorem hmac_out (s : State) (m : List Byte) : (hmac m s).out = s.out := by rw [hmac]; simp
@[simp] theorem hmac_olen (s : State) (m : List Byte) :
    (hmac m s).olen = s.olen := by rw [hmac]; simp
@[simp] theorem hmac_dvalid (s : State) (m : List Byte) :
    (hmac m s).dvalid = true := by rw [hmac]; simp
@[simp] theorem hmac_cstep (s : State) (m : List Byte) :
    (hmac m s).cstep = s.cstep := by rw [hmac]; simp
@[simp] theorem hmac_cvalid (s : State) (m : List Byte) :
    (hmac m s).cvalid = s.cvalid := by rw [hmac]; simp
@[simp] theorem hmac_err (s : State) (m : List Byte) : (hmac m s).err = s.err := by rw [hmac]; simp
@[simp] theorem hmac_faulted (s : State) (m : List Byte) :
    (hmac m s).faulted = s.faulted := by rw [hmac]; simp
@[simp] theorem hmac_hmaccnt (s : State) (m : List Byte) :
    (hmac m s).hmaccnt = s.hmaccnt + 1 := by rw [hmac]; simp
@[simp] theorem hmac_pending (s : State) (m : List Byte) :
    (hmac m s).pending = s.pending := by rw [hmac]; simp
@[simp] theorem hmac_returned (s : State) (m : List Byte) :
    (hmac m s).returned = s.returned := by rw [hmac]; simp

/-! ### hotp -/

@[simp] theorem hotp_hash (s : State) (c : DWord) :
    (hotp c s).hash = (hmac (bytesBE 8 c) s).hash := by rw [hotp]; simp
@[simp] theorem hotp_key (s : State) (c : DWord) : (hotp c s).key = s.key := by rw [hotp]; simp
@[simp] theorem hotp_klen (s : State) (c : DWord) : (hotp c s).klen = s.klen := by rw [hotp]; simp
@[simp] theorem hotp_digits (s : State) (c : DWord) :
    (hotp c s).digits = s.digits := by rw [hotp]; simp
@[simp] theorem hotp_ctr (s : State) (c : DWord) : (hotp c s).ctr = s.ctr := by rw [hotp]; simp
@[simp] theorem hotp_clk (s : State) (c : DWord) : (hotp c s).clk = s.clk := by rw [hotp]; simp
@[simp] theorem hotp_tzoff (s : State) (c : DWord) :
    (hotp c s).tzoff = s.tzoff := by rw [hotp]; simp
@[simp] theorem hotp_ts (s : State) (c : DWord) : (hotp c s).ts = s.ts := by rw [hotp]; simp
@[simp] theorem hotp_tstep (s : State) (c : DWord) :
    (hotp c s).tstep = s.tstep := by rw [hotp]; simp
@[simp] theorem hotp_dkey (s : State) (c : DWord) : (hotp c s).dkey = s.dkey := by rw [hotp]; simp
@[simp] theorem hotp_esec (s : State) (c : DWord) : (hotp c s).esec = s.esec := by rw [hotp]; simp
@[simp] theorem hotp_msg (s : State) (c : DWord) : (hotp c s).msg = s.msg := by rw [hotp]; simp
@[simp] theorem hotp_bincode (s : State) (c : DWord) :
    (hotp c s).bincode = truncate (hmac (bytesBE 8 c) s).digest := by rw [hotp]; simp
@[simp] theorem hotp_olen (s : State) (c : DWord) :
    (hotp c s).olen = digitsOf s.digits := by rw [hotp]; simp
@[simp] theorem hotp_digest (s : State) (c : DWord) :
    (hotp c s).digest = (hmac (bytesBE 8 c) s).digest := by rw [hotp]; simp
@[simp] theorem hotp_dvalid (s : State) (c : DWord) : (hotp c s).dvalid = true := by rw [hotp]; simp
@[simp] theorem hotp_cstep (s : State) (c : DWord) :
    (hotp c s).cstep = s.cstep := by rw [hotp]; simp
@[simp] theorem hotp_cvalid (s : State) (c : DWord) :
    (hotp c s).cvalid = s.cvalid := by rw [hotp]; simp
@[simp] theorem hotp_err (s : State) (c : DWord) : (hotp c s).err = s.err := by rw [hotp]; simp
@[simp] theorem hotp_faulted (s : State) (c : DWord) :
    (hotp c s).faulted = s.faulted := by rw [hotp]; simp
@[simp] theorem hotp_hmaccnt (s : State) (c : DWord) :
    (hotp c s).hmaccnt = s.hmaccnt + 1 := by rw [hotp]; simp
@[simp] theorem hotp_pending (s : State) (c : DWord) :
    (hotp c s).pending = s.pending := by rw [hotp]; simp
@[simp] theorem hotp_returned (s : State) (c : DWord) :
    (hotp c s).returned = s.returned := by rw [hotp]; simp

/-! ### storeStep -/

@[simp] theorem storeStep_hash (s : State) (step : DWord) :
    (storeStep step s).hash = s.hash := by rw [storeStep]
@[simp] theorem storeStep_key (s : State) (step : DWord) :
    (storeStep step s).key = s.key := by rw [storeStep]
@[simp] theorem storeStep_klen (s : State) (step : DWord) :
    (storeStep step s).klen = s.klen := by rw [storeStep]
@[simp] theorem storeStep_digits (s : State) (step : DWord) :
    (storeStep step s).digits = s.digits := by rw [storeStep]
@[simp] theorem storeStep_ctr (s : State) (step : DWord) :
    (storeStep step s).ctr = s.ctr := by rw [storeStep]
@[simp] theorem storeStep_clk (s : State) (step : DWord) :
    (storeStep step s).clk = s.clk := by rw [storeStep]
@[simp] theorem storeStep_tzoff (s : State) (step : DWord) :
    (storeStep step s).tzoff = s.tzoff := by rw [storeStep]
@[simp] theorem storeStep_ts (s : State) (step : DWord) :
    (storeStep step s).ts = s.ts := by rw [storeStep]
@[simp] theorem storeStep_tstep (s : State) (step : DWord) :
    (storeStep step s).tstep = s.tstep := by rw [storeStep]
@[simp] theorem storeStep_dkey (s : State) (step : DWord) :
    (storeStep step s).dkey = s.dkey := by rw [storeStep]
@[simp] theorem storeStep_esec (s : State) (step : DWord) :
    (storeStep step s).esec = s.esec := by rw [storeStep]
@[simp] theorem storeStep_msg (s : State) (step : DWord) :
    (storeStep step s).msg = s.msg := by rw [storeStep]
@[simp] theorem storeStep_bincode (s : State) (step : DWord) :
    (storeStep step s).bincode = s.bincode := by rw [storeStep]
@[simp] theorem storeStep_code (s : State) (step : DWord) :
    (storeStep step s).code = s.code := by rw [storeStep]
@[simp] theorem storeStep_out (s : State) (step : DWord) :
    (storeStep step s).out = s.out := by rw [storeStep]
@[simp] theorem storeStep_olen (s : State) (step : DWord) :
    (storeStep step s).olen = s.olen := by rw [storeStep]
@[simp] theorem storeStep_digest (s : State) (step : DWord) :
    (storeStep step s).digest = s.digest := by rw [storeStep]
@[simp] theorem storeStep_dvalid (s : State) (step : DWord) :
    (storeStep step s).dvalid = s.dvalid := by rw [storeStep]
@[simp] theorem storeStep_cstep (s : State) (step : DWord) :
    (storeStep step s).cstep = step := by rw [storeStep]
@[simp] theorem storeStep_cvalid (s : State) (step : DWord) :
    (storeStep step s).cvalid = true := by rw [storeStep]
@[simp] theorem storeStep_err (s : State) (step : DWord) :
    (storeStep step s).err = s.err := by rw [storeStep]
@[simp] theorem storeStep_faulted (s : State) (step : DWord) :
    (storeStep step s).faulted = s.faulted := by rw [storeStep]
@[simp] theorem storeStep_hmaccnt (s : State) (step : DWord) :
    (storeStep step s).hmaccnt = s.hmaccnt := by rw [storeStep]
@[simp] theorem storeStep_pending (s : State) (step : DWord) :
    (storeStep step s).pending = s.pending := by rw [storeStep]
@[simp] theorem storeStep_returned (s : State) (step : DWord) :
    (storeStep step s).returned = s.returned := by rw [storeStep]

/-! ### setTs -/

@[simp] theorem setTs_hash (s : State) (v : DWord) : (setTs v s).hash = s.hash := by rw [setTs]
@[simp] theorem setTs_key (s : State) (v : DWord) : (setTs v s).key = s.key := by rw [setTs]
@[simp] theorem setTs_klen (s : State) (v : DWord) : (setTs v s).klen = s.klen := by rw [setTs]
@[simp] theorem setTs_digits (s : State) (v : DWord) :
    (setTs v s).digits = s.digits := by rw [setTs]
@[simp] theorem setTs_ctr (s : State) (v : DWord) : (setTs v s).ctr = s.ctr := by rw [setTs]
@[simp] theorem setTs_clk (s : State) (v : DWord) : (setTs v s).clk = s.clk := by rw [setTs]
@[simp] theorem setTs_tzoff (s : State) (v : DWord) : (setTs v s).tzoff = s.tzoff := by rw [setTs]
@[simp] theorem setTs_ts (s : State) (v : DWord) : (setTs v s).ts = v := by rw [setTs]
@[simp] theorem setTs_tstep (s : State) (v : DWord) : (setTs v s).tstep = s.tstep := by rw [setTs]
@[simp] theorem setTs_dkey (s : State) (v : DWord) : (setTs v s).dkey = s.dkey := by rw [setTs]
@[simp] theorem setTs_esec (s : State) (v : DWord) : (setTs v s).esec = s.esec := by rw [setTs]
@[simp] theorem setTs_msg (s : State) (v : DWord) : (setTs v s).msg = s.msg := by rw [setTs]
@[simp] theorem setTs_bincode (s : State) (v : DWord) :
    (setTs v s).bincode = s.bincode := by rw [setTs]
@[simp] theorem setTs_code (s : State) (v : DWord) : (setTs v s).code = s.code := by rw [setTs]
@[simp] theorem setTs_out (s : State) (v : DWord) : (setTs v s).out = s.out := by rw [setTs]
@[simp] theorem setTs_olen (s : State) (v : DWord) : (setTs v s).olen = s.olen := by rw [setTs]
@[simp] theorem setTs_digest (s : State) (v : DWord) :
    (setTs v s).digest = s.digest := by rw [setTs]
@[simp] theorem setTs_dvalid (s : State) (v : DWord) :
    (setTs v s).dvalid = s.dvalid := by rw [setTs]
@[simp] theorem setTs_cstep (s : State) (v : DWord) : (setTs v s).cstep = s.cstep := by rw [setTs]
@[simp] theorem setTs_cvalid (s : State) (v : DWord) :
    (setTs v s).cvalid = s.cvalid := by rw [setTs]
@[simp] theorem setTs_err (s : State) (v : DWord) : (setTs v s).err = s.err := by rw [setTs]
@[simp] theorem setTs_faulted (s : State) (v : DWord) :
    (setTs v s).faulted = s.faulted := by rw [setTs]
@[simp] theorem setTs_hmaccnt (s : State) (v : DWord) :
    (setTs v s).hmaccnt = s.hmaccnt := by rw [setTs]
@[simp] theorem setTs_pending (s : State) (v : DWord) :
    (setTs v s).pending = s.pending := by rw [setTs]
@[simp] theorem setTs_returned (s : State) (v : DWord) :
    (setTs v s).returned = s.returned := by rw [setTs]

/-! ### setKey -/

@[simp] theorem setKey_hash (s : State) (k : Vector Byte 64) (n : Byte) :
    (setKey k n s).hash = s.hash := by rw [setKey]
@[simp] theorem setKey_key (s : State) (k : Vector Byte 64) (n : Byte) :
    (setKey k n s).key = k := by rw [setKey]
@[simp] theorem setKey_klen (s : State) (k : Vector Byte 64) (n : Byte) :
    (setKey k n s).klen = n := by rw [setKey]
@[simp] theorem setKey_digits (s : State) (k : Vector Byte 64) (n : Byte) :
    (setKey k n s).digits = s.digits := by rw [setKey]
@[simp] theorem setKey_ctr (s : State) (k : Vector Byte 64) (n : Byte) :
    (setKey k n s).ctr = s.ctr := by rw [setKey]
@[simp] theorem setKey_clk (s : State) (k : Vector Byte 64) (n : Byte) :
    (setKey k n s).clk = s.clk := by rw [setKey]
@[simp] theorem setKey_tzoff (s : State) (k : Vector Byte 64) (n : Byte) :
    (setKey k n s).tzoff = s.tzoff := by rw [setKey]
@[simp] theorem setKey_ts (s : State) (k : Vector Byte 64) (n : Byte) :
    (setKey k n s).ts = s.ts := by rw [setKey]
@[simp] theorem setKey_tstep (s : State) (k : Vector Byte 64) (n : Byte) :
    (setKey k n s).tstep = s.tstep := by rw [setKey]
@[simp] theorem setKey_dkey (s : State) (k : Vector Byte 64) (n : Byte) :
    (setKey k n s).dkey = s.dkey := by rw [setKey]
@[simp] theorem setKey_esec (s : State) (k : Vector Byte 64) (n : Byte) :
    (setKey k n s).esec = s.esec := by rw [setKey]
@[simp] theorem setKey_msg (s : State) (k : Vector Byte 64) (n : Byte) :
    (setKey k n s).msg = s.msg := by rw [setKey]
@[simp] theorem setKey_bincode (s : State) (k : Vector Byte 64) (n : Byte) :
    (setKey k n s).bincode = s.bincode := by rw [setKey]
@[simp] theorem setKey_code (s : State) (k : Vector Byte 64) (n : Byte) :
    (setKey k n s).code = s.code := by rw [setKey]
@[simp] theorem setKey_out (s : State) (k : Vector Byte 64) (n : Byte) :
    (setKey k n s).out = s.out := by rw [setKey]
@[simp] theorem setKey_olen (s : State) (k : Vector Byte 64) (n : Byte) :
    (setKey k n s).olen = s.olen := by rw [setKey]
@[simp] theorem setKey_digest (s : State) (k : Vector Byte 64) (n : Byte) :
    (setKey k n s).digest = s.digest := by rw [setKey]
@[simp] theorem setKey_dvalid (s : State) (k : Vector Byte 64) (n : Byte) :
    (setKey k n s).dvalid = s.dvalid := by rw [setKey]
@[simp] theorem setKey_cstep (s : State) (k : Vector Byte 64) (n : Byte) :
    (setKey k n s).cstep = s.cstep := by rw [setKey]
@[simp] theorem setKey_cvalid (s : State) (k : Vector Byte 64) (n : Byte) :
    (setKey k n s).cvalid = s.cvalid := by rw [setKey]
@[simp] theorem setKey_err (s : State) (k : Vector Byte 64) (n : Byte) :
    (setKey k n s).err = s.err := by rw [setKey]
@[simp] theorem setKey_faulted (s : State) (k : Vector Byte 64) (n : Byte) :
    (setKey k n s).faulted = s.faulted := by rw [setKey]
@[simp] theorem setKey_hmaccnt (s : State) (k : Vector Byte 64) (n : Byte) :
    (setKey k n s).hmaccnt = s.hmaccnt := by rw [setKey]
@[simp] theorem setKey_pending (s : State) (k : Vector Byte 64) (n : Byte) :
    (setKey k n s).pending = s.pending := by rw [setKey]
@[simp] theorem setKey_returned (s : State) (k : Vector Byte 64) (n : Byte) :
    (setKey k n s).returned = s.returned := by rw [setKey]

/-! ### totpCompute -/

@[simp] theorem totpCompute_hash (s : State) :
    (totpCompute s).hash = (hotp (timeStep s) s).hash := by rw [totpCompute]; simp
@[simp] theorem totpCompute_key (s : State) :
    (totpCompute s).key = s.key := by rw [totpCompute]; simp
@[simp] theorem totpCompute_klen (s : State) :
    (totpCompute s).klen = s.klen := by rw [totpCompute]; simp
@[simp] theorem totpCompute_digits (s : State) :
    (totpCompute s).digits = s.digits := by rw [totpCompute]; simp
@[simp] theorem totpCompute_ctr (s : State) :
    (totpCompute s).ctr = s.ctr := by rw [totpCompute]; simp
@[simp] theorem totpCompute_clk (s : State) :
    (totpCompute s).clk = s.clk := by rw [totpCompute]; simp
@[simp] theorem totpCompute_tzoff (s : State) :
    (totpCompute s).tzoff = s.tzoff := by rw [totpCompute]; simp
@[simp] theorem totpCompute_ts (s : State) : (totpCompute s).ts = s.ts := by rw [totpCompute]; simp
@[simp] theorem totpCompute_tstep (s : State) :
    (totpCompute s).tstep = s.tstep := by rw [totpCompute]; simp
@[simp] theorem totpCompute_dkey (s : State) :
    (totpCompute s).dkey = s.dkey := by rw [totpCompute]; simp
@[simp] theorem totpCompute_esec (s : State) :
    (totpCompute s).esec = s.esec := by rw [totpCompute]; simp
@[simp] theorem totpCompute_msg (s : State) :
    (totpCompute s).msg = s.msg := by rw [totpCompute]; simp
@[simp] theorem totpCompute_bincode (s : State) :
    (totpCompute s).bincode = (hotp (timeStep s) s).bincode := by rw [totpCompute]; simp
@[simp] theorem totpCompute_code (s : State) :
    (totpCompute s).code = (hotp (timeStep s) s).code := by rw [totpCompute]; simp
@[simp] theorem totpCompute_out (s : State) :
    (totpCompute s).out = (hotp (timeStep s) s).out := by rw [totpCompute]; simp
@[simp] theorem totpCompute_olen (s : State) :
    (totpCompute s).olen = digitsOf s.digits := by rw [totpCompute]; simp
@[simp] theorem totpCompute_digest (s : State) :
    (totpCompute s).digest = (hotp (timeStep s) s).digest := by rw [totpCompute]; simp
@[simp] theorem totpCompute_dvalid (s : State) :
    (totpCompute s).dvalid = true := by rw [totpCompute]; simp
@[simp] theorem totpCompute_cstep (s : State) :
    (totpCompute s).cstep = timeStep s := by rw [totpCompute]; simp
@[simp] theorem totpCompute_cvalid (s : State) :
    (totpCompute s).cvalid = true := by rw [totpCompute]; simp
@[simp] theorem totpCompute_err (s : State) :
    (totpCompute s).err = s.err := by rw [totpCompute]; simp
@[simp] theorem totpCompute_faulted (s : State) :
    (totpCompute s).faulted = s.faulted := by rw [totpCompute]; simp
@[simp] theorem totpCompute_hmaccnt (s : State) :
    (totpCompute s).hmaccnt = s.hmaccnt + 1 := by rw [totpCompute]; simp
@[simp] theorem totpCompute_pending (s : State) :
    (totpCompute s).pending = s.pending := by rw [totpCompute]; simp
@[simp] theorem totpCompute_returned (s : State) :
    (totpCompute s).returned = s.returned := by rw [totpCompute]; simp

/-! ### portRead -/

@[simp] theorem portRead_hash (s : State) (addr : Nat) :
    (portRead addr s).hash = s.hash := by rw [portRead]
@[simp] theorem portRead_key (s : State) (addr : Nat) :
    (portRead addr s).key = s.key := by rw [portRead]
@[simp] theorem portRead_klen (s : State) (addr : Nat) :
    (portRead addr s).klen = s.klen := by rw [portRead]
@[simp] theorem portRead_digits (s : State) (addr : Nat) :
    (portRead addr s).digits = s.digits := by rw [portRead]
@[simp] theorem portRead_ctr (s : State) (addr : Nat) :
    (portRead addr s).ctr = s.ctr := by rw [portRead]
@[simp] theorem portRead_clk (s : State) (addr : Nat) :
    (portRead addr s).clk = s.clk := by rw [portRead]
@[simp] theorem portRead_tzoff (s : State) (addr : Nat) :
    (portRead addr s).tzoff = s.tzoff := by rw [portRead]
@[simp] theorem portRead_ts (s : State) (addr : Nat) :
    (portRead addr s).ts = s.ts := by rw [portRead]
@[simp] theorem portRead_tstep (s : State) (addr : Nat) :
    (portRead addr s).tstep = s.tstep := by rw [portRead]
@[simp] theorem portRead_dkey (s : State) (addr : Nat) :
    (portRead addr s).dkey = s.dkey := by rw [portRead]
@[simp] theorem portRead_esec (s : State) (addr : Nat) :
    (portRead addr s).esec = s.esec := by rw [portRead]
@[simp] theorem portRead_msg (s : State) (addr : Nat) :
    (portRead addr s).msg = s.msg := by rw [portRead]
@[simp] theorem portRead_bincode (s : State) (addr : Nat) :
    (portRead addr s).bincode = s.bincode := by rw [portRead]
@[simp] theorem portRead_code (s : State) (addr : Nat) :
    (portRead addr s).code = s.code := by rw [portRead]
@[simp] theorem portRead_out (s : State) (addr : Nat) :
    (portRead addr s).out = s.out := by rw [portRead]
@[simp] theorem portRead_olen (s : State) (addr : Nat) :
    (portRead addr s).olen = s.olen := by rw [portRead]
@[simp] theorem portRead_digest (s : State) (addr : Nat) :
    (portRead addr s).digest = s.digest := by rw [portRead]
@[simp] theorem portRead_dvalid (s : State) (addr : Nat) :
    (portRead addr s).dvalid = s.dvalid := by rw [portRead]
@[simp] theorem portRead_cstep (s : State) (addr : Nat) :
    (portRead addr s).cstep = s.cstep := by rw [portRead]
@[simp] theorem portRead_cvalid (s : State) (addr : Nat) :
    (portRead addr s).cvalid = s.cvalid := by rw [portRead]
@[simp] theorem portRead_err (s : State) (addr : Nat) :
    (portRead addr s).err = s.err := by rw [portRead]
@[simp] theorem portRead_faulted (s : State) (addr : Nat) :
    (portRead addr s).faulted = s.faulted := by rw [portRead]
@[simp] theorem portRead_hmaccnt (s : State) (addr : Nat) :
    (portRead addr s).hmaccnt = s.hmaccnt := by rw [portRead]
@[simp] theorem portRead_pending (s : State) (addr : Nat) :
    (portRead addr s).pending = s.pending := by rw [portRead]
@[simp] theorem portRead_returned (s : State) (addr : Nat) :
    (portRead addr s).returned = s.returned ++ [memRead s addr] := by rw [portRead]

/-! ### dropTransaction -/

@[simp] theorem dropTransaction_hash (s : State) :
    (dropTransaction s).hash = s.hash := by rw [dropTransaction]
@[simp] theorem dropTransaction_key (s : State) :
    (dropTransaction s).key = s.key := by rw [dropTransaction]
@[simp] theorem dropTransaction_klen (s : State) :
    (dropTransaction s).klen = s.klen := by rw [dropTransaction]
@[simp] theorem dropTransaction_digits (s : State) :
    (dropTransaction s).digits = s.digits := by rw [dropTransaction]
@[simp] theorem dropTransaction_ctr (s : State) :
    (dropTransaction s).ctr = s.ctr := by rw [dropTransaction]
@[simp] theorem dropTransaction_clk (s : State) :
    (dropTransaction s).clk = s.clk := by rw [dropTransaction]
@[simp] theorem dropTransaction_tzoff (s : State) :
    (dropTransaction s).tzoff = s.tzoff := by rw [dropTransaction]
@[simp] theorem dropTransaction_ts (s : State) :
    (dropTransaction s).ts = s.ts := by rw [dropTransaction]
@[simp] theorem dropTransaction_tstep (s : State) :
    (dropTransaction s).tstep = s.tstep := by rw [dropTransaction]
@[simp] theorem dropTransaction_dkey (s : State) :
    (dropTransaction s).dkey = s.dkey := by rw [dropTransaction]
@[simp] theorem dropTransaction_esec (s : State) :
    (dropTransaction s).esec = s.esec := by rw [dropTransaction]
@[simp] theorem dropTransaction_msg (s : State) :
    (dropTransaction s).msg = s.msg := by rw [dropTransaction]
@[simp] theorem dropTransaction_bincode (s : State) :
    (dropTransaction s).bincode = s.bincode := by rw [dropTransaction]
@[simp] theorem dropTransaction_code (s : State) :
    (dropTransaction s).code = s.code := by rw [dropTransaction]
@[simp] theorem dropTransaction_out (s : State) :
    (dropTransaction s).out = s.out := by rw [dropTransaction]
@[simp] theorem dropTransaction_olen (s : State) :
    (dropTransaction s).olen = s.olen := by rw [dropTransaction]
@[simp] theorem dropTransaction_digest (s : State) :
    (dropTransaction s).digest = s.digest := by rw [dropTransaction]
@[simp] theorem dropTransaction_dvalid (s : State) :
    (dropTransaction s).dvalid = s.dvalid := by rw [dropTransaction]
@[simp] theorem dropTransaction_cstep (s : State) :
    (dropTransaction s).cstep = s.cstep := by rw [dropTransaction]
@[simp] theorem dropTransaction_cvalid (s : State) :
    (dropTransaction s).cvalid = s.cvalid := by rw [dropTransaction]
@[simp] theorem dropTransaction_err (s : State) :
    (dropTransaction s).err = s.err := by rw [dropTransaction]
@[simp] theorem dropTransaction_faulted (s : State) :
    (dropTransaction s).faulted = s.faulted := by rw [dropTransaction]
@[simp] theorem dropTransaction_hmaccnt (s : State) :
    (dropTransaction s).hmaccnt = s.hmaccnt := by rw [dropTransaction]
@[simp] theorem dropTransaction_pending (s : State) :
    (dropTransaction s).pending = s.pending.tail := by rw [dropTransaction]
@[simp] theorem dropTransaction_returned (s : State) :
    (dropTransaction s).returned = s.returned := by rw [dropTransaction]

/-! ### presentWord -/

@[simp] theorem presentWord_hash (s : State) (nbits w : Nat) :
    (presentWord s nbits w).hash = s.hash := by rw [presentWord]
@[simp] theorem presentWord_key (s : State) (nbits w : Nat) :
    (presentWord s nbits w).key = s.key := by rw [presentWord]
@[simp] theorem presentWord_klen (s : State) (nbits w : Nat) :
    (presentWord s nbits w).klen = s.klen := by rw [presentWord]
@[simp] theorem presentWord_digits (s : State) (nbits w : Nat) :
    (presentWord s nbits w).digits = s.digits := by rw [presentWord]
@[simp] theorem presentWord_ctr (s : State) (nbits w : Nat) :
    (presentWord s nbits w).ctr = s.ctr := by rw [presentWord]
@[simp] theorem presentWord_clk (s : State) (nbits w : Nat) :
    (presentWord s nbits w).clk = s.clk := by rw [presentWord]
@[simp] theorem presentWord_tzoff (s : State) (nbits w : Nat) :
    (presentWord s nbits w).tzoff = s.tzoff := by rw [presentWord]
@[simp] theorem presentWord_ts (s : State) (nbits w : Nat) :
    (presentWord s nbits w).ts = s.ts := by rw [presentWord]
@[simp] theorem presentWord_tstep (s : State) (nbits w : Nat) :
    (presentWord s nbits w).tstep = s.tstep := by rw [presentWord]
@[simp] theorem presentWord_dkey (s : State) (nbits w : Nat) :
    (presentWord s nbits w).dkey = s.dkey := by rw [presentWord]
@[simp] theorem presentWord_esec (s : State) (nbits w : Nat) :
    (presentWord s nbits w).esec = s.esec := by rw [presentWord]
@[simp] theorem presentWord_msg (s : State) (nbits w : Nat) :
    (presentWord s nbits w).msg = s.msg := by rw [presentWord]
@[simp] theorem presentWord_bincode (s : State) (nbits w : Nat) :
    (presentWord s nbits w).bincode = s.bincode := by rw [presentWord]
@[simp] theorem presentWord_code (s : State) (nbits w : Nat) :
    (presentWord s nbits w).code = s.code := by rw [presentWord]
@[simp] theorem presentWord_out (s : State) (nbits w : Nat) :
    (presentWord s nbits w).out = s.out := by rw [presentWord]
@[simp] theorem presentWord_olen (s : State) (nbits w : Nat) :
    (presentWord s nbits w).olen = s.olen := by rw [presentWord]
@[simp] theorem presentWord_digest (s : State) (nbits w : Nat) :
    (presentWord s nbits w).digest = s.digest := by rw [presentWord]
@[simp] theorem presentWord_dvalid (s : State) (nbits w : Nat) :
    (presentWord s nbits w).dvalid = s.dvalid := by rw [presentWord]
@[simp] theorem presentWord_cstep (s : State) (nbits w : Nat) :
    (presentWord s nbits w).cstep = s.cstep := by rw [presentWord]
@[simp] theorem presentWord_cvalid (s : State) (nbits w : Nat) :
    (presentWord s nbits w).cvalid = s.cvalid := by rw [presentWord]
@[simp] theorem presentWord_err (s : State) (nbits w : Nat) :
    (presentWord s nbits w).err = s.err := by rw [presentWord]
@[simp] theorem presentWord_faulted (s : State) (nbits w : Nat) :
    (presentWord s nbits w).faulted = s.faulted := by rw [presentWord]
@[simp] theorem presentWord_hmaccnt (s : State) (nbits w : Nat) :
    (presentWord s nbits w).hmaccnt = s.hmaccnt := by rw [presentWord]
@[simp] theorem presentWord_pending (s : State) (nbits w : Nat) :
    (presentWord s nbits w).pending = .issue (w % 2 ^ nbits) :: s.pending := by rw [presentWord]
@[simp] theorem presentWord_returned (s : State) (nbits w : Nat) :
    (presentWord s nbits w).returned = s.returned := by rw [presentWord]

/-! ### reset -/

@[simp] theorem reset_hash : State.reset.hash = HashState.reset := by rw [State.reset]
@[simp] theorem reset_key : State.reset.key = Vector.replicate 64 0 := by rw [State.reset]
@[simp] theorem reset_klen : State.reset.klen = 0 := by rw [State.reset]
@[simp] theorem reset_digits : State.reset.digits = 0 := by rw [State.reset]
@[simp] theorem reset_ctr : State.reset.ctr = 0 := by rw [State.reset]
@[simp] theorem reset_clk : State.reset.clk = 0 := by rw [State.reset]
@[simp] theorem reset_tzoff : State.reset.tzoff = 0 := by rw [State.reset]
@[simp] theorem reset_ts : State.reset.ts = 0 := by rw [State.reset]
@[simp] theorem reset_tstep : State.reset.tstep = 0 := by rw [State.reset]
@[simp] theorem reset_dkey : State.reset.dkey = Vector.replicate 20 0 := by rw [State.reset]
@[simp] theorem reset_esec : State.reset.esec = Vector.replicate 20 0 := by rw [State.reset]
@[simp] theorem reset_msg : State.reset.msg = Vector.replicate 256 0 := by rw [State.reset]
@[simp] theorem reset_bincode : State.reset.bincode = 0 := by rw [State.reset]
@[simp] theorem reset_code : State.reset.code = 0 := by rw [State.reset]
@[simp] theorem reset_out : State.reset.out = Vector.replicate 11 0 := by rw [State.reset]
@[simp] theorem reset_olen : State.reset.olen = 0 := by rw [State.reset]
@[simp] theorem reset_digest : State.reset.digest = Vector.replicate 20 0 := by rw [State.reset]
@[simp] theorem reset_dvalid : State.reset.dvalid = false := by rw [State.reset]
@[simp] theorem reset_cstep : State.reset.cstep = 0 := by rw [State.reset]
@[simp] theorem reset_cvalid : State.reset.cvalid = false := by rw [State.reset]
@[simp] theorem reset_err : State.reset.err = 0 := by rw [State.reset]
@[simp] theorem reset_faulted : State.reset.faulted = false := by rw [State.reset]
@[simp] theorem reset_hmaccnt : State.reset.hmaccnt = 0 := by rw [State.reset]
@[simp] theorem reset_pending : State.reset.pending = [] := by rw [State.reset]
@[simp] theorem reset_returned : State.reset.returned = [] := by rw [State.reset]

/-! ### clearContext -/

@[simp] theorem clearContext_hash (s : State) :
    (clearContext s).hash = HashState.reset := by rw [clearContext, reset_hash]
@[simp] theorem clearContext_key (s : State) :
    (clearContext s).key = Vector.replicate 64 0 := by rw [clearContext, reset_key]
@[simp] theorem clearContext_klen (s : State) :
    (clearContext s).klen = 0 := by rw [clearContext, reset_klen]
@[simp] theorem clearContext_digits (s : State) :
    (clearContext s).digits = 0 := by rw [clearContext, reset_digits]
@[simp] theorem clearContext_ctr (s : State) :
    (clearContext s).ctr = 0 := by rw [clearContext, reset_ctr]
@[simp] theorem clearContext_clk (s : State) :
    (clearContext s).clk = 0 := by rw [clearContext, reset_clk]
@[simp] theorem clearContext_tzoff (s : State) :
    (clearContext s).tzoff = 0 := by rw [clearContext, reset_tzoff]
@[simp] theorem clearContext_ts (s : State) :
    (clearContext s).ts = 0 := by rw [clearContext, reset_ts]
@[simp] theorem clearContext_tstep (s : State) :
    (clearContext s).tstep = 0 := by rw [clearContext, reset_tstep]
@[simp] theorem clearContext_dkey (s : State) :
    (clearContext s).dkey = Vector.replicate 20 0 := by rw [clearContext, reset_dkey]
@[simp] theorem clearContext_esec (s : State) :
    (clearContext s).esec = Vector.replicate 20 0 := by rw [clearContext, reset_esec]
@[simp] theorem clearContext_msg (s : State) :
    (clearContext s).msg = Vector.replicate 256 0 := by rw [clearContext, reset_msg]
@[simp] theorem clearContext_bincode (s : State) :
    (clearContext s).bincode = 0 := by rw [clearContext, reset_bincode]
@[simp] theorem clearContext_code (s : State) :
    (clearContext s).code = 0 := by rw [clearContext, reset_code]
@[simp] theorem clearContext_out (s : State) :
    (clearContext s).out = Vector.replicate 11 0 := by rw [clearContext, reset_out]
@[simp] theorem clearContext_olen (s : State) :
    (clearContext s).olen = 0 := by rw [clearContext, reset_olen]
@[simp] theorem clearContext_digest (s : State) :
    (clearContext s).digest = Vector.replicate 20 0 := by rw [clearContext, reset_digest]
@[simp] theorem clearContext_dvalid (s : State) :
    (clearContext s).dvalid = false := by rw [clearContext, reset_dvalid]
@[simp] theorem clearContext_cstep (s : State) :
    (clearContext s).cstep = 0 := by rw [clearContext, reset_cstep]
@[simp] theorem clearContext_cvalid (s : State) :
    (clearContext s).cvalid = false := by rw [clearContext, reset_cvalid]
@[simp] theorem clearContext_err (s : State) :
    (clearContext s).err = 0 := by rw [clearContext, reset_err]
@[simp] theorem clearContext_faulted (s : State) :
    (clearContext s).faulted = s.faulted := by rw [clearContext]
@[simp] theorem clearContext_hmaccnt (s : State) :
    (clearContext s).hmaccnt = s.hmaccnt := by rw [clearContext]
@[simp] theorem clearContext_pending (s : State) :
    (clearContext s).pending = s.pending := by rw [clearContext]
@[simp] theorem clearContext_returned (s : State) :
    (clearContext s).returned = s.returned := by rw [clearContext]

/-! ### platformReset -/

@[simp] theorem platformReset_hash (s : State) :
    (platformReset s).hash = HashState.reset := by rw [platformReset, reset_hash]
@[simp] theorem platformReset_key (s : State) :
    (platformReset s).key = Vector.replicate 64 0 := by rw [platformReset, reset_key]
@[simp] theorem platformReset_klen (s : State) :
    (platformReset s).klen = 0 := by rw [platformReset, reset_klen]
@[simp] theorem platformReset_digits (s : State) :
    (platformReset s).digits = 0 := by rw [platformReset, reset_digits]
@[simp] theorem platformReset_ctr (s : State) :
    (platformReset s).ctr = 0 := by rw [platformReset, reset_ctr]
@[simp] theorem platformReset_clk (s : State) :
    (platformReset s).clk = 0 := by rw [platformReset, reset_clk]
@[simp] theorem platformReset_tzoff (s : State) :
    (platformReset s).tzoff = 0 := by rw [platformReset, reset_tzoff]
@[simp] theorem platformReset_ts (s : State) :
    (platformReset s).ts = 0 := by rw [platformReset, reset_ts]
@[simp] theorem platformReset_tstep (s : State) :
    (platformReset s).tstep = 0 := by rw [platformReset, reset_tstep]
@[simp] theorem platformReset_dkey (s : State) :
    (platformReset s).dkey = Vector.replicate 20 0 := by rw [platformReset, reset_dkey]
@[simp] theorem platformReset_esec (s : State) :
    (platformReset s).esec = Vector.replicate 20 0 := by rw [platformReset, reset_esec]
@[simp] theorem platformReset_msg (s : State) :
    (platformReset s).msg = Vector.replicate 256 0 := by rw [platformReset, reset_msg]
@[simp] theorem platformReset_bincode (s : State) :
    (platformReset s).bincode = 0 := by rw [platformReset, reset_bincode]
@[simp] theorem platformReset_code (s : State) :
    (platformReset s).code = 0 := by rw [platformReset, reset_code]
@[simp] theorem platformReset_out (s : State) :
    (platformReset s).out = Vector.replicate 11 0 := by rw [platformReset, reset_out]
@[simp] theorem platformReset_olen (s : State) :
    (platformReset s).olen = 0 := by rw [platformReset, reset_olen]
@[simp] theorem platformReset_digest (s : State) :
    (platformReset s).digest = Vector.replicate 20 0 := by rw [platformReset, reset_digest]
@[simp] theorem platformReset_dvalid (s : State) :
    (platformReset s).dvalid = false := by rw [platformReset, reset_dvalid]
@[simp] theorem platformReset_cstep (s : State) :
    (platformReset s).cstep = 0 := by rw [platformReset, reset_cstep]
@[simp] theorem platformReset_cvalid (s : State) :
    (platformReset s).cvalid = false := by rw [platformReset, reset_cvalid]
@[simp] theorem platformReset_err (s : State) :
    (platformReset s).err = 0 := by rw [platformReset, reset_err]
@[simp] theorem platformReset_faulted (s : State) :
    (platformReset s).faulted = false := by rw [platformReset, reset_faulted]
@[simp] theorem platformReset_hmaccnt (s : State) :
    (platformReset s).hmaccnt = 0 := by rw [platformReset, reset_hmaccnt]
@[simp] theorem platformReset_pending (s : State) :
    (platformReset s).pending = s.pending := by rw [platformReset]
@[simp] theorem platformReset_returned (s : State) :
    (platformReset s).returned = s.returned := by rw [platformReset]

/-! ### The hash state after reset -/

@[simp] theorem hashReset_h0 : HashState.reset.h0 = 0 := by rw [HashState.reset]
@[simp] theorem hashReset_h1 : HashState.reset.h1 = 0 := by rw [HashState.reset]
@[simp] theorem hashReset_h2 : HashState.reset.h2 = 0 := by rw [HashState.reset]
@[simp] theorem hashReset_h3 : HashState.reset.h3 = 0 := by rw [HashState.reset]
@[simp] theorem hashReset_h4 : HashState.reset.h4 = 0 := by rw [HashState.reset]
@[simp] theorem hashReset_cntHi : HashState.reset.cntHi = 0 := by rw [HashState.reset]
@[simp] theorem hashReset_cntLo : HashState.reset.cntLo = 0 := by rw [HashState.reset]
@[simp] theorem hashReset_buf : HashState.reset.buf = Vector.replicate 64 0 := by rw [HashState.reset]
@[simp] theorem hashReset_off : HashState.reset.off = 0 := by rw [HashState.reset]
@[simp] theorem hashReset_phase : HashState.reset.phase = .idle := by rw [HashState.reset]

/-! ### hashInit -/

@[simp] theorem hashInit_h0 (h : HashState) : (hashInit h).h0 = 0x67452301 := by rw [hashInit]
@[simp] theorem hashInit_h1 (h : HashState) : (hashInit h).h1 = 0xEFCDAB89 := by rw [hashInit]
@[simp] theorem hashInit_h2 (h : HashState) : (hashInit h).h2 = 0x98BADCFE := by rw [hashInit]
@[simp] theorem hashInit_h3 (h : HashState) : (hashInit h).h3 = 0x10325476 := by rw [hashInit]
@[simp] theorem hashInit_h4 (h : HashState) : (hashInit h).h4 = 0xC3D2E1F0 := by rw [hashInit]
@[simp] theorem hashInit_cntHi (h : HashState) : (hashInit h).cntHi = 0 := by rw [hashInit]
@[simp] theorem hashInit_cntLo (h : HashState) : (hashInit h).cntLo = 0 := by rw [hashInit]
@[simp] theorem hashInit_buf (h : HashState) : (hashInit h).buf = h.buf := by rw [hashInit]
@[simp] theorem hashInit_off (h : HashState) : (hashInit h).off = 0 := by rw [hashInit]
@[simp] theorem hashInit_phase (h : HashState) : (hashInit h).phase = .active := by rw [hashInit]

/-! ### accumulate -/

@[simp] theorem accumulate_h0 (h : HashState) (v : Working) :
    (accumulate h v).h0 = h.h0 + v.a := by rw [accumulate]
@[simp] theorem accumulate_h1 (h : HashState) (v : Working) :
    (accumulate h v).h1 = h.h1 + v.b := by rw [accumulate]
@[simp] theorem accumulate_h2 (h : HashState) (v : Working) :
    (accumulate h v).h2 = h.h2 + v.c := by rw [accumulate]
@[simp] theorem accumulate_h3 (h : HashState) (v : Working) :
    (accumulate h v).h3 = h.h3 + v.d := by rw [accumulate]
@[simp] theorem accumulate_h4 (h : HashState) (v : Working) :
    (accumulate h v).h4 = h.h4 + v.e := by rw [accumulate]
@[simp] theorem accumulate_cntHi (h : HashState) (v : Working) :
    (accumulate h v).cntHi = h.cntHi := by rw [accumulate]
@[simp] theorem accumulate_cntLo (h : HashState) (v : Working) :
    (accumulate h v).cntLo = h.cntLo := by rw [accumulate]
@[simp] theorem accumulate_buf (h : HashState) (v : Working) :
    (accumulate h v).buf = h.buf := by rw [accumulate]
@[simp] theorem accumulate_off (h : HashState) (v : Working) :
    (accumulate h v).off = h.off := by rw [accumulate]
@[simp] theorem accumulate_phase (h : HashState) (v : Working) :
    (accumulate h v).phase = h.phase := by rw [accumulate]

/-! ### compress -/

@[simp] theorem compress_cntHi (h : HashState) :
    (compress h).cntHi = h.cntHi := by rw [compress]; simp
@[simp] theorem compress_cntLo (h : HashState) :
    (compress h).cntLo = h.cntLo := by rw [compress]; simp
@[simp] theorem compress_buf (h : HashState) : (compress h).buf = h.buf := by rw [compress]; simp
@[simp] theorem compress_off (h : HashState) : (compress h).off = h.off := by rw [compress]; simp
@[simp] theorem compress_phase (h : HashState) :
    (compress h).phase = h.phase := by rw [compress]; simp

/-! ### setCnt -/

@[simp] theorem setCnt_h0 (h : HashState) (c : DWord) :
    (h.setCnt c).h0 = h.h0 := by rw [HashState.setCnt]
@[simp] theorem setCnt_h1 (h : HashState) (c : DWord) :
    (h.setCnt c).h1 = h.h1 := by rw [HashState.setCnt]
@[simp] theorem setCnt_h2 (h : HashState) (c : DWord) :
    (h.setCnt c).h2 = h.h2 := by rw [HashState.setCnt]
@[simp] theorem setCnt_h3 (h : HashState) (c : DWord) :
    (h.setCnt c).h3 = h.h3 := by rw [HashState.setCnt]
@[simp] theorem setCnt_h4 (h : HashState) (c : DWord) :
    (h.setCnt c).h4 = h.h4 := by rw [HashState.setCnt]
@[simp] theorem setCnt_cntHi (h : HashState) (c : DWord) :
    (h.setCnt c).cntHi = c.extractLsb' 32 32 := by rw [HashState.setCnt]
@[simp] theorem setCnt_cntLo (h : HashState) (c : DWord) :
    (h.setCnt c).cntLo = c.extractLsb' 0 32 := by rw [HashState.setCnt]
@[simp] theorem setCnt_buf (h : HashState) (c : DWord) :
    (h.setCnt c).buf = h.buf := by rw [HashState.setCnt]
@[simp] theorem setCnt_off (h : HashState) (c : DWord) :
    (h.setCnt c).off = h.off := by rw [HashState.setCnt]
@[simp] theorem setCnt_phase (h : HashState) (c : DWord) :
    (h.setCnt c).phase = h.phase := by rw [HashState.setCnt]

/-! ### withBuf -/

@[simp] theorem withBuf_h0 (h : HashState) (b : Vector Byte 64) :
    (withBuf h b).h0 = h.h0 := by rw [withBuf]
@[simp] theorem withBuf_h1 (h : HashState) (b : Vector Byte 64) :
    (withBuf h b).h1 = h.h1 := by rw [withBuf]
@[simp] theorem withBuf_h2 (h : HashState) (b : Vector Byte 64) :
    (withBuf h b).h2 = h.h2 := by rw [withBuf]
@[simp] theorem withBuf_h3 (h : HashState) (b : Vector Byte 64) :
    (withBuf h b).h3 = h.h3 := by rw [withBuf]
@[simp] theorem withBuf_h4 (h : HashState) (b : Vector Byte 64) :
    (withBuf h b).h4 = h.h4 := by rw [withBuf]
@[simp] theorem withBuf_cntHi (h : HashState) (b : Vector Byte 64) :
    (withBuf h b).cntHi = h.cntHi := by rw [withBuf]
@[simp] theorem withBuf_cntLo (h : HashState) (b : Vector Byte 64) :
    (withBuf h b).cntLo = h.cntLo := by rw [withBuf]
@[simp] theorem withBuf_buf (h : HashState) (b : Vector Byte 64) :
    (withBuf h b).buf = b := by rw [withBuf]
@[simp] theorem withBuf_off (h : HashState) (b : Vector Byte 64) :
    (withBuf h b).off = h.off := by rw [withBuf]
@[simp] theorem withBuf_phase (h : HashState) (b : Vector Byte 64) :
    (withBuf h b).phase = h.phase := by rw [withBuf]

/-! ### setOff -/

@[simp] theorem setOff_h0 (h : HashState) (k : Fin 64) : (setOff h k).h0 = h.h0 := by rw [setOff]
@[simp] theorem setOff_h1 (h : HashState) (k : Fin 64) : (setOff h k).h1 = h.h1 := by rw [setOff]
@[simp] theorem setOff_h2 (h : HashState) (k : Fin 64) : (setOff h k).h2 = h.h2 := by rw [setOff]
@[simp] theorem setOff_h3 (h : HashState) (k : Fin 64) : (setOff h k).h3 = h.h3 := by rw [setOff]
@[simp] theorem setOff_h4 (h : HashState) (k : Fin 64) : (setOff h k).h4 = h.h4 := by rw [setOff]
@[simp] theorem setOff_cntHi (h : HashState) (k : Fin 64) :
    (setOff h k).cntHi = h.cntHi := by rw [setOff]
@[simp] theorem setOff_cntLo (h : HashState) (k : Fin 64) :
    (setOff h k).cntLo = h.cntLo := by rw [setOff]
@[simp] theorem setOff_buf (h : HashState) (k : Fin 64) : (setOff h k).buf = h.buf := by rw [setOff]
@[simp] theorem setOff_off (h : HashState) (k : Fin 64) : (setOff h k).off = k := by rw [setOff]
@[simp] theorem setOff_phase (h : HashState) (k : Fin 64) :
    (setOff h k).phase = h.phase := by rw [setOff]

/-! ### storeByte -/

@[simp] theorem storeByte_h0 (h : HashState) (b : Byte) :
    (storeByte h b).h0 = h.h0 := by rw [storeByte]; simp
@[simp] theorem storeByte_h1 (h : HashState) (b : Byte) :
    (storeByte h b).h1 = h.h1 := by rw [storeByte]; simp
@[simp] theorem storeByte_h2 (h : HashState) (b : Byte) :
    (storeByte h b).h2 = h.h2 := by rw [storeByte]; simp
@[simp] theorem storeByte_h3 (h : HashState) (b : Byte) :
    (storeByte h b).h3 = h.h3 := by rw [storeByte]; simp
@[simp] theorem storeByte_h4 (h : HashState) (b : Byte) :
    (storeByte h b).h4 = h.h4 := by rw [storeByte]; simp
@[simp] theorem storeByte_cntHi (h : HashState) (b : Byte) :
    (storeByte h b).cntHi = (h.cnt + 8).extractLsb' 32 32 := by rw [storeByte]; simp
@[simp] theorem storeByte_cntLo (h : HashState) (b : Byte) :
    (storeByte h b).cntLo = (h.cnt + 8).extractLsb' 0 32 := by rw [storeByte]; simp
@[simp] theorem storeByte_buf (h : HashState) (b : Byte) :
    (storeByte h b).buf = h.buf.set h.off.val b h.off.isLt := by rw [storeByte]; simp
@[simp] theorem storeByte_off (h : HashState) (b : Byte) :
    (storeByte h b).off = h.off := by rw [storeByte]; simp
@[simp] theorem storeByte_phase (h : HashState) (b : Byte) :
    (storeByte h b).phase = h.phase := by rw [storeByte]; simp

/-! ### closeHash -/

@[simp] theorem closeHash_h0 (h : HashState) : (closeHash h).h0 = h.h0 := by rw [closeHash]
@[simp] theorem closeHash_h1 (h : HashState) : (closeHash h).h1 = h.h1 := by rw [closeHash]
@[simp] theorem closeHash_h2 (h : HashState) : (closeHash h).h2 = h.h2 := by rw [closeHash]
@[simp] theorem closeHash_h3 (h : HashState) : (closeHash h).h3 = h.h3 := by rw [closeHash]
@[simp] theorem closeHash_h4 (h : HashState) : (closeHash h).h4 = h.h4 := by rw [closeHash]
@[simp] theorem closeHash_cntHi (h : HashState) : (closeHash h).cntHi = h.cntHi := by rw [closeHash]
@[simp] theorem closeHash_cntLo (h : HashState) : (closeHash h).cntLo = h.cntLo := by rw [closeHash]
@[simp] theorem closeHash_buf (h : HashState) : (closeHash h).buf = h.buf := by rw [closeHash]
@[simp] theorem closeHash_off (h : HashState) : (closeHash h).off = 0 := by rw [closeHash]
@[simp] theorem closeHash_phase (h : HashState) : (closeHash h).phase = .done := by rw [closeHash]

/-! ### lastBlock -/

@[simp] theorem lastBlock_h0 (h : HashState) (l : DWord) :
    (lastBlock h l).h0 = h.h0 := by rw [lastBlock]; simp
@[simp] theorem lastBlock_h1 (h : HashState) (l : DWord) :
    (lastBlock h l).h1 = h.h1 := by rw [lastBlock]; simp
@[simp] theorem lastBlock_h2 (h : HashState) (l : DWord) :
    (lastBlock h l).h2 = h.h2 := by rw [lastBlock]; simp
@[simp] theorem lastBlock_h3 (h : HashState) (l : DWord) :
    (lastBlock h l).h3 = h.h3 := by rw [lastBlock]; simp
@[simp] theorem lastBlock_h4 (h : HashState) (l : DWord) :
    (lastBlock h l).h4 = h.h4 := by rw [lastBlock]; simp
@[simp] theorem lastBlock_cntHi (h : HashState) (l : DWord) :
    (lastBlock h l).cntHi = h.cntHi := by rw [lastBlock]; simp
@[simp] theorem lastBlock_cntLo (h : HashState) (l : DWord) :
    (lastBlock h l).cntLo = h.cntLo := by rw [lastBlock]; simp
@[simp] theorem lastBlock_buf (h : HashState) (l : DWord) :
    (lastBlock h l).buf = padLength h.buf l := by rw [lastBlock]; simp
@[simp] theorem lastBlock_off (h : HashState) (l : DWord) :
    (lastBlock h l).off = h.off := by rw [lastBlock]; simp
@[simp] theorem lastBlock_phase (h : HashState) (l : DWord) :
    (lastBlock h l).phase = h.phase := by rw [lastBlock]; simp

/-! ### hashFinal -/

@[simp] theorem hashFinal_off (h : HashState) : (hashFinal h).off = 0 := by rw [hashFinal]; simp
@[simp] theorem hashFinal_phase (h : HashState) :
    (hashFinal h).phase = .done := by rw [hashFinal]; simp

end Sys2Proof.Machine
end

