-- ==== Sys2Proof/Laws/Ops.lean ====
section
/-! SUPPORT. What the shared operations can do, said once: the end of a command, the frame, the meaning
of a command, an issued word, one transaction and one step. -/

namespace Sys2Proof.Machine

/-! ### The end of a command -/

@[simp] theorem endCommand_done (s : State) : endCommand (.done s) = { s with err := 0x00 } := by
  rw [endCommand]

@[simp] theorem endCommand_raised (c : ErrorCode) (s : State) :
    endCommand (.raised c s) = { s with err := c.byte, faulted := true } := by
  rw [endCommand, fail]

theorem ErrorCode.byte_ne_zero (c : ErrorCode) : c.byte ≠ 0x00 := by cases c <;> decide

theorem ErrorCode.byte_le (c : ErrorCode) : c.byte.toNat ≤ 7 := by cases c <;> decide

/-- A command that raised leaves a code, one that did not leaves `0x00`. -/
theorem endCommand_err_eq_zero (e : BodyEnd) :
    (endCommand e).err = 0x00 ↔ ∃ s, e = .done s := by
  cases e with
  | done s => simp
  | raised c s => simpa using c.byte_ne_zero

/-! ### The frame and the body of each command -/

/-- The body of a command (R74). -/
def commandBody : Instr → State → BodyEnd
  | .nop => nopBody
  | .sha1Init => sha1InitBody
  | .sha1Update n => sha1UpdateBody n
  | .sha1Final => sha1FinalBody
  | .sha1Hash n => sha1HashBody n
  | .hmacCompute n => hmacComputeBody n
  | .hotpDerive => hotpDeriveBody
  | .decRender w => decRenderBody w
  | .timeXlate a => timeXlateBody a
  | .totpDerive => totpDeriveBody
  | .xorMask n => xorMaskBody n
  | .ctxClear => ctxClearBody

/-- Every command is its body inside the frame of R74. -/
theorem exec_eq_frame (i : Instr) (s : State) :
    exec i s = .next (endCommand (commandBody i (enterCommand i s))) := by
  cases i <;> rfl

/-- `exec` answers exactly one state, and it is a next state. -/
theorem exec_next_iff (i : Instr) (s t : State) :
    exec i s = .next t ↔ t = endCommand (commandBody i (enterCommand i s)) := by
  rw [exec_eq_frame]
  constructor
  · intro h
    injection h with h
    exact h.symm
  · rintro rfl
    rfl

theorem enterCommand_keeps {i : Instr} (s : State) (h : keepsCache i = true) :
    enterCommand i s = s := by
  rw [enterCommand, if_pos h]

theorem enterCommand_clears {i : Instr} (s : State) (h : keepsCache i = false) :
    enterCommand i s = clearCvalid s := by
  rw [enterCommand, if_neg (by simp [h])]

@[simp] theorem hashing_eq_true (s : State) : hashing s = true ↔ s.hash.phase = .active := by
  simp [hashing]

@[simp] theorem hashing_eq_false (s : State) : hashing s = false ↔ s.hash.phase ≠ .active := by
  simp [hashing]

@[simp] theorem keyTooLong_eq_true (s : State) : keyTooLong s = true ↔ 64 < s.klen.toNat := by
  rw [keyTooLong, Config.keyCap, decide_eq_true_eq]

@[simp] theorem keyTooLong_eq_false (s : State) : keyTooLong s = false ↔ s.klen.toNat ≤ 64 := by
  rw [keyTooLong, Config.keyCap, decide_eq_false_iff_not, not_lt]

@[simp] theorem hashing_clearCvalid (s : State) : hashing (clearCvalid s) = hashing s := by
  simp [hashing]

@[simp] theorem keyTooLong_clearCvalid (s : State) :
    keyTooLong (clearCvalid s) = keyTooLong s := by
  simp [keyTooLong]

@[simp] theorem msgBytes_clearCvalid (n : Byte) (s : State) :
    msgBytes n (clearCvalid s) = msgBytes n s := by
  simp [msgBytes]

/-! ### The step's quotient -/

theorem timeStep_toNat (s : State) : (timeStep s).toNat = s.ts.toNat / s.tstep.toNat := by
  rw [timeStep, BitVec.toNat_ofNat]
  exact Nat.mod_eq_of_lt (lt_of_le_of_lt (Nat.div_le_self _ _) s.ts.isLt)

/-- The cache answers exactly when CVALID = 1 and CSTEP equals the quotient (R129). -/
theorem cacheHit_iff (s : State) :
    cacheHit s = true ↔ s.cvalid = true ∧ s.cstep.toNat = s.ts.toNat / s.tstep.toNat := by
  rw [cacheHit, Bool.and_eq_true, decide_eq_true_eq, ← timeStep_toNat, BitVec.toNat_inj]

/-! ### An issued word, one transaction, one step -/

theorem issue_of_command {w : Nat} {i : Instr} (h : decode (portWord w) = .command i) (s : State) :
    issue w s = exec i s := by
  rw [issue, h]

theorem issue_of_illegal {w : Nat} {why : IllegalWord} (h : decode (portWord w) = .illegal why)
    (s : State) : issue w s = .next { s with err := 0x01, faulted := true } := by
  rw [issue, h]
  rfl

/-- Everything an issued word can do: it runs a command, or it is illegal. -/
theorem issue_cases (w : Nat) (s : State) :
    (∃ i, decode (portWord w) = .command i ∧
      issue w s = .next (endCommand (commandBody i (enterCommand i s)))) ∨
    ((∀ i, decode (portWord w) ≠ .command i) ∧
      issue w s = .next { s with err := 0x01, faulted := true }) := by
  cases h : decode (portWord w) with
  | command i => exact .inl ⟨i, rfl, by rw [issue_of_command h, exec_eq_frame]⟩
  | illegal why => exact .inr ⟨by simp, issue_of_illegal h s⟩

/-- Everything one transaction can do. -/
theorem perform_cases (act : HostAction) (s : State) :
    (∃ w, act = .issue w ∧ perform act s = issue w s) ∨
    (∃ a, act = .read a ∧ perform act s = .next (portRead a s)) ∨
    (∃ a v, act = .write a v ∧ perform act s = .next (memWrite s a v)) ∨
    (act = .reset ∧ perform act s =
      .next { State.reset with pending := s.pending, returned := s.returned }) := by
  cases act with
  | issue w => exact .inl ⟨w, rfl, rfl⟩
  | read a => exact .inr (.inl ⟨a, rfl, rfl⟩)
  | write a v => exact .inr (.inr (.inl ⟨a, v, rfl, rfl⟩))
  | reset => exact .inr (.inr (.inr ⟨rfl, rfl⟩))

/-- Everything a step can do: nothing is pending and nothing happens, or the first transaction is
performed at the state without it. -/
theorem step_cases (s : State) :
    (s.pending = [] ∧ step s = .next s) ∨
    (∃ act rest, s.pending = act :: rest ∧ step s = perform act { s with pending := rest }) := by
  cases h : s.pending with
  | nil => exact .inl ⟨rfl, by rw [step, advance, h]⟩
  | cons act rest =>
    refine .inr ⟨act, rest, rfl, ?_⟩
    rw [step, advance, h, dropTransaction, h]
    rfl

end Sys2Proof.Machine
end

