-- ==== Sys2Proof/Laws/Exec.lean ====
section
/-! SUPPORT. Every command in one equation: which code its body raises, if any, what a body that raises
has done by then, and what a body that runs to its end does. -/

namespace Sys2Proof.Machine

/-- The code the body of a command raises, by the tests of its rule in their order (R158, R168). -/
def raisedCode : Instr → State → Option ErrorCode
  | .nop, _ | .sha1Init, _ | .ctxClear, _ => none
  | .sha1Update _, s | .sha1Final, s => if hashing s then none else some .seq
  | .sha1Hash _, s => if hashing s then some .seq else none
  | .hmacCompute _, s | .hotpDerive, s =>
    if hashing s then some .seq else if keyTooLong s then some .keylen else none
  | .decRender w, _ => if w.toNat < 11 then none else some .digit
  | .timeXlate a, s => if translatedTime a s < 0 then some .range else none
  | .totpDerive, s =>
    if hashing s then some .seq else if s.tstep = 0 then some .divz
    else if cacheHit s then none else if keyTooLong s then some .keylen else none
  | .xorMask n, _ => if 20 < n.toNat then some .len else none

/-- What the body of a command has done when it raises (R171). -/
def raisedState : Instr → State → State
  | .hmacCompute _, s => unsetDigest s
  | .hotpDerive, s => unsetCode s
  | .totpDerive, s => unsetCode (clearCvalid s)
  | .decRender _, s => renderSentinel s
  | .nop, s | .sha1Init, s | .ctxClear, s | .sha1Update _, s | .sha1Final, s | .sha1Hash _, s
  | .timeXlate _, s | .xorMask _, s => s

/-- What the body of a command does when it runs to its end. -/
def doneState : Instr → State → State
  | .nop, s => s
  | .sha1Init, s => sha1Init s
  | .sha1Update n, s => sha1Update (msgBytes n s) s
  | .sha1Final, s => sha1Final s
  | .sha1Hash n, s => sha1Run (msgBytes n s) s
  | .hmacCompute n, s => hmac (msgBytes n s) s
  | .hotpDerive, s => hotp s.ctr s
  | .decRender w, s => if fits : w.toNat < 11 then render ⟨w.toNat, fits⟩ s else s
  | .timeXlate a, s => setTs (BitVec.ofNat 64 (translatedTime a s).toNat) s
  | .totpDerive, s => if cacheHit s then s else totpCompute (clearCvalid s)
  | .xorMask n, s => setKey (maskedKey n.toNat s) n s
  | .ctxClear, s => clearContext s

/-- The body of every command, in one equation. -/
theorem commandBody_eq (i : Instr) (s : State) :
    commandBody i s = match raisedCode i s with
      | none => .done (doneState i s)
      | some c => .raised c (raisedState i s) := by
  cases i with
  | nop => rfl
  | sha1Init => rfl
  | sha1Update n => rw [commandBody, sha1UpdateBody, raisedCode]; cases hashing s <;> rfl
  | sha1Final => rw [commandBody, sha1FinalBody, raisedCode]; cases hashing s <;> rfl
  | sha1Hash n => rw [commandBody, sha1HashBody, raisedCode]; cases hashing s <;> rfl
  | hmacCompute n =>
    rw [commandBody, hmacComputeBody, raisedCode]
    cases hashing s <;> cases keyTooLong s <;> rfl
  | hotpDerive =>
    rw [commandBody, hotpDeriveBody, raisedCode]
    cases hashing s <;> cases keyTooLong s <;> rfl
  | decRender w =>
    rw [commandBody, raisedCode, doneState]
    change (if fits : w.toNat < 11 then BodyEnd.done (render ⟨w.toNat, fits⟩ s)
      else .raised .digit (renderSentinel s)) = _
    by_cases fits : w.toNat < 11
    · rw [dif_pos fits, if_pos fits, dif_pos fits]
    · rw [dif_neg fits, if_neg fits]
      rfl
  | timeXlate a =>
    rw [commandBody, timeXlateBody, raisedCode]
    by_cases h : translatedTime a s < 0
    · rw [if_pos h, if_pos h]
      rfl
    · rw [if_neg h, if_neg h]
      rfl
  | totpDerive =>
    rw [commandBody, totpDeriveBody, raisedCode, doneState]
    by_cases h : s.tstep = 0
    · rw [if_pos h, if_pos h]
      cases hashing s <;> rfl
    · rw [if_neg h, if_neg h]
      cases hashing s <;> cases cacheHit s <;> cases keyTooLong s <;> rfl
  | xorMask n =>
    rw [commandBody, xorMaskBody, raisedCode, Config.secCap]
    by_cases h : 20 < n.toNat
    · rw [if_pos h, if_pos h]
      rfl
    · rw [if_neg h, if_neg h]
      rfl
  | ctxClear => rfl

/-- Everything a command can do: it fails with a code, or it completes. -/
theorem exec_cases {i : Instr} {s t : State} (h : exec i s = .next t) :
    (raisedCode i (enterCommand i s) = none ∧
      t = { doneState i (enterCommand i s) with err := 0x00 }) ∨
    (∃ c, raisedCode i (enterCommand i s) = some c ∧
      t = { raisedState i (enterCommand i s) with err := c.byte, faulted := true }) := by
  rw [exec_next_iff, commandBody_eq] at h
  cases hr : raisedCode i (enterCommand i s) with
  | none => rw [hr] at h; exact .inl ⟨rfl, h.trans (endCommand_done _)⟩
  | some c => rw [hr] at h; exact .inr ⟨c, rfl, h.trans (endCommand_raised _ _)⟩

/-- A command whose body raises nothing completes. -/
theorem exec_of_done {i : Instr} {s : State} (h : raisedCode i (enterCommand i s) = none) :
    exec i s = .next { doneState i (enterCommand i s) with err := 0x00 } := by
  rw [exec_eq_frame, commandBody_eq, h, endCommand_done]

/-- A command whose body raises a code fails with it. -/
theorem exec_of_raised {i : Instr} {s : State} {c : ErrorCode}
    (h : raisedCode i (enterCommand i s) = some c) :
    exec i s = .next { raisedState i (enterCommand i s) with err := c.byte, faulted := true } := by
  rw [exec_eq_frame, commandBody_eq, h, endCommand_raised]

end Sys2Proof.Machine
end

