-- ==== Sys2Proof/Laws/Sha1.lean ====
section
/-! SUPPORT. The hash engine (40_sha1.md): words as numbers, the bit counter, the schedule and the rounds,
what accepting bytes does to the counter, the
offset, the phase, the buffer and the accumulators, and that a finished lifecycle depends on nothing
but its message. -/

namespace Sys2Proof.Machine

/-! ### Bytes of windows -/

theorem byteAt_of_lt {n : Nat} (v : Vector Byte n) {k : Nat} (h : k < n) : byteAt v k = v[k] := by
  simp [byteAt, h]

theorem byteAt_of_le {n : Nat} (v : Vector Byte n) {k : Nat} (h : n ≤ k) : byteAt v k = 0 := by
  simp [byteAt, h]

/-- Two windows are equal when all their bytes are. -/
theorem window_ext {n : Nat} {v v' : Vector Byte n} (h : ∀ k, k < n → byteAt v k = byteAt v' k) :
    v = v' := by
  apply Vector.ext
  intro k hk
  simpa [byteAt_of_lt _ hk] using h k hk

theorem byteAt_ofFn {n : Nat} (f : Fin n → Byte) {k : Nat} (h : k < n) :
    byteAt (Vector.ofFn f) k = f ⟨k, h⟩ := by
  simp [byteAt, h]

theorem byteAt_toList {n : Nat} (v : Vector Byte n) (k : Nat) : v.toList.getD k 0 = byteAt v k := by
  by_cases h : k < n
  · simp [byteAt, h, List.getD]
  · simp [byteAt, h, List.getD]

theorem byteAt_set {n : Nat} (v : Vector Byte n) (i : Nat) (hi : i < n) (b : Byte) (k : Nat) :
    byteAt (v.set i b hi) k = if k = i then b else byteAt v k := by
  by_cases hk : k < n
  · rw [byteAt_of_lt _ hk, byteAt_of_lt _ hk, Vector.getElem_set]
    simp [eq_comm]
  · rw [byteAt_of_le _ (by omega), byteAt_of_le _ (by omega), if_neg (by omega)]

theorem byteAt_putAt {n : Nat} (v : Vector Byte n) (i : Nat) (b : Byte) (k : Nat) :
    byteAt (putAt v i b) k = if k = i ∧ i < n then b else byteAt v k := by
  by_cases hk : k < n
  · rw [byteAt_of_lt _ hk, byteAt_of_lt _ hk, putAt, Vector.getElem_setIfInBounds]
    by_cases h : i = k
    · subst h; simp [hk]
    · simp [h, Ne.symm h]
  · rw [byteAt_of_le _ (by omega), byteAt_of_le _ (by omega), if_neg (by omega)]

/-! ### The bit counter (R13) -/

@[simp] theorem cnt_setCnt (h : HashState) (c : DWord) : (h.setCnt c).cnt = c := by
  rw [HashState.cnt, setCnt_cntHi, setCnt_cntLo]
  apply BitVec.eq_of_getLsbD_eq
  intro i hi
  simp only [BitVec.getLsbD_append, BitVec.getLsbD_extractLsb']
  by_cases hlt : i < 32
  · simp [hlt]
  · have h1 : i - 32 < 32 := by omega
    have h2 : 32 + (i - 32) = i := by omega
    simp [hlt, h1, h2]

/-- CNT as a number is CNT_HI * 2^32 + CNT_LO (R13). -/
theorem cnt_toNat (h : HashState) : h.cnt.toNat = h.cntHi.toNat * 2 ^ 32 + h.cntLo.toNat := by
  rw [HashState.cnt, BitVec.toNat_append, ← Nat.shiftLeft_add_eq_or_of_lt h.cntLo.isLt,
    Nat.shiftLeft_eq]

/-! ### Rotation and assembly of words as numbers (R198) -/

/-- `rotl32` of R198 is rotation of the 32-bit word. -/
theorem rotateLeft_toNat (x : Word) {n : Nat} (h0 : 0 < n) (h : n < 32) :
    (x.rotateLeft n).toNat = rotl32 x.toNat n := by
  have hlt : x.toNat / 2 ^ (32 - n) < 2 ^ n := by
    rw [Nat.div_lt_iff_lt_mul (by positivity), ← pow_add]
    simpa [show n + (32 - n) = 32 by omega] using x.isLt
  rw [BitVec.rotateLeft_def, BitVec.toNat_or, BitVec.toNat_shiftLeft, BitVec.toNat_ushiftRight,
    Nat.mod_eq_of_lt h, rotl32, Nat.shiftLeft_eq, Nat.shiftRight_eq_div_pow]
  have hm : x.toNat * 2 ^ n % 2 ^ 32 = (x.toNat % 2 ^ (32 - n)) <<< n := by
    rw [Nat.shiftLeft_eq]
    rw [show (2:Nat) ^ 32 = 2 ^ (32 - n) * 2 ^ n by rw [← pow_add]; congr 1; omega, Nat.mul_mod_mul_right]
  rw [hm, Nat.shiftLeft_add_eq_or_of_lt hlt]

theorem be32_toNat (a b c d : Byte) : (be32 a b c d).toNat =
    a.toNat * 2 ^ 24 + b.toNat * 2 ^ 16 + c.toNat * 2 ^ 8 + d.toNat := by
  rw [be32, BitVec.toNat_append, ← Nat.shiftLeft_add_eq_or_of_lt d.isLt, BitVec.toNat_append,
    ← Nat.shiftLeft_add_eq_or_of_lt c.isLt, BitVec.toNat_append,
    ← Nat.shiftLeft_add_eq_or_of_lt b.isLt, Nat.shiftLeft_eq, Nat.shiftLeft_eq, Nat.shiftLeft_eq]
  ring

/-! ### The schedule and the rounds (R83 to R85) -/

theorem extendSchedule_length (k : Nat) (ws : List Word) :
    (extendSchedule k ws).length = ws.length + k := by
  induction k generalizing ws with
  | zero => rfl
  | succ k ih => rw [extendSchedule, ih, List.length_cons]; omega

@[simp] theorem schedule_length (buf : Vector Byte 64) : (schedule buf).length = 80 := by
  simp [schedule, extendSchedule_length]

/-- Extending the schedule keeps the words already there. -/
theorem extendSchedule_drop (k : Nat) (ws : List Word) : (extendSchedule k ws).drop k = ws := by
  induction k generalizing ws with
  | zero => rfl
  | succ k ih =>
    have := congrArg (List.drop 1) (ih (nextWord ws :: ws))
    rw [List.drop_drop] at this
    simpa [extendSchedule, Nat.add_comm] using this

/-- Each new word is `nextWord` of the words before it. -/
theorem extendSchedule_getD (k : Nat) (ws : List Word) {j : Nat} (hj : j < k) :
    (extendSchedule k ws).getD j 0 = nextWord ((extendSchedule k ws).drop (j + 1)) := by
  induction k generalizing ws with
  | zero => omega
  | succ k ih =>
    rw [extendSchedule]
    rcases Nat.lt_succ_iff_lt_or_eq.1 hj with h | rfl
    · exact ih _ h
    · have h := extendSchedule_drop j (nextWord ws :: ws)
      have h2 : (extendSchedule j (nextWord ws :: ws)).getD j 0 = nextWord ws := by
        have := congrArg (fun l => l.getD 0 0) h
        simpa [List.getD, List.getElem?_drop] using this
      have h3 : (extendSchedule j (nextWord ws :: ws)).drop (j+1) = ws := by
        have := congrArg (List.drop 1) h
        rw [List.drop_drop] at this
        simpa using this
      rw [h2, h3]

/-- W[0..15] are the words of the block (R83). -/
theorem schedule_word (buf : Vector Byte 64) {t : Nat} (ht : t < 16) :
    (schedule buf).getD t 0 = blockWord buf t := by
  have h := extendSchedule_drop 64 ((List.range 16).map (blockWord buf)).reverse
  have h2 := congrArg (fun l : List Word => l.getD (15 - t) 0) h
  have hl := extendSchedule_length 64 ((List.range 16).map (blockWord buf)).reverse
  simp only [List.getD, List.getElem?_drop] at h2
  simp only [schedule, List.getD]
  rw [List.getElem?_reverse (by rw [hl]; simp; omega)]
  rw [hl]
  simp only [List.length_reverse, List.length_map, List.length_range]
  rw [show 16 + 64 - 1 - t = 64 + (15 - t) by omega, h2]
  rw [List.getElem?_reverse (by simp; omega)]
  simp [show 15 - (15 - t) = t by omega, ht]

/-- W[16..79] follow from the words 3, 8, 14 and 16 before them (R83). -/
theorem schedule_next (buf : Vector Byte 64) {t : Nat} (h16 : 16 ≤ t) (h80 : t < 80) :
    (schedule buf).getD t 0 = ((schedule buf).getD (t - 3) 0 ^^^ (schedule buf).getD (t - 8) 0 ^^^
      (schedule buf).getD (t - 14) 0 ^^^ (schedule buf).getD (t - 16) 0).rotateLeft 1 := by
  have hl := extendSchedule_length 64 ((List.range 16).map (blockWord buf)).reverse
  simp only [List.length_reverse, List.length_map, List.length_range] at hl
  have e := extendSchedule_getD 64 ((List.range 16).map (blockWord buf)).reverse (j := 79 - t) (by omega)
  have r : ∀ u, u < 80 → (schedule buf).getD u 0 =
      (extendSchedule 64 ((List.range 16).map (blockWord buf)).reverse).getD (79 - u) 0 := by
    intro u hu
    simp only [schedule, List.getD]
    rw [List.getElem?_reverse (by omega), hl, show 16 + 64 - 1 - u = 79 - u by omega]
  rw [r t h80, e, nextWord]
  simp only [List.getD_eq_getElem?_getD, List.getElem?_drop] at *
  rw [r (t-3) (by omega), r (t-8) (by omega), r (t-14) (by omega), r (t-16) (by omega)]
  rw [show 79 - (t-3) = 79 - t + 1 + 2 by omega, show 79 - (t-8) = 79 - t + 1 + 7 by omega,
    show 79 - (t-14) = 79 - t + 1 + 13 by omega, show 79 - (t-16) = 79 - t + 1 + 15 by omega]

theorem rounds_append (t : Nat) (xs ys : List Word) (v : Working) :
    rounds t (xs ++ ys) v = rounds (t + xs.length) ys (rounds t xs v) := by
  induction xs generalizing t v with
  | nil => rfl
  | cons x xs ih => rw [List.cons_append, rounds, ih, rounds, List.length_cons]; congr 1; omega

theorem rounds_take_succ (ws : List Word) {t : Nat} (ht : t < ws.length) (v : Working) :
    rounds 0 (ws.take (t + 1)) v = round t (ws.getD t 0) (rounds 0 (ws.take t) v) := by
  rw [List.take_add_one, rounds_append, List.length_take, Nat.min_eq_left (by omega)]
  simp [ht, List.getD, rounds]


/-- The working variables of `compress` before round `t` (R85). -/
def workingAt (h : HashState) (t : Nat) : Working :=
  rounds 0 ((schedule h.buf).take t) ⟨h.h0, h.h1, h.h2, h.h3, h.h4⟩

theorem workingAt_zero (h : HashState) : workingAt h 0 = ⟨h.h0, h.h1, h.h2, h.h3, h.h4⟩ := by
  rw [workingAt, List.take_zero, rounds]

theorem workingAt_succ (h : HashState) {t : Nat} (ht : t < 80) :
    workingAt h (t + 1) = round t ((schedule h.buf).getD t 0) (workingAt h t) :=
  rounds_take_succ _ (by simpa using ht) _

/-- `compress` adds the working variables after all 80 rounds into H0 to H4 (R85). -/
theorem compress_eq_accumulate (h : HashState) : compress h = accumulate h (workingAt h 80) := by
  rw [compress, workingAt, List.take_of_length_le (by simp)]

/-! ### compress reads the accumulators and BUF only (R83 to R85) -/

/-- The five accumulators together. -/
def accOf (h : HashState) : Working := ⟨h.h0, h.h1, h.h2, h.h3, h.h4⟩

/-- What compressing a block does to the five accumulators. -/
def compressAcc (v : Working) (block : Vector Byte 64) : Working :=
  let r := rounds 0 (schedule block) v
  ⟨v.a + r.a, v.b + r.b, v.c + r.c, v.d + r.d, v.e + r.e⟩

theorem accOf_compress (h : HashState) : accOf (compress h) = compressAcc (accOf h) h.buf := by
  rw [compress, accumulate, accOf, compressAcc, accOf]

theorem compress_eq (h : HashState) :
    compress h = { h with h0 := (compressAcc (accOf h) h.buf).a, h1 := (compressAcc (accOf h) h.buf).b,
                          h2 := (compressAcc (accOf h) h.buf).c, h3 := (compressAcc (accOf h) h.buf).d,
                          h4 := (compressAcc (accOf h) h.buf).e } := by
  rw [compress, accumulate, compressAcc, accOf]

theorem acc_eq_of_accOf {h h' : HashState} (e : accOf h = accOf h') (i : Nat) :
    h.acc i = h'.acc i := by
  simp only [accOf, Working.mk.injEq] at e
  obtain ⟨e0, e1, e2, e3, e4⟩ := e
  match i with
  | 0 => exact e0
  | 1 => exact e1
  | 2 => exact e2
  | 3 => exact e3
  | _ + 4 => exact e4

theorem digestOf_eq_of_accOf {h h' : HashState} (e : accOf h = accOf h') :
    digestOf h = digestOf h' := by
  simp only [digestOf, acc_eq_of_accOf e]

@[simp] theorem accOf_withBuf (h : HashState) (b : Vector Byte 64) :
    accOf (withBuf h b) = accOf h := by simp [accOf]

@[simp] theorem accOf_setOff (h : HashState) (k : Fin 64) : accOf (setOff h k) = accOf h := by
  simp [accOf]

@[simp] theorem accOf_storeByte (h : HashState) (b : Byte) : accOf (storeByte h b) = accOf h := by
  simp [accOf]

@[simp] theorem accOf_closeHash (h : HashState) : accOf (closeHash h) = accOf h := by simp [accOf]

@[simp] theorem accOf_lastBlock (h : HashState) (l : DWord) : accOf (lastBlock h l) = accOf h := by
  simp [accOf]

theorem accOf_compressBlock (h : HashState) (b : Vector Byte 64) :
    accOf (compressBlock h b) = compressAcc (accOf h) b := by
  rw [compressBlock, accOf_compress]
  simp [accOf]

theorem accOf_foldl_compressBlock (bs : List (Vector Byte 64)) (h : HashState) :
    accOf (bs.foldl compressBlock h) = bs.foldl compressAcc (accOf h) := by
  induction bs generalizing h with
  | nil => rfl
  | cons b bs ih => rw [List.foldl_cons, List.foldl_cons, ih, accOf_compressBlock]

/-! ### Accepting bytes (R82) -/

@[simp] theorem hashUpdate_nil (h : HashState) : hashUpdate h [] = h := rfl

@[simp] theorem hashUpdate_cons (h : HashState) (b : Byte) (bs : List Byte) :
    hashUpdate h (b :: bs) = hashUpdate (hashAccept h b) bs := rfl

/-- `sha1_update(x)` then `sha1_update(y)` is `sha1_update(x ++ y)` (R82). -/
theorem hashUpdate_append (h : HashState) (xs ys : List Byte) :
    hashUpdate h (xs ++ ys) = hashUpdate (hashUpdate h xs) ys := by
  simp [hashUpdate, List.foldl_append]

/-- A byte that does not fill the buffer. -/
theorem hashAccept_room {h : HashState} (b : Byte) (room : h.off.val + 1 < 64) :
    hashAccept h b = setOff (storeByte h b) ⟨h.off.val + 1, room⟩ := by
  rw [hashAccept, dif_pos room]

/-- A byte that fills the buffer. -/
theorem hashAccept_full {h : HashState} (b : Byte) (full : ¬h.off.val + 1 < 64) :
    hashAccept h b = setOff (compress (storeByte h b)) 0 := by
  rw [hashAccept, dif_neg full]

@[simp] theorem hashAccept_phase (h : HashState) (b : Byte) : (hashAccept h b).phase = h.phase := by
  by_cases room : h.off.val + 1 < 64
  · simp [hashAccept_room b room]
  · simp [hashAccept_full b room]

theorem cnt_eq_of_halves {h h' : HashState} (e1 : h.cntHi = h'.cntHi) (e2 : h.cntLo = h'.cntLo) :
    h.cnt = h'.cnt := by
  rw [HashState.cnt, HashState.cnt, e1, e2]

@[simp] theorem cnt_compress (h : HashState) : (compress h).cnt = h.cnt :=
  cnt_eq_of_halves (by simp) (by simp)

@[simp] theorem cnt_setOff (h : HashState) (k : Fin 64) : (setOff h k).cnt = h.cnt :=
  cnt_eq_of_halves (by simp) (by simp)

@[simp] theorem cnt_withBuf (h : HashState) (b : Vector Byte 64) : (withBuf h b).cnt = h.cnt :=
  cnt_eq_of_halves (by simp) (by simp)

@[simp] theorem cnt_closeHash (h : HashState) : (closeHash h).cnt = h.cnt :=
  cnt_eq_of_halves (by simp) (by simp)

@[simp] theorem cnt_lastBlock (h : HashState) (l : DWord) : (lastBlock h l).cnt = h.cnt :=
  cnt_eq_of_halves (by simp) (by simp)

@[simp] theorem cnt_storeByte (h : HashState) (b : Byte) : (storeByte h b).cnt = h.cnt + 8 := by
  rw [storeByte, cnt_withBuf, cnt_setCnt]

@[simp] theorem cnt_hashAccept (h : HashState) (b : Byte) : (hashAccept h b).cnt = h.cnt + 8 := by
  by_cases room : h.off.val + 1 < 64
  · simp [hashAccept_room b room]
  · simp [hashAccept_full b room]

theorem off_hashAccept (h : HashState) (b : Byte) :
    (hashAccept h b).off.val = (h.off.val + 1) % 64 := by
  have hlt := h.off.isLt
  by_cases room : h.off.val + 1 < 64
  · simp [hashAccept_room b room, Nat.mod_eq_of_lt room]
  · have : h.off.val + 1 = 64 := by omega
    simp [hashAccept_full b room, this]

@[simp] theorem hashUpdate_phase (h : HashState) (bs : List Byte) :
    (hashUpdate h bs).phase = h.phase := by
  induction bs generalizing h with
  | nil => rfl
  | cons b bs ih => rw [hashUpdate_cons, ih, hashAccept_phase]

/-- CNT advances by 8 for each byte, modulo 2^64 (R13, R82). -/
theorem cnt_hashUpdate (h : HashState) (bs : List Byte) :
    (hashUpdate h bs).cnt = h.cnt + BitVec.ofNat 64 (8 * bs.length) := by
  induction bs generalizing h with
  | nil => simp
  | cons b bs ih =>
    rw [hashUpdate_cons, ih, cnt_hashAccept]
    apply BitVec.eq_of_toNat_eq
    have h8 : (8 : DWord).toNat = 8 := rfl
    simp only [BitVec.toNat_add, BitVec.toNat_ofNat, List.length_cons, h8]
    omega

theorem cnt_toNat_hashUpdate (h : HashState) (bs : List Byte) :
    (hashUpdate h bs).cnt.toNat = (h.cnt.toNat + 8 * bs.length) % 2 ^ 64 := by
  rw [cnt_hashUpdate, BitVec.toNat_add, BitVec.toNat_ofNat]
  omega

/-- OFF counts the accepted bytes modulo 64 (R15). -/
theorem off_hashUpdate (h : HashState) (bs : List Byte) :
    (hashUpdate h bs).off.val = (h.off.val + bs.length) % 64 := by
  induction bs generalizing h with
  | nil => simp [Nat.mod_eq_of_lt h.off.isLt]
  | cons b bs ih =>
    rw [hashUpdate_cons, ih, off_hashAccept, List.length_cons]
    omega

/-! ### A lifecycle depends on its message alone (R101, R82, R86) -/

/-- Two hash states that differ at most in the leftover bytes BUF[OFF..63] (R14). -/
structure SamePending (h h' : HashState) : Prop where
  acc : accOf h = accOf h'
  cntHi : h.cntHi = h'.cntHi
  cntLo : h.cntLo = h'.cntLo
  off : h.off = h'.off
  phase : h.phase = h'.phase
  buf : ∀ k < h.off.val, byteAt h.buf k = byteAt h'.buf k

theorem hashState_ext {h h' : HashState} (acc : accOf h = accOf h') (cntHi : h.cntHi = h'.cntHi)
    (cntLo : h.cntLo = h'.cntLo) (buf : h.buf = h'.buf) (off : h.off = h'.off)
    (phase : h.phase = h'.phase) : h = h' := by
  cases h
  cases h'
  simp_all [accOf]

theorem samePending_hashInit (h h' : HashState) : SamePending (hashInit h) (hashInit h') :=
  ⟨by simp [accOf], by simp, by simp, by simp, by simp, by simp⟩

theorem SamePending.storeByte {h h' : HashState} (e : SamePending h h') (b : Byte) :
    accOf (Machine.storeByte h b) = accOf (Machine.storeByte h' b) ∧
    (Machine.storeByte h b).cntHi = (Machine.storeByte h' b).cntHi ∧
    (Machine.storeByte h b).cntLo = (Machine.storeByte h' b).cntLo ∧
    ∀ k ≤ h.off.val,
      byteAt (Machine.storeByte h b).buf k = byteAt (Machine.storeByte h' b).buf k := by
  have hc := cnt_eq_of_halves e.cntHi e.cntLo
  refine ⟨by simp [e.acc], by simp [hc], by simp [hc], ?_⟩
  intro k hk
  simp only [storeByte_buf, byteAt_set, ← e.off]
  split
  · rfl
  · exact e.buf k (by omega)

theorem SamePending.accept {h h' : HashState} (e : SamePending h h') (b : Byte) :
    SamePending (hashAccept h b) (hashAccept h' b) := by
  obtain ⟨ea, ehi, elo, eb⟩ := e.storeByte b
  by_cases room : h.off.val + 1 < 64
  · have room' : h'.off.val + 1 < 64 := by rw [← e.off]; exact room
    rw [hashAccept_room b room, hashAccept_room b room']
    refine ⟨by simp [e.acc], by simpa using ehi, by simpa using elo, by simp [e.off],
      by simp [e.phase], ?_⟩
    intro k hk
    simp only [setOff_off] at hk
    simp only [setOff_buf]
    exact eb k (by omega)
  · have room' : ¬h'.off.val + 1 < 64 := by rw [← e.off]; exact room
    have hfull : (Machine.storeByte h b).buf = (Machine.storeByte h' b).buf :=
      window_ext fun k hk => eb k (by omega)
    rw [hashAccept_full b room, hashAccept_full b room']
    refine ⟨?_, by simpa using ehi, by simpa using elo, by simp, by simp [e.phase], by simp⟩
    rw [accOf_setOff, accOf_setOff, accOf_compress, accOf_compress, ea, hfull]

theorem SamePending.update {h h' : HashState} (e : SamePending h h') (bs : List Byte) :
    SamePending (hashUpdate h bs) (hashUpdate h' bs) := by
  induction bs generalizing h h' with
  | nil => exact e
  | cons b bs ih => exact ih (e.accept b)

theorem byteAt_padMark (h : HashState) {k : Nat} (hk : k < 64) :
    byteAt (padMark h) k =
      if k < h.off.val then byteAt h.buf k else if k = h.off.val then 0x80 else 0x00 := by
  rw [padMark, byteAt_ofFn _ hk, byteAt_of_lt _ hk]

/-- Padding writes BUF and the accumulators only: CNT stays (R86). -/
@[simp] theorem padBlock_cntHi (h : HashState) : (padBlock h).cntHi = h.cntHi := by
  rw [padBlock]
  split <;> simp

@[simp] theorem padBlock_cntLo (h : HashState) : (padBlock h).cntLo = h.cntLo := by
  rw [padBlock]
  split <;> simp

@[simp] theorem hashFinal_cntHi (h : HashState) : (hashFinal h).cntHi = h.cntHi := by simp [hashFinal]

@[simp] theorem hashFinal_cntLo (h : HashState) : (hashFinal h).cntLo = h.cntLo := by simp [hashFinal]

theorem SamePending.padMark {h h' : HashState} (e : SamePending h h') :
    Machine.padMark h = Machine.padMark h' := by
  apply window_ext
  intro k hk
  rw [byteAt_padMark h hk, byteAt_padMark h' hk, ← e.off]
  split
  · rename_i hlt
    exact e.buf k hlt
  · rfl

/-- Finalising forgets the leftover bytes of BUF (R86). -/
theorem SamePending.final {h h' : HashState} (e : SamePending h h') : hashFinal h = hashFinal h' := by
  have hc := cnt_eq_of_halves e.cntHi e.cntLo
  have hbuf : (padBlock h).buf = (padBlock h').buf ∧ accOf (padBlock h) = accOf (padBlock h') := by
    simp only [padBlock, ← e.off, e.padMark]
    split
    · simp [accOf_compress, e.acc]
    · simp [e.acc]
  obtain ⟨eb, ea⟩ := hbuf
  apply hashState_ext
  · rw [hashFinal, hashFinal, accOf_closeHash, accOf_closeHash, accOf_compress, accOf_compress,
      accOf_lastBlock, accOf_lastBlock, ea, lastBlock_buf, lastBlock_buf, eb, hc]
  · simp [e.cntHi]
  · simp [e.cntLo]
  · simp [hashFinal, eb, hc]
  · simp
  · simp

/-- A whole lifecycle leaves a hash state that depends on its message alone (R87). -/
theorem hashRun_eq (h h' : HashState) (m : List Byte) :
    hashFinal (hashUpdate (hashInit h) m) = hashFinal (hashUpdate (hashInit h') m) :=
  ((samePending_hashInit h h').update m).final

end Sys2Proof.Machine
end

