-- ==== Sys2Proof/Laws/Message.lean ====
section
/-! SUPPORT. Blocks of messages, and what accepting bytes and finalising do in terms of them
(40_sha1.md R82, R86, R87). -/

namespace Sys2Proof.Machine

/-! ### Blocks -/

theorem messageBlocks_length (p : List Byte) : (messageBlocks p).length = p.length / 64 := by
  simp [messageBlocks]

theorem byteAt_messageBlock (p : List Byte) (j : Nat) {k : Nat} (hk : k < 64) :
    byteAt (messageBlock p j) k = p.getD (64 * j + k) 0x00 := by
  rw [messageBlock, byteAt_ofFn _ hk]

theorem getD_append_left' (xs ys : List Byte) {k : Nat} (h : k < xs.length) :
    (xs ++ ys).getD k 0x00 = xs.getD k 0x00 := by
  simp [List.getD, List.getElem?_append_left h]

theorem getD_append_right' (xs ys : List Byte) {k : Nat} (h : xs.length ≤ k) :
    (xs ++ ys).getD k 0x00 = ys.getD (k - xs.length) 0x00 := by
  simp [List.getD, List.getElem?_append_right h]

theorem messageBlock_append_left (xs ys : List Byte) {j : Nat} (h : 64 * j + 64 ≤ xs.length) :
    messageBlock (xs ++ ys) j = messageBlock xs j := by
  apply window_ext
  intro k hk
  rw [byteAt_messageBlock _ _ hk, byteAt_messageBlock _ _ hk, getD_append_left' _ _ (by omega)]

theorem messageBlock_append_right (xs ys : List Byte) (q j : Nat) (h : xs.length = 64 * q) :
    messageBlock (xs ++ ys) (q + j) = messageBlock ys j := by
  apply window_ext
  intro k hk
  rw [byteAt_messageBlock _ _ hk, byteAt_messageBlock _ _ hk, getD_append_right' _ _ (by omega)]
  congr 1
  omega

/-- Whole blocks split off the front. -/
theorem messageBlocks_append (xs ys : List Byte) (q : Nat) (h : xs.length = 64 * q) :
    messageBlocks (xs ++ ys) = messageBlocks xs ++ messageBlocks ys := by
  have hq : (xs ++ ys).length / 64 = q + ys.length / 64 := by
    rw [List.length_append, h]
    omega
  have hx : xs.length / 64 = q := by omega
  rw [messageBlocks, hq, List.range_add, List.map_append, messageBlocks, hx, messageBlocks]
  refine congrArg₂ (· ++ ·) ?_ ?_
  · apply List.map_congr_left
    intro j hj
    have : j < q := List.mem_range.mp hj
    exact messageBlock_append_left xs ys (by omega)
  · rw [List.map_map]
    apply List.map_congr_left
    intro j _
    exact messageBlock_append_right xs ys q j h

theorem messageBlocks_short (p : List Byte) (h : p.length < 64) : messageBlocks p = [] := by
  apply List.eq_nil_of_length_eq_zero
  rw [messageBlocks_length]
  omega

theorem messageBlocks_one (p : List Byte) (h : p.length = 64) :
    messageBlocks p = [messageBlock p 0] := by
  simp [messageBlocks, h, List.range_succ]

/-- A tail too short for a block adds none. -/
theorem messageBlocks_take (p : List Byte) :
    messageBlocks (p.take (64 * (p.length / 64))) = messageBlocks p := by
  have hl : (p.take (64 * (p.length / 64))).length = 64 * (p.length / 64) := by
    rw [List.length_take]
    omega
  conv_rhs => rw [← List.take_append_drop (64 * (p.length / 64)) p]
  rw [messageBlocks_append _ _ _ hl,
    messageBlocks_short (p.drop _) (by rw [List.length_drop]; omega), List.append_nil]

/-! ### The pending bytes -/

/-- The message bytes accepted and not yet compressed, BUF[0..OFF-1] (R14). -/
def pendingBytes (h : HashState) : List Byte := h.buf.toList.take h.off.val

theorem pendingBytes_length (h : HashState) : (pendingBytes h).length = h.off.val := by
  have := h.off.isLt
  simp [pendingBytes]

theorem pendingBytes_getD (h : HashState) {k : Nat} (hk : k < h.off.val) :
    (pendingBytes h).getD k 0x00 = byteAt h.buf k := by
  have := h.off.isLt
  have h64 : k < 64 := by omega
  simp [pendingBytes, List.getD, hk, byteAt, h64]

/-- A list is the pending bytes when it has their length and their bytes. -/
theorem eq_pendingBytes {h : HashState} {p : List Byte} (hl : p.length = h.off.val)
    (hb : ∀ k < h.off.val, byteAt h.buf k = p.getD k 0x00) : p = pendingBytes h := by
  apply List.ext_getElem
  · rw [hl, pendingBytes_length]
  · intro k h1 h2
    have hk : k < h.off.val := by omega
    have e := hb k hk
    rw [← pendingBytes_getD h hk] at e
    simpa [List.getD, h1, h2] using e.symm

/-- One more byte, in terms of the bytes pending. -/
theorem hashAccept_pending (h : HashState) (b : Byte) :
    (pendingBytes h ++ [b]).length < 64 ∧ pendingBytes (hashAccept h b) = pendingBytes h ++ [b] ∧
      accOf (hashAccept h b) = accOf h ∨
    (pendingBytes h ++ [b]).length = 64 ∧ pendingBytes (hashAccept h b) = [] ∧
      accOf (hashAccept h b) = compressAcc (accOf h) (messageBlock (pendingBytes h ++ [b]) 0) := by
  have hoff := h.off.isLt
  have hlen : (pendingBytes h ++ [b]).length = h.off.val + 1 := by simp [pendingBytes_length]
  have hget : ∀ k ≤ h.off.val,
      byteAt (storeByte h b).buf k = (pendingBytes h ++ [b]).getD k 0x00 := by
    intro k hk
    rw [storeByte_buf, byteAt_set]
    by_cases e : k = h.off.val
    · subst e
      rw [if_pos rfl, getD_append_right' _ _ (by simp [pendingBytes_length])]
      simp [pendingBytes_length]
    · rw [if_neg e, getD_append_left' _ _ (by rw [pendingBytes_length]; omega),
        pendingBytes_getD h (by omega)]
  by_cases room : h.off.val + 1 < 64
  · left
    refine ⟨by omega, ?_, by simp [hashAccept_room b room]⟩
    rw [hashAccept_room b room]
    symm
    apply eq_pendingBytes
    · simp [pendingBytes_length]
    · intro k hk
      rw [setOff_buf]
      exact hget k (by simp at hk; omega)
  · right
    refine ⟨by omega, ?_, ?_⟩
    · rw [hashAccept_full b room]
      simp [pendingBytes]
    · rw [hashAccept_full b room, accOf_setOff, accOf_compress, accOf_storeByte]
      refine congrArg (compressAcc (accOf h)) (window_ext ?_)
      intro k hk
      rw [byteAt_messageBlock _ _ hk, hget k (by omega)]
      simp

/-- Accepting bytes compresses every full block of the pending bytes and the new ones, in order, and
leaves the rest pending (R82). -/
theorem hashUpdate_pending (h : HashState) (bs : List Byte) :
    accOf (hashUpdate h bs) = (messageBlocks (pendingBytes h ++ bs)).foldl compressAcc (accOf h) ∧
    pendingBytes (hashUpdate h bs) =
      (pendingBytes h ++ bs).drop (64 * ((pendingBytes h ++ bs).length / 64)) := by
  induction bs generalizing h with
  | nil =>
    have hl := pendingBytes_length h
    have hlt := h.off.isLt
    have h0 : (pendingBytes h ++ []).length / 64 = 0 := by
      rw [List.append_nil, hl]
      omega
    rw [messageBlocks_short _ (by rw [List.append_nil, hl]; omega), h0]
    simp
  | cons b bs ih =>
    obtain ⟨ihacc, ihpend⟩ := ih (hashAccept h b)
    have hsplit : pendingBytes h ++ b :: bs = (pendingBytes h ++ [b]) ++ bs := by simp
    rw [hashUpdate_cons, ihacc, ihpend, hsplit]
    rcases hashAccept_pending h b with ⟨-, hp, ha⟩ | ⟨hl, hp, ha⟩
    · rw [hp, ha]
      exact ⟨rfl, rfl⟩
    · rw [hp, ha, messageBlocks_append (pendingBytes h ++ [b]) bs 1 (by omega),
        messageBlocks_one _ hl, List.nil_append]
      refine ⟨rfl, ?_⟩
      have hq : 64 * ((pendingBytes h ++ [b] ++ bs).length / 64) = 64 + 64 * (bs.length / 64) := by
        rw [List.length_append, hl]
        omega
      rw [hq, List.drop_append, List.drop_of_length_le (l := pendingBytes h ++ [b]) (by omega), hl,
        Nat.add_sub_cancel_left]
      rfl

/-- Bytes of BUF beyond those written keep their values while no block fills (R82). -/
theorem hashUpdate_leftover (h : HashState) (bs : List Byte) (room : h.off.val + bs.length < 64)
    {k : Nat} (hk : h.off.val + bs.length ≤ k) : byteAt (hashUpdate h bs).buf k = byteAt h.buf k := by
  induction bs generalizing h with
  | nil => rfl
  | cons b bs ih =>
    rw [List.length_cons] at room hk
    have hroom : h.off.val + 1 < 64 := by omega
    have hoff : (hashAccept h b).off.val = h.off.val + 1 := by
      rw [off_hashAccept, Nat.mod_eq_of_lt hroom]
    rw [hashUpdate_cons, ih _ (by omega) (by omega), hashAccept_room b hroom, setOff_buf,
      storeByte_buf, byteAt_set, if_neg (by omega)]

/-! ### Finalising (R86) -/

/-- The padding of `n` pending bytes: `0x80`, zeros, and the bit count in the last eight bytes of the
last block (R86). -/
def paddingOf (n : Nat) (l : DWord) : List Byte :=
  [0x80] ++ List.replicate (if n < 56 then 55 - n else 119 - n) 0x00 ++ bytesBE 8 l

theorem bytesBE_length {w : Nat} (n : Nat) (v : BitVec w) : (bytesBE n v).length = n := by
  simp [bytesBE]

theorem bytesBE_getD {w : Nat} (n : Nat) (v : BitVec w) {k : Nat} (hk : k < n) :
    (bytesBE n v).getD k 0x00 = byteBE n v k := by
  simp [bytesBE, List.getD, hk]

theorem paddingOf_length (n : Nat) (l : DWord) (hn : n < 64) :
    n + (paddingOf n l).length = if n < 56 then 64 else 128 := by
  simp only [paddingOf, List.length_append, List.length_replicate, bytesBE_length,
    List.length_singleton]
  split <;> omega

theorem paddingOf_getD (n : Nat) (l : DWord) (k : Nat) :
    (paddingOf n l).getD k 0x00 =
      if k = 0 then 0x80
      else if k < 1 + (if n < 56 then 55 - n else 119 - n) then 0x00
      else (bytesBE 8 l).getD (k - (1 + (if n < 56 then 55 - n else 119 - n))) 0x00 := by
  rw [paddingOf]
  generalize (if n < 56 then 55 - n else 119 - n) = z
  by_cases h0 : k = 0
  · subst h0
    simp
  · rw [if_neg h0]
    by_cases hz : k < 1 + z
    · rw [if_pos hz, getD_append_left' _ _ (by simp; omega), getD_append_right' _ _ (by simp; omega)]
      simp only [List.getD, List.getElem?_replicate]
      split <;> rfl
    · rw [if_neg hz, getD_append_right' _ _ (by simp; omega)]
      simp [Nat.add_comm]

theorem byteAt_padLength (buf : Vector Byte 64) (l : DWord) {k : Nat} (hk : k < 64) :
    byteAt (padLength buf l) k = if k < 56 then byteAt buf k else byteBE 8 l (k - 56) := by
  rw [padLength, byteAt_ofFn _ hk, byteAt_of_lt _ hk]

/-- A byte of the padded pending bytes: the pending ones, the mark, the zeros, the bit count. -/
theorem padded_getD (h : HashState) (l : DWord) (k : Nat) :
    (pendingBytes h ++ paddingOf h.off.val l).getD k 0x00 =
      if k < h.off.val then byteAt h.buf k
      else if k = h.off.val then 0x80
      else if k < (if h.off.val < 56 then 56 else 120) then 0x00
      else (bytesBE 8 l).getD (k - (if h.off.val < 56 then 56 else 120)) 0x00 := by
  have hoff := h.off.isLt
  by_cases h1 : k < h.off.val
  · rw [if_pos h1, getD_append_left' _ _ (by rw [pendingBytes_length]; exact h1),
      pendingBytes_getD h h1]
  · rw [if_neg h1, getD_append_right' _ _ (by rw [pendingBytes_length]; omega), pendingBytes_length,
      paddingOf_getD]
    by_cases h2 : k = h.off.val
    · rw [if_pos (by omega), if_pos h2]
    · rw [if_neg (by omega), if_neg h2]
      by_cases h56 : h.off.val < 56
      · simp only [if_pos h56]
        by_cases h3 : k < 56
        · rw [if_pos (by omega), if_pos h3]
        · rw [if_neg (by omega), if_neg h3]
          congr 1
          omega
      · simp only [if_neg h56]
        by_cases h3 : k < 120
        · rw [if_pos (by omega), if_pos h3]
        · rw [if_neg (by omega), if_neg h3]
          congr 1
          omega

/-- `sha1_final` compresses the block or the two blocks of the padded pending bytes and leaves the last
of them in BUF (R86). -/
theorem hashFinal_blocks (h : HashState) :
    accOf (hashFinal h) =
      (messageBlocks (pendingBytes h ++ paddingOf h.off.val h.cnt)).foldl compressAcc (accOf h) ∧
    (hashFinal h).buf = messageBlock (pendingBytes h ++ paddingOf h.off.val h.cnt)
      ((messageBlocks (pendingBytes h ++ paddingOf h.off.val h.cnt)).length - 1) := by
  have hoff := h.off.isLt
  have hlen : (pendingBytes h ++ paddingOf h.off.val h.cnt).length =
      if h.off.val < 56 then 64 else 128 := by
    rw [List.length_append, pendingBytes_length, paddingOf_length _ _ hoff]
  have hget := padded_getD h h.cnt
  generalize pendingBytes h ++ paddingOf h.off.val h.cnt = p at hlen hget ⊢
  by_cases h56 : h.off.val < 56
  · simp only [if_pos h56] at hlen hget
    have hb : padLength (padMark h) h.cnt = messageBlock p 0 := by
      apply window_ext
      intro k hk
      rw [byteAt_messageBlock _ _ hk, byteAt_padLength _ _ hk, byteAt_padMark h hk,
        Nat.mul_zero, Nat.zero_add, hget]
      by_cases h3 : k < 56
      · simp [h3]
      · rw [if_neg h3, if_neg (by omega), if_neg (by omega), if_neg h3,
          bytesBE_getD _ _ (by omega)]
    have hp : padBlock h = withBuf h (padMark h) := by rw [padBlock, if_neg (by omega)]
    rw [messageBlocks_one p hlen]
    constructor
    · rw [hashFinal, accOf_closeHash, accOf_compress, accOf_lastBlock, lastBlock_buf, hp,
        accOf_withBuf, withBuf_buf, hb]
      rfl
    · rw [hashFinal, closeHash_buf, compress_buf, lastBlock_buf, hp, withBuf_buf, hb]
      rfl
  · simp only [if_neg h56] at hlen hget
    have hb0 : padMark h = messageBlock p 0 := by
      apply window_ext
      intro k hk
      rw [byteAt_messageBlock _ _ hk, byteAt_padMark h hk, Nat.mul_zero, Nat.zero_add, hget]
      simp [show k < 120 by omega]
    have hb1 : padLength (Vector.replicate 64 0x00) h.cnt = messageBlock p 1 := by
      apply window_ext
      intro k hk
      rw [byteAt_messageBlock _ _ hk, byteAt_padLength _ _ hk, hget,
        if_neg (show ¬64 * 1 + k < h.off.val by omega), if_neg (show ¬64 * 1 + k = h.off.val by omega)]
      by_cases h3 : k < 56
      · rw [if_pos h3, if_pos (by omega), byteAt_of_lt _ hk]
        simp
      · rw [if_neg h3, if_neg (by omega), bytesBE_getD _ _ (by omega),
          show 64 * 1 + k - 120 = k - 56 by omega]
    have hp : padBlock h = withBuf (compress (withBuf h (padMark h))) (Vector.replicate 64 0x00) := by
      rw [padBlock, if_pos (by omega)]
    have hbl : messageBlocks p = [messageBlock p 0, messageBlock p 1] := by
      simp [messageBlocks, hlen, List.range_succ]
    rw [hbl]
    constructor
    · rw [hashFinal, accOf_closeHash, accOf_compress, accOf_lastBlock, lastBlock_buf, hp,
        accOf_withBuf, withBuf_buf, accOf_compress, accOf_withBuf, withBuf_buf, hb0, hb1]
      rfl
    · rw [hashFinal, closeHash_buf, compress_buf, lastBlock_buf, hp, withBuf_buf, hb1]
      rfl

/-! ### A whole lifecycle (R87) -/

/-- The padding of a message depends on its length modulo 64 as that of its pending bytes does. -/
theorem paddedMessage_eq (m : List Byte) :
    paddedMessage m = m ++ paddingOf (m.length % 64) (BitVec.ofNat 64 (8 * m.length)) := by
  have hz : (119 - m.length % 64) % 64 =
      if m.length % 64 < 56 then 55 - m.length % 64 else 119 - m.length % 64 := by
    have := Nat.mod_lt m.length (show 0 < 64 by omega)
    split <;> omega
  rw [paddedMessage, paddingOf, hz]
  simp only [List.append_assoc]

theorem pendingBytes_hashInit (h : HashState) : pendingBytes (hashInit h) = [] := by
  simp [pendingBytes]

/-- A lifecycle over `m` leaves the accumulators of the whole padded message (R87). -/
theorem accOf_hashRun (h : HashState) (m : List Byte) :
    accOf (hashFinal (hashUpdate (hashInit h) m)) = accOf (messageHash m) := by
  obtain ⟨hacc, hpend⟩ := hashUpdate_pending (hashInit h) m
  obtain ⟨hfin, -⟩ := hashFinal_blocks (hashUpdate (hashInit h) m)
  have hoff : (hashUpdate (hashInit h) m).off.val = m.length % 64 := by
    rw [off_hashUpdate]
    simp
  have hcnt : (hashUpdate (hashInit h) m).cnt = BitVec.ofNat 64 (8 * m.length) := by
    have h0 : (hashInit h).cnt = 0 := by
      rw [HashState.cnt, hashInit_cntHi, hashInit_cntLo]
      rfl
    rw [cnt_hashUpdate, h0]
    simp
  rw [pendingBytes_hashInit, List.nil_append] at hacc hpend
  rw [hfin, hacc, hpend, hoff, hcnt, messageHash, accOf_foldl_compressBlock, ← List.foldl_append,
    paddedMessage_eq]
  have hi : accOf (hashInit h) = accOf (hashInit HashState.reset) := by simp [accOf]
  rw [hi]
  refine congrArg (fun bs => List.foldl compressAcc _ bs) ?_
  have hl : (m.take (64 * (m.length / 64))).length = 64 * (m.length / 64) := by
    rw [List.length_take]
    omega
  conv_rhs => rw [← List.take_append_drop (64 * (m.length / 64)) m, List.append_assoc]
  rw [messageBlocks_append _ _ _ hl, messageBlocks_take, List.take_append_drop]

theorem digest_hashRun (h : HashState) (m : List Byte) :
    digestOf (hashFinal (hashUpdate (hashInit h) m)) = messageDigest m :=
  digestOf_eq_of_accOf (accOf_hashRun h m)

@[simp] theorem sha1Run_messageDigest (m : List Byte) (s : State) :
    (sha1Run m s).digest = messageDigest m := by
  rw [sha1Run_digest, digest_hashRun]

/-- The number of compressions of a message of `n` bytes (R87). -/
theorem paddedMessage_blocks (m : List Byte) :
    (messageBlocks (paddedMessage m)).length = (m.length + 8) / 64 + 1 := by
  have hmod := Nat.mod_lt m.length (show 0 < 64 by omega)
  have hp := paddingOf_length (m.length % 64) (BitVec.ofNat 64 (8 * m.length)) hmod
  rw [messageBlocks_length, paddedMessage_eq, List.length_append]
  split at hp <;> omega

end Sys2Proof.Machine
end

