-- ==== Sys2Proof/Laws/Derive.lean ====
section
/-! SUPPORT. The HMAC processor and the derivations (41_hmac.md, 42_hotp.md, 43_totp.md): what `hmac` and
`hotp` leave is a function of the key in use, the digit count and the message, and of nothing else. -/

namespace Sys2Proof.Machine

/-! ### The key (R17, R101) -/

theorem keyByte_eq_of_agree {s s' : State} (hl : s.klen = s'.klen)
    (hk : ∀ j < s.klen.toNat, byteAt s.key j = byteAt s'.key j) (j : Nat) :
    keyByte s j = keyByte s' j := by
  rw [keyByte, keyByte, ← hl]
  split
  · rename_i h
    exact hk j h
  · rfl

theorem keyPad_eq_of_agree {s s' : State} (h : ∀ j, keyByte s j = keyByte s' j) (pad : Byte) :
    keyPad pad s = keyPad pad s' := by
  simp only [keyPad, h]

theorem keyBytes_length (s : State) (h : s.klen.toNat ≤ 64) : (keyBytes s).length = s.klen.toNat := by
  simp [keyBytes]
  exact h

/-- The pad block is the key, padded with zeros to 64 bytes, XORed with the pad byte (R100). -/
theorem keyPad_eq (pad : Byte) (s : State) (h : s.klen.toNat ≤ 64) :
    keyPad pad s =
      (keyBytes s ++ List.replicate (64 - (keyBytes s).length) 0x00).map (pad ^^^ ·) := by
  have hlen := keyBytes_length s h
  apply List.ext_getElem
  · simp [keyPad, hlen]
    omega
  · intro k h1 h2
    have hk : k < 64 := by simpa [keyPad] using h1
    simp only [keyPad, List.getElem_map, List.getElem_range, keyByte]
    by_cases hlt : k < s.klen.toNat
    · rw [if_pos hlt, List.getElem_append_left (by omega), byteAt_of_lt _ hk]
      simp [keyBytes]
    · rw [if_neg hlt, List.getElem_append_right (by omega), List.getElem_replicate]

/-! ### hmac (R101) -/

theorem keyByte_hmacInner (m : List Byte) (s : State) (j : Nat) :
    keyByte (hmacInner m s) j = keyByte s j := by
  simp [keyByte]

/-- The hash state `hmac(m)` leaves. -/
theorem hmac_hash (m : List Byte) (s : State) :
    (hmac m s).hash =
      hashFinal (hashUpdate (hashInit s.hash)
        (opad s ++ (messageDigest (ipad s ++ m)).toList)) := by
  rw [hmac, countHmac_hash, sha1Run_hash, hashRun_eq _ s.hash, hmacInner, sha1Run_messageDigest]

theorem hmac_digest (m : List Byte) (s : State) :
    (hmac m s).digest = messageDigest (opad s ++ (messageDigest (ipad s ++ m)).toList) := by
  rw [hmac, countHmac_digest, sha1Run_messageDigest, hmacInner, sha1Run_messageDigest]

theorem hmac_digest_eq_digestOf (m : List Byte) (s : State) :
    (hmac m s).digest = digestOf (hmac m s).hash := by
  rw [hmac_digest, hmac_hash, digest_hashRun]

/-- `hmac(m)` computes HMAC-SHA1 of the message under KEY[0..KLEN-1] (R100). -/
theorem hmac_digest_eq_macDigest (m : List Byte) (s : State) (h : s.klen.toNat ≤ 64) :
    (hmac m s).digest = macDigest (keyBytes s) m := by
  rw [hmac_digest, opad, ipad, keyPad_eq _ s h, keyPad_eq _ s h, macDigest]

@[simp] theorem hmac_phase (m : List Byte) (s : State) : (hmac m s).hash.phase = .done := by
  rw [hmac_hash, hashFinal_phase]

@[simp] theorem hmac_off (m : List Byte) (s : State) : (hmac m s).hash.off = 0 := by
  rw [hmac_hash, hashFinal_off]

@[simp] theorem cnt_hashInit (h : HashState) : (hashInit h).cnt = 0 := by
  rw [HashState.cnt, hashInit_cntHi, hashInit_cntLo]
  rfl

@[simp] theorem cnt_hashFinal (h : HashState) : (hashFinal h).cnt = h.cnt := by
  rw [hashFinal, cnt_closeHash, cnt_compress, cnt_lastBlock]
  rw [padBlock]
  split <;> simp

theorem digest_toList_length (g : Vector Byte 20) : g.toList.length = 20 := by simp

/-- The outer lifecycle takes 84 bytes (R102). -/
@[simp] theorem hmac_cnt (m : List Byte) (s : State) : (hmac m s).hash.cnt = 672 := by
  rw [hmac_hash, cnt_hashFinal, cnt_hashUpdate, cnt_hashInit]
  have hl : (opad s ++ (messageDigest (ipad s ++ m)).toList).length = 84 := by
    simp [opad, keyPad]
  rw [hl]
  rfl

/-- What `hmac` leaves depends on the key bytes in use and the message alone (R101). -/
theorem hmac_agree {s s' : State} (h : ∀ j, keyByte s j = keyByte s' j) (m : List Byte) :
    (hmac m s).hash = (hmac m s').hash ∧ (hmac m s).digest = (hmac m s').digest := by
  have hi : ipad s = ipad s' := keyPad_eq_of_agree h _
  have ho : opad s = opad s' := keyPad_eq_of_agree h _
  rw [hmac_hash, hmac_hash, hmac_digest, hmac_digest, hi, ho]
  exact ⟨hashRun_eq _ _ _, rfl⟩

/-- `hmac` writes the hash state, DIGEST, DVALID and HMACCNT and nothing else (R101, R104). -/
theorem hmac_frame (m : List Byte) (s : State) :
    hmac m s = { s with hash := (hmac m s).hash, digest := (hmac m s).digest, dvalid := true,
                        hmaccnt := s.hmaccnt + 1 } := by
  ext1 <;> simp

/-! ### hotp (R113) -/

@[simp] theorem hotp_code (s : State) (c : DWord) :
    (hotp c s).code =
      BitVec.ofNat 32 ((truncate (hmac (bytesBE 8 c) s).digest).toNat %
        10 ^ (digitsOf s.digits).val) := by
  simp [hotp]

@[simp] theorem hotp_out (s : State) (c : DWord) :
    (hotp c s).out = Vector.ofFn fun i : Fin 11 =>
      renderByte (hotp c s).code (digitsOf s.digits).val i.val := by
  rw [hotp_code]
  simp [hotp]

/-- `hotp` writes what R113 lists and nothing else. -/
theorem hotp_frame (c : DWord) (s : State) :
    hotp c s = { s with hash := (hotp c s).hash, digest := (hotp c s).digest, dvalid := true,
                        hmaccnt := s.hmaccnt + 1, bincode := (hotp c s).bincode,
                        code := (hotp c s).code, out := (hotp c s).out,
                        olen := digitsOf s.digits } := by
  ext1 <;> simp

/-- Two states whose derivations read the same key bytes and digit count derive the same results. -/
theorem hotp_agree {s s' : State} (h : ∀ j, keyByte s j = keyByte s' j)
    (hd : digitsOf s.digits = digitsOf s'.digits) (c : DWord) :
    (hotp c s).hash = (hotp c s').hash ∧ (hotp c s).digest = (hotp c s').digest ∧
    (hotp c s).bincode = (hotp c s').bincode ∧ (hotp c s).code = (hotp c s').code ∧
    (hotp c s).out = (hotp c s').out := by
  obtain ⟨e1, e2⟩ := hmac_agree h (bytesBE 8 c)
  have e3 : (hotp c s).code = (hotp c s').code := by rw [hotp_code, hotp_code, e2, hd]
  refine ⟨by rw [hotp_hash, hotp_hash, e1], by rw [hotp_digest, hotp_digest, e2],
    by rw [hotp_bincode, hotp_bincode, e2], e3, by rw [hotp_out, hotp_out, e3, hd]⟩

/-- Deriving a second time changes nothing but HMACCNT: what makes the step cache transparent (R131). -/
theorem hotp_again {s t : State} (c : DWord) (hk : t.key = s.key) (hl : t.klen = s.klen)
    (hd : t.digits = s.digits) (e1 : t.hash = (hotp c s).hash) (e2 : t.digest = (hotp c s).digest)
    (e3 : t.dvalid = true) (e4 : t.bincode = (hotp c s).bincode) (e5 : t.code = (hotp c s).code)
    (e6 : t.out = (hotp c s).out) (e7 : t.olen = digitsOf s.digits) :
    hotp c t = { t with hmaccnt := t.hmaccnt + 1 } := by
  have hkb : ∀ j, keyByte t j = keyByte s j := fun j => by rw [keyByte, keyByte, hk, hl]
  obtain ⟨a1, a2, a3, a4, a5⟩ := hotp_agree hkb (by rw [hd]) c
  rw [hotp_frame c t, a1, a2, a3, a4, a5, ← e1, ← e2, ← e4, ← e5, ← e6, hd, ← e7, ← e3]

end Sys2Proof.Machine
end

