-- ==== Sys2Proof/Laws/Render.lean ====
section
/-! SUPPORT. Dynamic truncation, the digit count and decimal rendering (42_hotp.md R111, R112, R115), and
the coherence of the step cache (43_totp.md R130, R131) field by field. -/

namespace Sys2Proof.Machine

/-! ### truncate (R111) -/

/-- The four bytes at the offset of the last nibble, without the top bit (R111). -/
theorem truncate_toNat (g : Vector Byte 20) :
    (truncate g).toNat =
      (byteAt g ((byteAt g 19).toNat % 16)).toNat % 128 * 2 ^ 24 +
      (byteAt g ((byteAt g 19).toNat % 16 + 1)).toNat * 2 ^ 16 +
      (byteAt g ((byteAt g 19).toNat % 16 + 2)).toNat * 2 ^ 8 +
      (byteAt g ((byteAt g 19).toNat % 16 + 3)).toNat := by
  have ho : (byteAt g 19 &&& 0x0F).toNat = (byteAt g 19).toNat % 16 := by
    rw [BitVec.toNat_and]
    exact Nat.and_two_pow_sub_one_eq_mod _ 4
  have hm : ∀ b : Byte, (b &&& 0x7F).toNat = b.toNat % 128 := by
    intro b
    rw [BitVec.toNat_and]
    exact Nat.and_two_pow_sub_one_eq_mod _ 7
  rw [truncate]
  simp only [ho, be32, BitVec.toNat_append]
  rw [← Nat.shiftLeft_add_eq_or_of_lt (BitVec.isLt _), ← Nat.shiftLeft_add_eq_or_of_lt (BitVec.isLt _),
    ← Nat.shiftLeft_add_eq_or_of_lt (BitVec.isLt _)]
  simp only [Nat.shiftLeft_eq, hm]
  omega

theorem truncate_lt (g : Vector Byte 20) : (truncate g).toNat < 2 ^ 31 := by
  have h0 := Nat.mod_lt (byteAt g ((byteAt g 19).toNat % 16)).toNat (show 0 < 128 by omega)
  have h1 := (byteAt g ((byteAt g 19).toNat % 16 + 1)).isLt
  have h2 := (byteAt g ((byteAt g 19).toNat % 16 + 2)).isLt
  have h3 := (byteAt g ((byteAt g 19).toNat % 16 + 3)).isLt
  rw [truncate_toNat]
  omega

/-! ### digits_of (R112) -/

theorem digitsOf_val (v : Byte) : (digitsOf v).val = if v = 7 then 7 else if v = 8 then 8 else 6 := by
  rw [digitsOf]
  by_cases h6 : v = 6
  · subst h6
    rfl
  · rw [if_neg h6]
    by_cases h7 : v = 7
    · rw [if_pos h7, if_pos h7]
      rfl
    · rw [if_neg h7, if_neg h7]
      split <;> rfl

theorem digitsOf_unsupported {v : Byte} (h6 : v ≠ 6) (h7 : v ≠ 7) (h8 : v ≠ 8) : digitsOf v = 6 := by
  rw [digitsOf, if_neg h6, if_neg h7, if_neg h8]

/-! ### render (R115) -/

theorem renderByte_toNat (c : Word) (w i : Nat) (h : i < w) :
    (renderByte c w i).toNat = 0x30 + c.toNat / 10 ^ (w - 1 - i) % 10 := by
  have := Nat.mod_lt (c.toNat / 10 ^ (w - 1 - i)) (show 0 < 10 by omega)
  rw [renderByte, if_pos h, BitVec.toNat_add, BitVec.toNat_ofNat]
  change (48 + _) % 256 = _
  omega

theorem renderByte_tail (c : Word) (w i : Nat) (h : w ≤ i) : renderByte c w i = 0x00 := by
  rw [renderByte, if_neg (by omega)]

theorem decimalValue_append (xs : List Byte) (c : Byte) :
    decimalValue (xs ++ [c]) = decimalValue xs * 10 + (c.toNat - 0x30) := by
  rw [decimalValue, List.foldl_append]
  rfl

/-- The first `k` of `w` characters spell the number without its last `w - k` digits. -/
theorem decimalValue_prefix (c : Word) (w k : Nat) (hk : k ≤ w) :
    decimalValue ((List.range k).map (renderByte c w)) = c.toNat / 10 ^ (w - k) % 10 ^ k := by
  induction k with
  | zero => simp [decimalValue, Nat.mod_one]
  | succ k ih =>
    rw [List.range_succ, List.map_append, List.map_singleton, decimalValue_append, ih (by omega),
      renderByte_toNat c w k (by omega), show w - 1 - k = w - (k + 1) by omega,
      show w - k = w - (k + 1) + 1 by omega]
    generalize w - (k + 1) = e
    rw [Nat.pow_succ, ← Nat.div_div_eq_div_mul, Nat.add_sub_cancel_left]
    generalize c.toNat / 10 ^ e = x
    rw [Nat.pow_succ, Nat.mul_comm (10 ^ k) 10, Nat.mod_mul]
    omega

/-- The characters `render(w)` writes spell CODE modulo `10^w` (R115). -/
theorem decimalValue_render (w : Fin 11) (s : State) :
    decimalValue ((render w s).out.toList.take w.val) = s.code.toNat % 10 ^ w.val := by
  have ht : (render w s).out.toList.take w.val = (List.range w.val).map (renderByte s.code w.val) := by
    rw [render_out]
    apply List.ext_getElem
    · simp
    · intro i h1 h2
      simp
  rw [ht, decimalValue_prefix _ _ _ (Nat.le_refl _), Nat.sub_self, Nat.pow_zero, Nat.div_one]

theorem byteAt_render (w : Fin 11) (s : State) {k : Nat} (hk : k < 11) :
    byteAt (render w s).out k = renderByte s.code w.val k := by
  rw [render_out, byteAt_ofFn _ hk]

/-- `hotp` ends by rendering CODE, so rendering its result again writes the same string (R113). -/
theorem hotp_out_eq_render (c : DWord) (s : State) :
    (hotp c s).out = (render (digitsOf s.digits) (hotp c s)).out := by
  rw [hotp_out, render_out]

/-! ### The step cache (R130, R131) -/

/-- What a derivation leaves, written over another state with the same key, digit count and HMACCNT. -/
theorem hotp_of_agree (c : DWord) {s t : State} (hk : t.key = s.key) (hl : t.klen = s.klen)
    (hd : t.digits = s.digits) (hn : t.hmaccnt = s.hmaccnt) :
    hotp c t = { t with hash := (hotp c s).hash, digest := (hotp c s).digest, dvalid := true,
                        hmaccnt := s.hmaccnt + 1, bincode := (hotp c s).bincode,
                        code := (hotp c s).code, out := (hotp c s).out,
                        olen := digitsOf s.digits } := by
  have hkb : ∀ j, keyByte t j = keyByte s j := fun j => by rw [keyByte, keyByte, hk, hl]
  obtain ⟨a1, a2, a3, a4, a5⟩ := hotp_agree hkb (by rw [hd]) c
  rw [hotp_frame c t, a1, a2, a3, a4, a5, hd, hn]

/-- That recomputing a step changes nothing but HMACCNT, field by field. -/
theorem hotp_eq_self_iff (c : DWord) (s : State) :
    hotp c s = { s with hmaccnt := s.hmaccnt + 1 } ↔
      (hotp c s).hash = s.hash ∧ (hotp c s).digest = s.digest ∧ s.dvalid = true ∧
      (hotp c s).bincode = s.bincode ∧ (hotp c s).code = s.code ∧ (hotp c s).out = s.out ∧
      digitsOf s.digits = s.olen := by
  constructor
  · intro h
    have h1 := congrArg State.hash h
    have h2 := congrArg State.digest h
    have h3 := congrArg State.dvalid h
    have h4 := congrArg State.bincode h
    have h5 := congrArg State.code h
    have h6 := congrArg State.out h
    have h7 := congrArg State.olen h
    rw [hotp_dvalid] at h3
    rw [hotp_olen] at h7
    exact ⟨h1, h2, h3.symm, h4, h5, h6, h7⟩
  · rintro ⟨e1, e2, e3, e4, e5, e6, e7⟩
    rw [hotp_frame c s, e1, e2, e4, e5, e6, e7, ← e3]

/-- Two states with the same parameters, results and cached step are coherent together (R131). -/
theorem CacheCoherent.of_same {s t : State} (h : CacheCoherent s)
    (cvalid : t.cvalid = true → s.cvalid = true) (cstep : t.cstep = s.cstep) (key : t.key = s.key)
    (klen : t.klen = s.klen) (digits : t.digits = s.digits) (hash : t.hash = s.hash)
    (digest : t.digest = s.digest) (dvalid : t.dvalid = s.dvalid) (bincode : t.bincode = s.bincode)
    (code : t.code = s.code) (out : t.out = s.out) (olen : t.olen = s.olen) : CacheCoherent t := by
  intro hc
  have h' := h (cvalid hc)
  rw [hotp_eq_self_iff] at h' ⊢
  have hkb : ∀ j, keyByte t j = keyByte s j := fun j => by rw [keyByte, keyByte, key, klen]
  obtain ⟨a1, a2, a3, a4, a5⟩ := hotp_agree hkb (by rw [digits]) s.cstep
  rw [cstep, a1, a2, a3, a4, a5, digits, hash, digest, dvalid, bincode, code, out, olen]
  exact h'

/-- A state without a valid cached step is coherent. -/
theorem CacheCoherent.of_clear {s : State} (h : s.cvalid = false) : CacheCoherent s := by
  intro hc
  rw [h] at hc
  cases hc

/-- A computing TOTP.DERIVE leaves a coherent cached step (R129, R130). -/
theorem cacheCoherent_totpCompute (s : State) : CacheCoherent (totpCompute s) := by
  intro _
  have h := hotp_again (s := s) (t := totpCompute s) (timeStep s) (by simp) (by simp) (by simp)
    (totpCompute_hash s) (totpCompute_digest s) (totpCompute_dvalid s) (totpCompute_bincode s)
    (totpCompute_code s) (totpCompute_out s) (totpCompute_olen s)
  conv_lhs => rw [totpCompute_cstep]
  exact h

end Sys2Proof.Machine
end

