-- ==== Sys2Proof/Laws/Port.lean ====
section
/-! SUPPORT. The data port (20_memory.md): the regions do not overlap, a write stores one byte, a read
sees registers only, and the register space as a list of cells is in canonical form. -/

namespace Sys2Proof.Machine

/-! ### Bytes of a number (R49) -/

theorem byteBE_toNat {w : Nat} (n : Nat) (v : BitVec w) (k : Nat) :
    (byteBE n v k).toNat = v.toNat / 2 ^ (8 * (n - 1 - k)) % 256 := by
  rw [byteBE, BitVec.extractLsb'_toNat, Nat.shiftRight_eq_div_pow]

/-- Replacing byte `k` of a number changes that byte and no other (R49). -/
theorem byteBE_putByteBE {w : Nat} (n : Nat) (v : BitVec w) (k : Nat) (b : Byte) (j : Nat)
    (hw : w = 8 * n) (hk : k < n) (hj : j < n) :
    byteBE n (putByteBE n v k b) j = if j = k then b else byteBE n v j := by
  apply BitVec.eq_of_getLsbD_eq
  intro i hi
  simp only [byteBE, putByteBE, BitVec.getLsbD_extractLsb', hi, decide_true, Bool.true_and,
    BitVec.getLsbD_or, BitVec.getLsbD_and, BitVec.getLsbD_not, BitVec.getLsbD_shiftLeft,
    BitVec.getLsbD_setWidth]
  by_cases e : j = k
  · subst e
    have h1 : 8 * (n - 1 - j) + i < w := by omega
    have h2 : ¬8 * (n - 1 - j) + i < 8 * (n - 1 - j) := by omega
    have h3 : 8 * (n - 1 - j) + i - 8 * (n - 1 - j) = i := by omega
    have h4 : i < w := by omega
    have h5 : (0xFF#8).getLsbD i = true := by
      have : ∀ i < 8, (0xFF#8).getLsbD i = true := by decide
      exact this i hi
    simp [h1, h3, h4, h5]
  · rw [if_neg e, BitVec.getLsbD_extractLsb']
    have h1 : 8 * (n - 1 - j) + i < w := by omega
    by_cases hlt : 8 * (n - 1 - j) + i < 8 * (n - 1 - k)
    · simp [h1, hlt, hi]
    · have h5 : 8 ≤ 8 * (n - 1 - j) + i - 8 * (n - 1 - k) := by omega
      simp [h1, hlt, hi, BitVec.getLsbD_of_ge _ _ h5]

/-! ### Regions (R42) -/

/-- The regions stand in the map by rising address and do not overlap (R42). -/
theorem regMap_sorted : regMap.Pairwise fun r q => r.base + r.size ≤ q.base := by decide

/-- Every region lies in the register space (R41). -/
theorem regMap_inside : ∀ r ∈ regMap, r.base + r.size ≤ 1024 := by decide

theorem holds_iff (r : Region) (a : Nat) : r.holds a = true ↔ r.base ≤ a ∧ a < r.base + r.size := by
  simp [Region.holds]

theorem find?_holds_of_sorted (l : List Region)
    (hl : l.Pairwise fun r q => r.base + r.size ≤ q.base) (r : Region) (hr : r ∈ l) (a : Nat)
    (ha : r.holds a = true) : (l.find? fun q => q.holds a) = some r := by
  induction l with
  | nil => simp at hr
  | cons q l ih =>
    rw [List.pairwise_cons] at hl
    rcases List.mem_cons.mp hr with rfl | hmem
    · exact List.find?_cons_of_pos (p := fun q : Region => q.holds a) ha
    · have hq : q.holds a = false := by
        have h1 := hl.1 r hmem
        rw [holds_iff] at ha
        rw [Bool.eq_false_iff, Ne, holds_iff]
        omega
      rw [List.find?_cons_of_neg (p := fun q : Region => q.holds a) (by simp [hq]), ih hl.2 hmem]

/-- The region at an address is the one that holds it (R42). -/
theorem regionAt_iff (a : Nat) (r : Region) :
    regionAt a = some r ↔ r ∈ regMap ∧ r.base ≤ a ∧ a < r.base + r.size := by
  rw [← holds_iff]
  constructor
  · intro h
    exact ⟨List.mem_of_find?_eq_some h, by simpa using List.find?_some h⟩
  · rintro ⟨hr, ha⟩
    exact find?_holds_of_sorted regMap regMap_sorted r hr a ha

theorem regionAt_none_iff (a : Nat) :
    regionAt a = none ↔ ∀ r ∈ regMap, ¬(r.base ≤ a ∧ a < r.base + r.size) := by
  rw [regionAt, List.find?_eq_none]
  simp only [holds_iff]

/-- The region named `r` starts and ends where the map says. -/
theorem memRead_of_region {r : Region} (hr : r ∈ regMap) (s : State) {k : Nat} (hk : k < r.size) :
    memRead s (r.base + k) = readReg s r.name k := by
  have hin := regMap_inside r hr
  have ha : portAddr (r.base + k) = r.base + k := by
    rw [portAddr, Config.regSpaceBytes]
    omega
  rw [memRead, ha, (regionAt_iff _ _).mpr ⟨hr, by omega, by omega⟩]
  show readReg s r.name (r.base + k - r.base) = _
  rw [Nat.add_sub_cancel_left]

theorem memRead_of_reserved {a : Nat} (h : regionAt (portAddr a) = none) (s : State) :
    memRead s a = 0x00 := by
  rw [memRead, h]

/-- The registers of the map have the names of the map once each. -/
theorem region_eq_of_name : ∀ r ∈ regMap, ∀ q ∈ regMap, r.name = q.name → r = q := by decide

/-- The writable addresses are those of the map's writable regions (R42). -/
theorem hostWritable_iff (a : Nat) : hostWritable a ↔ ∃ r, regionAt a = some r ∧ r.access = .rw := by
  simp only [regionAt_iff]
  simp only [regMap, hostWritable, List.cons_append, List.nil_append]
  constructor
  · intro h
    rcases h with h|h|h|h|h|h|h|h|h|h|h|h
    · exact ⟨⟨.klen, 0x002, 1, .rw, true⟩, ⟨by simp, by simp; omega⟩, rfl⟩
    · exact ⟨⟨.digits, 0x003, 1, .rw, true⟩, ⟨by simp, by simp; omega⟩, rfl⟩
    · exact ⟨⟨.ctr, 0x008, 8, .rw, false⟩, ⟨by simp, by simp; omega⟩, rfl⟩
    · exact ⟨⟨.ts, 0x010, 8, .rw, false⟩, ⟨by simp, by simp; omega⟩, rfl⟩
    · exact ⟨⟨.tstep, 0x018, 4, .rw, true⟩, ⟨by simp, by simp; omega⟩, rfl⟩
    · exact ⟨⟨.clk, 0x01C, 4, .rw, false⟩, ⟨by simp, by simp; omega⟩, rfl⟩
    · exact ⟨⟨.tzoff, 0x020, 4, .rw, false⟩, ⟨by simp, by simp; omega⟩, rfl⟩
    · exact ⟨⟨.code, 0x028, 4, .rw, true⟩, ⟨by simp, by simp; omega⟩, rfl⟩
    · exact ⟨⟨.key, 0x080, 64, .rw, true⟩, ⟨by simp, by simp; omega⟩, rfl⟩
    · exact ⟨⟨.dkey, 0x0C0, 20, .rw, false⟩, ⟨by simp, by simp; omega⟩, rfl⟩
    · exact ⟨⟨.esec, 0x0E0, 20, .rw, false⟩, ⟨by simp, by simp; omega⟩, rfl⟩
    · exact ⟨⟨.msg, 0x100, 256, .rw, false⟩, ⟨by simp, by simp; omega⟩, rfl⟩
  · rintro ⟨r, ⟨hr, h⟩, hacc⟩
    simp only [List.mem_cons, List.not_mem_nil, or_false] at hr
    rcases hr with rfl|rfl|rfl|rfl|rfl|rfl|rfl|rfl|rfl|rfl|rfl|rfl|rfl|rfl|rfl|rfl|rfl|rfl|rfl|rfl|rfl|rfl|rfl|rfl|rfl|rfl|rfl|rfl|rfl <;>
      first | (exact absurd hacc (by decide)) | (simp only at h; omega)

/-! ### Reads see registers only (R45) -/

/-- STATUS as a number (R33). -/
theorem status_toNat (s : State) : s.status.toNat =
    bit s.faulted * 128 + bit s.cvalid * 8 + bit s.dvalid * 4 + s.hash.phase.code := by
  rw [State.status, BitVec.toNat_ofNat, Nat.mod_eq_of_lt]
  cases s.faulted <;> cases s.cvalid <;> cases s.dvalid <;> cases s.hash.phase <;> decide

/-- If an address's byte of its register is the same in two states, the address reads the same. -/
theorem memRead_congr {s t : State} {a : Nat}
    (h : ∀ r, regionAt (portAddr a) = some r →
      readReg t r.name (portAddr a - r.base) = readReg s r.name (portAddr a - r.base)) :
    memRead t a = memRead s a := by
  rw [memRead, memRead]
  cases hr : regionAt (portAddr a) with
  | none => rfl
  | some r => exact h r hr

theorem readReg_pending (s : State) (p : List HostAction) (r : RegName) (k : Nat) :
    readReg { s with pending := p } r k = readReg s r k := by
  cases r <;> rfl

theorem readReg_returned (s : State) (o : List Byte) (r : RegName) (k : Nat) :
    readReg { s with returned := o } r k = readReg s r k := by
  cases r <;> rfl

@[simp] theorem memRead_pending (s : State) (p : List HostAction) (a : Nat) :
    memRead { s with pending := p } a = memRead s a :=
  memRead_congr fun r _ => readReg_pending s p r.name _

/-! ### Writes (R46 to R48) -/

theorem writeRegion_ro {r : Region} (h : r.access = .ro) (s : State) (k : Nat) (v : Byte) :
    writeRegion s r k v = s := by
  rw [writeRegion, h]

theorem writeRegion_rw {r : Region} (h : r.access = .rw) (s : State) (k : Nat) (v : Byte) :
    writeRegion s r k v =
      if r.clearsCvalid then clearCvalid (writeReg s r.name k v) else writeReg s r.name k v := by
  rw [writeRegion, h]

/-- Everything a data-port write can do: nothing, or one byte of a writable region (R46 to R48). -/
theorem memWrite_cases (s : State) (a : Nat) (v : Byte) :
    memWrite s a v = s ∨
    ∃ r, regionAt (portAddr a) = some r ∧ r.access = .rw ∧
      memWrite s a v = if r.clearsCvalid then clearCvalid (writeReg s r.name (portAddr a - r.base) v)
        else writeReg s r.name (portAddr a - r.base) v := by
  rw [memWrite]
  cases hr : regionAt (portAddr a) with
  | none => exact .inl rfl
  | some r =>
    cases hacc : r.access with
    | ro => exact .inl (writeRegion_ro hacc _ _ _)
    | rw => exact .inr ⟨r, rfl, hacc, writeRegion_rw hacc _ _ _⟩

/-- A write to one register leaves every other register's bytes alone (R46). -/
theorem readReg_writeReg_ne (s : State) {r q : RegName} (h : q ≠ r) (k : Nat) (v : Byte) (j : Nat) :
    readReg (writeReg s r k v) q j = readReg s q j := by
  cases r <;> first | rfl | (cases q <;> first | rfl | exact absurd rfl h)

/-- Clearing CVALID shows in STATUS alone (R33). -/
theorem readReg_clearCvalid (s : State) {q : RegName} (h : q ≠ .status) (j : Nat) :
    readReg (clearCvalid s) q j = readReg s q j := by
  cases q <;> first | rfl | exact absurd rfl h

/-- A write to a byte of a writable region replaces that byte and no other of the region (R46). -/
theorem readReg_writeReg_same (s : State) {r : Region} (hr : r ∈ regMap) (hacc : r.access = .rw)
    {k j : Nat} (hk : k < r.size) (hj : j < r.size) (v : Byte) :
    readReg (writeReg s r.name k v) r.name j = if j = k then v else readReg s r.name j := by
  simp only [regMap, List.cons_append, List.nil_append, List.mem_cons, List.not_mem_nil,
    or_false] at hr
  rcases hr with rfl | rfl | rfl | rfl | rfl | rfl | rfl | rfl | rfl | rfl | rfl | rfl | rfl | rfl |
    rfl | rfl | rfl | rfl | rfl | rfl | rfl | rfl | rfl | rfl | rfl | rfl | rfl | rfl | rfl <;>
    first
    | exact absurd hacc (by decide)
    | (simp only at hk hj
       simp only [readReg, writeReg]
       first
       | exact byteBE_putByteBE _ _ _ _ _ (by decide) hk hj
       | (rw [byteAt_putAt]; simp [hk])
       | (rw [if_pos (by omega)]))

/-- A write never touches what only commands write (R43, R48). -/
theorem memWrite_frame (s : State) (a : Nat) (v : Byte) :
    (memWrite s a v).hash = s.hash ∧ (memWrite s a v).digest = s.digest ∧
    (memWrite s a v).dvalid = s.dvalid ∧ (memWrite s a v).out = s.out ∧
    (memWrite s a v).olen = s.olen ∧ (memWrite s a v).bincode = s.bincode ∧
    (memWrite s a v).cstep = s.cstep ∧ (memWrite s a v).err = s.err ∧
    (memWrite s a v).faulted = s.faulted ∧ (memWrite s a v).hmaccnt = s.hmaccnt ∧
    (memWrite s a v).pending = s.pending ∧ (memWrite s a v).returned = s.returned := by
  rcases memWrite_cases s a v with h | ⟨r, -, -, h⟩
  · rw [h]
    simp
  · have hw : ∀ n k, (writeReg s n k v).hash = s.hash ∧ (writeReg s n k v).digest = s.digest ∧
        (writeReg s n k v).dvalid = s.dvalid ∧ (writeReg s n k v).out = s.out ∧
        (writeReg s n k v).olen = s.olen ∧ (writeReg s n k v).bincode = s.bincode ∧
        (writeReg s n k v).cstep = s.cstep ∧ (writeReg s n k v).err = s.err ∧
        (writeReg s n k v).faulted = s.faulted ∧ (writeReg s n k v).hmaccnt = s.hmaccnt ∧
        (writeReg s n k v).pending = s.pending ∧ (writeReg s n k v).returned = s.returned := by
      intro n k
      cases n <;> exact ⟨rfl, rfl, rfl, rfl, rfl, rfl, rfl, rfl, rfl, rfl, rfl, rfl⟩
    rw [h]
    split
    · simpa using hw r.name (portAddr a - r.base)
    · exact hw r.name (portAddr a - r.base)

/-! ### The register space as cells -/

/-- The list of cells of a register space is in canonical form: rising addresses, no zero bytes. -/
theorem registerCells_wf (s : State) : Memory.wf (registerCells s) := by
  constructor
  · rw [registerCells, List.pairwise_filterMap]
    refine List.Pairwise.imp ?_ List.pairwise_lt_range
    intro a b hab x hx y hy
    split at hx
    · simp at hx
    · split at hy
      · simp at hy
      · rw [Option.some.injEq] at hx hy
        rw [← hx, ← hy]
        exact hab
  · intro c hc
    rw [registerCells, List.mem_filterMap] at hc
    obtain ⟨a, ha, hc⟩ := hc
    split at hc
    · simp at hc
    · rename_i hne
      rw [Option.some.injEq] at hc
      rw [← hc]
      exact ⟨List.mem_range.mp ha, hne⟩

/-- A list of the cells of some addresses holds the byte of each address it was made from. -/
theorem Memory.read_cells (g : Nat → Byte) (l : List Nat) (a : Nat) :
    Memory.read (l.filterMap fun x => if g x = 0x00 then none else some (x, g x)) a =
      if a ∈ l then g a else 0x00 := by
  induction l with
  | nil => rfl
  | cons x l ih =>
    by_cases hg : g x = 0x00
    · rw [List.filterMap_cons_none (by rw [if_pos hg]), ih]
      by_cases hx : a = x
      · subst hx
        simp [hg]
      · simp [hx]
    · rw [List.filterMap_cons_some (by rw [if_neg hg])]
      by_cases hx : a = x
      · subst hx
        simp [Memory.read]
      · rw [Memory.read, List.find?_cons_of_neg (by simpa using Ne.symm hx), ← Memory.read, ih]
        simp [hx]

/-- The list of cells holds every address's byte (R41, R45). -/
theorem registerCells_read (s : State) {a : Nat} (ha : a < 1024) :
    Memory.read (registerCells s) a = memRead s a := by
  rw [registerCells, Memory.read_cells, Config.regSpaceBytes, if_pos (List.mem_range.mpr ha)]

/-- Every operation of the port keeps the form, since the list is computed from the state. -/
theorem memWrite_cells_wf (s : State) (a : Nat) (v : Byte) :
    Memory.wf (registerCells (memWrite s a v)) := registerCells_wf _

end Sys2Proof.Machine
end

