-- ==== Sys2Proof/Laws/Pending.lean ====
section
/-! SUPPORT. What is pending behind a transaction does not change what it does (20_memory.md R55): every
operation commutes with replacing the list of pending transactions. -/

namespace Sys2Proof.Machine

/-- The state with another list of pending transactions. -/
def withPending (p : List HostAction) (s : State) : State := { s with pending := p }

theorem clearCvalid_withPending (p : List HostAction) (s : State) :
    clearCvalid (withPending p s) = withPending p (clearCvalid s) := by
  unfold clearCvalid withPending; rfl

theorem unsetDigest_withPending (p : List HostAction) (s : State) :
    unsetDigest (withPending p s) = withPending p (unsetDigest s) := by
  unfold unsetDigest withPending; rfl

theorem unsetCode_withPending (p : List HostAction) (s : State) :
    unsetCode (withPending p s) = withPending p (unsetCode s) := by
  unfold unsetCode clearString unsetDigest withPending; rfl

theorem render_withPending (p : List HostAction) (w : Fin 11) (s : State) :
    render w (withPending p s) = withPending p (render w s) := by
  unfold render withPending; rfl

theorem sha1Init_withPending (p : List HostAction) (s : State) :
    sha1Init (withPending p s) = withPending p (sha1Init s) := by
  unfold sha1Init withPending; rfl

theorem sha1Update_withPending (p : List HostAction) (bs : List Byte) (s : State) :
    sha1Update bs (withPending p s) = withPending p (sha1Update bs s) := by
  unfold sha1Update withPending; rfl

theorem sha1Final_withPending (p : List HostAction) (s : State) :
    sha1Final (withPending p s) = withPending p (sha1Final s) := by
  unfold sha1Final emitDigest finishHash withPending; rfl

theorem sha1Run_withPending (p : List HostAction) (m : List Byte) (s : State) :
    sha1Run m (withPending p s) = withPending p (sha1Run m s) := by
  rw [sha1Run, sha1Init_withPending, sha1Update_withPending, sha1Final_withPending, ← sha1Run]

theorem keyPad_withPending (p : List HostAction) (pad : Byte) (s : State) :
    keyPad pad (withPending p s) = keyPad pad s := by
  unfold keyPad keyByte withPending; rfl

theorem hmac_withPending (p : List HostAction) (m : List Byte) (s : State) :
    hmac m (withPending p s) = withPending p (hmac m s) := by
  have hi : hmacInner m (withPending p s) = withPending p (hmacInner m s) := by
    rw [hmacInner, ipad, keyPad_withPending, sha1Run_withPending, ← ipad, ← hmacInner]
  have hd : (withPending p (hmacInner m s)).digest = (hmacInner m s).digest := by rw [withPending]
  have hc : ∀ t, countHmac (withPending p t) = withPending p (countHmac t) := by
    intro t
    unfold countHmac withPending
    rfl
  rw [hmac, hi, opad, keyPad_withPending, hd, sha1Run_withPending, hc, ← opad, ← hmac]

theorem setBincode_withPending (p : List HostAction) (s : State) :
    setBincode (withPending p s) = withPending p (setBincode s) := by
  unfold setBincode withPending; rfl

theorem setCode_withPending (p : List HostAction) (d : Nat) (s : State) :
    setCode d (withPending p s) = withPending p (setCode d s) := by
  unfold setCode withPending; rfl

theorem hotp_withPending (p : List HostAction) (c : DWord) (s : State) :
    hotp c (withPending p s) = withPending p (hotp c s) := by
  have hd : (withPending p s).digits = s.digits := by rw [withPending]
  rw [hotp, hmac_withPending, setBincode_withPending, setCode_withPending, render_withPending, hd,
    ← hotp]

/-- The body of a command with another list pending. -/
def BodyEnd.withPending (p : List HostAction) : BodyEnd → BodyEnd
  | .done s => .done (Machine.withPending p s)
  | .raised c s => .raised c (Machine.withPending p s)

theorem commandBody_withPending (p : List HostAction) (i : Instr) (s : State) :
    commandBody i (withPending p s) = (commandBody i s).withPending p := by
  have hh : hashing (withPending p s) = hashing s := by unfold hashing withPending; rfl
  have hk : keyTooLong (withPending p s) = keyTooLong s := by unfold keyTooLong withPending; rfl
  have hm : ∀ n, msgBytes n (withPending p s) = msgBytes n s := by
    intro n; unfold msgBytes withPending; rfl
  have hs : timeStep (withPending p s) = timeStep s := by unfold timeStep withPending; rfl
  have hhit : cacheHit (withPending p s) = cacheHit s := by
    rw [cacheHit, cacheHit, hs]
    rfl
  have hctr : (withPending p s).ctr = s.ctr := by rw [withPending]
  have hts : (withPending p s).tstep = s.tstep := by rw [withPending]
  cases i with
  | nop => rfl
  | sha1Init =>
    simp only [commandBody, sha1InitBody, sha1Init_withPending]
    rfl
  | sha1Update n =>
    simp only [commandBody, sha1UpdateBody, hh, hm, sha1Update_withPending]
    split <;> rfl
  | sha1Final =>
    simp only [commandBody, sha1FinalBody, hh, sha1Final_withPending]
    split <;> rfl
  | sha1Hash n =>
    simp only [commandBody, sha1HashBody, hh, hm, sha1Run_withPending]
    split <;> rfl
  | hmacCompute n =>
    simp only [commandBody, hmacComputeBody, hh, hk, hm, hmac_withPending, unsetDigest_withPending]
    split
    · rfl
    · split <;> rfl
  | hotpDerive =>
    simp only [commandBody, hotpDeriveBody, hh, hk, hctr, hotp_withPending, unsetCode_withPending]
    split
    · rfl
    · split <;> rfl
  | decRender w =>
    simp only [commandBody, decRenderBody]
    split
    · simp only [render_withPending]
      rfl
    · rfl
  | timeXlate a =>
    have ht : translatedTime a (withPending p s) = translatedTime a s := by
      cases a <;> rfl
    simp only [commandBody, timeXlateBody, ht]
    split <;> rfl
  | totpDerive =>
    simp only [commandBody, totpDeriveBody, hh, hk, hts, hhit, clearCvalid_withPending,
      unsetCode_withPending, totpCompute]
    split
    · rfl
    · split
      · rfl
      · split
        · rfl
        · split
          · rfl
          · have e1 : timeStep (withPending p (clearCvalid s)) = timeStep (clearCvalid s) := by
              unfold timeStep withPending; rfl
            have e2 : ∀ v t, storeStep v (withPending p t) = withPending p (storeStep v t) := by
              intro v t; unfold storeStep withPending; rfl
            rw [e1, hotp_withPending, e2]
            rfl
  | xorMask n =>
    simp only [commandBody, xorMaskBody]
    split <;> rfl
  | ctxClear => rfl

/-- A command does the same whatever is pending behind it. -/
theorem exec_withPending (p : List HostAction) (i : Instr) {s t : State} (h : exec i s = .next t) :
    exec i (withPending p s) = .next (withPending p t) := by
  rw [exec_next_iff] at h ⊢
  have he : enterCommand i (withPending p s) = withPending p (enterCommand i s) := by
    rw [enterCommand, enterCommand]
    split
    · rfl
    · rw [clearCvalid_withPending]
  rw [h, he, commandBody_withPending]
  cases commandBody i (enterCommand i s) <;> rfl

theorem memWrite_withPending (p : List HostAction) (s : State) (a : Nat) (v : Byte) :
    memWrite (withPending p s) a v = withPending p (memWrite s a v) := by
  have hw : ∀ n k, writeReg (withPending p s) n k v = withPending p (writeReg s n k v) := by
    intro n k
    cases n <;> rfl
  rw [memWrite, memWrite]
  cases regionAt (portAddr a) with
  | none => rfl
  | some r =>
    simp only [writeRegion]
    cases r.access with
    | ro => rfl
    | rw =>
      simp only [hw, clearCvalid_withPending]
      split <;> rfl

/-- A transaction does the same whatever is pending behind it (R55). -/
theorem perform_withPending (p : List HostAction) (act : HostAction) {s t : State}
    (h : perform act s = .next t) : perform act (withPending p s) = .next (withPending p t) := by
  cases act with
  | issue w =>
    change issue w s = .next t at h
    change issue w (withPending p s) = .next (withPending p t)
    cases hd : decode (portWord w) with
    | command i =>
      rw [issue_of_command hd] at h ⊢
      exact exec_withPending p i h
    | illegal why =>
      rw [issue_of_illegal hd] at h ⊢
      injection h with h
      rw [← h]
      rfl
  | read a =>
    injection h with h
    rw [← h]
    rfl
  | write a v =>
    injection h with h
    rw [← h, ← memWrite_withPending]
    rfl
  | reset =>
    injection h with h
    rw [← h]
    rfl

/-- Every transaction ends in a next state (R170, R189). -/
theorem perform_goes_on (act : HostAction) (s : State) : ∃ t, perform act s = .next t := by
  rcases perform_cases act s with ⟨w, -, h⟩ | ⟨a, -, h⟩ | ⟨a, v, -, h⟩ | ⟨-, h⟩
  · rcases issue_cases w s with ⟨i, -, h'⟩ | ⟨-, h'⟩ <;> exact ⟨_, h.trans h'⟩
  all_goals exact ⟨_, h⟩

end Sys2Proof.Machine
end

