-- ==== Sys2Proof/Laws/PerInstr.lean ====
section
/-! SUPPORT. Statements made for every command, one lemma for each: the word of a command selects the row
of the opcode table (30_encoding.md R66) that has its mnemonic, and no other row. -/

namespace Sys2Proof.Laws.RowMatch

/-- The word of a well-formed command selects exactly its own row of the opcode table (R66, R75). -/
def Statement (i : Instr) : Prop :=
  i.wellFormed = true ∧ ∀ r ∈ opcodeTable, r.selects (encode i) = true ↔ r.mnemonic = i.mnemonic

theorem operand_wellFormed (n : Byte) : n.toNat ≤ 255 := Nat.le_of_lt_succ n.isLt

/-- A word of format N selects the one row whose opcode it has, whatever its operand: only that row's
mask leaves the operand out (R63, R66). -/
theorem selects_formatN (opc : Byte) (m : Mnemonic)
    (h : ∀ r ∈ opcodeTable,
      (opc &&& opcField r.mask = opcField r.pattern → r.mnemonic = m) ∧
      (r.mnemonic = m → opc &&& opcField r.mask = opcField r.pattern ∧ immField r.mask = 0#8 ∧
        immField r.pattern = 0#8)) (n : Byte) :
    ∀ r ∈ opcodeTable, r.selects (opc ++ n) = true ↔ r.mnemonic = m := by
  intro r hr
  rw [selects_append]
  constructor
  · rintro ⟨h1, -⟩
    exact (h r hr).1 h1
  · intro hm
    obtain ⟨h1, h2, h3⟩ := (h r hr).2 hm
    refine ⟨h1, ?_⟩
    rw [h2, h3]
    exact BitVec.and_zero

theorem nop : Statement .nop := by
  unfold Statement
  decide

theorem sha1Init : Statement .sha1Init := by
  unfold Statement
  decide

theorem sha1Update (n : Byte) : Statement (.sha1Update n) := by
  exact ⟨decide_eq_true (operand_wellFormed n), selects_formatN 0x11 .sha1Update (by decide) n⟩

theorem sha1Final : Statement .sha1Final := by
  unfold Statement
  decide

theorem sha1Hash (n : Byte) : Statement (.sha1Hash n) := by
  exact ⟨decide_eq_true (operand_wellFormed n), selects_formatN 0x13 .sha1Hash (by decide) n⟩

theorem hmacCompute (n : Byte) : Statement (.hmacCompute n) := by
  exact ⟨decide_eq_true (operand_wellFormed n), selects_formatN 0x20 .hmacCompute (by decide) n⟩

theorem hotpDerive : Statement .hotpDerive := by
  unfold Statement
  decide

theorem decRender (w : Byte) : Statement (.decRender w) := by
  exact ⟨decide_eq_true (operand_wellFormed w), selects_formatN 0x31 .decRender (by decide) w⟩

theorem timeXlate (a : TzMode) : Statement (.timeXlate a) := by
  unfold Statement
  cases a <;> decide

theorem totpDerive : Statement .totpDerive := by
  unfold Statement
  decide

theorem xorMask (n : Byte) : Statement (.xorMask n) := by
  exact ⟨decide_eq_true (operand_wellFormed n), selects_formatN 0x50 .xorMask (by decide) n⟩

theorem ctxClear : Statement .ctxClear := by
  unfold Statement
  decide

end Sys2Proof.Laws.RowMatch
end

