-- ==== Sys2Proof/Laws/Script.lean ====
section
/-! SUPPORT. Running transactions one after another (30_encoding.md R71 to R73): issued commands, and the
byte writes of the directives. -/

namespace Sys2Proof.Machine

/-! ### Running transactions in order -/

@[simp] theorem hostRun_nil (s : State) : hostRun [] s = .next s := rfl

theorem hostRun_cons_of {act : HostAction} {s t : State} (h : perform act s = .next t)
    (acts : List HostAction) : hostRun (act :: acts) s = hostRun acts t := by
  rw [hostRun, h]

theorem hostRun_append_of {xs : List HostAction} {s t : State} (h : hostRun xs s = .next t)
    (ys : List HostAction) : hostRun (xs ++ ys) s = hostRun ys t := by
  induction xs generalizing s with
  | nil =>
    injection h with h
    rw [List.nil_append, h]
  | cons act acts ih =>
    obtain ⟨u, hu⟩ := perform_goes_on act s
    rw [hostRun_cons_of hu] at h
    rw [List.cons_append, hostRun_cons_of hu, ih h]

/-- Every list of transactions runs to its end (R170, R189). -/
theorem hostRun_goes_on (acts : List HostAction) (s : State) : ∃ t, hostRun acts s = .next t := by
  induction acts generalizing s with
  | nil => exact ⟨s, rfl⟩
  | cons act acts ih =>
    obtain ⟨t, ht⟩ := perform_goes_on act s
    rw [hostRun_cons_of ht]
    exact ih t

/-- Issuing a command's word runs the command, when the word decodes to it. -/
theorem perform_issueOf {i : Instr} (h : decode (encode i) = .command i) (s : State) :
    perform (issueOf i) s = exec i s := by
  have hw : portWord (encode i).toNat = encode i := by
    apply BitVec.eq_of_toNat_eq
    rw [portWord, BitVec.toNat_ofNat]
    exact Nat.mod_eq_of_lt (encode i).isLt
  change issue (encode i).toNat s = exec i s
  exact issue_of_command (by rw [hw, h]) s

/-! ### First addresses (R42, R72) -/

theorem addrOf_msg : addrOf .msg = 0x100 := by decide

theorem addrOf_esec : addrOf .esec = 0x0E0 := by decide

theorem addrOf_ts : addrOf .ts = 0x010 := by decide

theorem addrOf_ctr : addrOf .ctr = 0x008 := by decide

/-! ### Writing a number byte by byte (R49) -/

/-- A number is determined by its bytes. -/
theorem eq_of_byteBE {w : Nat} (n : Nat) {v v' : BitVec w} (hw : w = 8 * n)
    (h : ∀ k < n, byteBE n v k = byteBE n v' k) : v = v' := by
  apply BitVec.eq_of_getLsbD_eq
  intro i hi
  have hk := congrArg (fun b => BitVec.getLsbD b (i % 8)) (h (n - 1 - i / 8) (by omega))
  simp only [byteBE, BitVec.getLsbD_extractLsb', show i % 8 < 8 by omega, decide_true,
    Bool.true_and] at hk
  rw [show 8 * (n - 1 - (n - 1 - i / 8)) + i % 8 = i by omega] at hk
  exact hk

/-- The bytes `k`, `k + 1`, ... of a number replaced one after another. -/
def putBytes {w : Nat} (n : Nat) (v : BitVec w) : Nat → List Byte → BitVec w
  | _, [] => v
  | k, b :: bs => putBytes n (putByteBE n v k b) (k + 1) bs

theorem byteBE_putBytes {w : Nat} (n : Nat) (v : BitVec w) (k : Nat) (bs : List Byte)
    (hw : w = 8 * n) (hk : k + bs.length ≤ n) {j : Nat} (hj : j < n) :
    byteBE n (putBytes n v k bs) j =
      if k ≤ j ∧ j < k + bs.length then bs.getD (j - k) 0x00 else byteBE n v j := by
  induction bs generalizing v k with
  | nil => rw [putBytes, if_neg (by simp only [List.length_nil]; omega)]
  | cons b bs ih =>
    rw [List.length_cons] at hk ⊢
    rw [putBytes, ih _ _ (by omega), byteBE_putByteBE n v k b j hw (by omega) hj]
    by_cases h1 : k + 1 ≤ j ∧ j < k + 1 + bs.length
    · rw [if_pos h1, if_pos (by omega), show j - k = (j - (k + 1)) + 1 by omega]
      simp [List.getD]
    · rw [if_neg h1]
      by_cases h2 : j = k
      · subst h2
        rw [if_pos rfl, if_pos (by omega)]
        simp
      · rw [if_neg h2, if_neg (by omega)]

/-- All bytes of a number replaced by those of another make the other. -/
theorem putBytes_bytesBE {w : Nat} (n : Nat) (v v' : BitVec w) (hw : w = 8 * n) :
    putBytes n v 0 (bytesBE n v') = v' := by
  apply eq_of_byteBE n hw
  intro k hk
  rw [byteBE_putBytes n v 0 _ hw (by rw [bytesBE_length]; omega) hk, bytesBE_length,
    if_pos (by omega), Nat.sub_zero, bytesBE_getD _ _ hk]

theorem portAddr_of_lt {a : Nat} (h : a < 1024) : portAddr a = a := by
  rw [portAddr, Config.regSpaceBytes]
  omega

/-- A write to a byte of a writable region of the map (R46). -/
theorem memWrite_of_region {r : Region} (hr : r ∈ regMap) (hacc : r.access = .rw) (s : State) {k : Nat}
    (hk : k < r.size) (v : Byte) :
    memWrite s (r.base + k) v =
      if r.clearsCvalid then clearCvalid (writeReg s r.name k v) else writeReg s r.name k v := by
  have hin := regMap_inside r hr
  rw [memWrite, portAddr_of_lt (by omega), (regionAt_iff _ _).mpr ⟨hr, by omega, by omega⟩]
  have h := writeRegion_rw hacc s k v
  rw [← h]
  simp only [Nat.add_sub_cancel_left]

theorem memWrite_ts (s : State) {k : Nat} (hk : k < 8) (v : Byte) :
    memWrite s (0x010 + k) v = { s with ts := putByteBE 8 s.ts k v } :=
  memWrite_of_region (r := ⟨.ts, 0x010, 8, .rw, false⟩) (by decide) rfl s hk v

theorem memWrite_msg (s : State) {k : Nat} (hk : k < 256) (v : Byte) :
    memWrite s (0x100 + k) v = { s with msg := putAt s.msg k v } :=
  memWrite_of_region (r := ⟨.msg, 0x100, 256, .rw, false⟩) (by decide) rfl s hk v

theorem memWrite_esec (s : State) {k : Nat} (hk : k < 20) (v : Byte) :
    memWrite s (0x0E0 + k) v = { s with esec := putAt s.esec k v } :=
  memWrite_of_region (r := ⟨.esec, 0x0E0, 20, .rw, false⟩) (by decide) rfl s hk v

/-- Writing bytes to TS (R72). -/
theorem hostRun_write_ts (s : State) (k : Nat) (bs : List Byte) (hk : k + bs.length ≤ 8) :
    hostRun (writeBytes (0x010 + k) bs) s = .next { s with ts := putBytes 8 s.ts k bs } := by
  induction bs generalizing s k with
  | nil => rfl
  | cons b bs ih =>
    rw [List.length_cons] at hk
    have h : perform (.write (0x010 + k) b) s = .next { s with ts := putByteBE 8 s.ts k b } := by
      rw [← memWrite_ts s (by omega) b]
      rfl
    rw [writeBytes, hostRun_cons_of h, Nat.add_assoc, ih _ _ (by omega), putBytes]

/-- `WR64 TS, v` leaves `v` in TS and writes nothing else (R72). -/
theorem hostRun_wr64_ts (s : State) (v : DWord) :
    hostRun (expandDirective (.wr64 (addrOf .ts) v)) s = .next { s with ts := v } := by
  have h := hostRun_write_ts s 0 (bytesBE 8 v) (by rw [bytesBE_length])
  rw [putBytes_bytesBE 8 _ _ rfl] at h
  exact h

/-! ### Writing a window byte by byte -/

/-- The bytes `k`, `k + 1`, ... of a window replaced one after another. -/
def putAll {n : Nat} (v : Vector Byte n) : Nat → List Byte → Vector Byte n
  | _, [] => v
  | k, b :: bs => putAll (putAt v k b) (k + 1) bs

theorem byteAt_putAll {n : Nat} (v : Vector Byte n) (k : Nat) (bs : List Byte) (hk : k + bs.length ≤ n)
    (j : Nat) :
    byteAt (putAll v k bs) j =
      if k ≤ j ∧ j < k + bs.length then bs.getD (j - k) 0x00 else byteAt v j := by
  induction bs generalizing v k with
  | nil => rw [putAll, if_neg (by simp only [List.length_nil]; omega)]
  | cons b bs ih =>
    rw [List.length_cons] at hk ⊢
    rw [putAll, ih _ _ (by omega), byteAt_putAt]
    by_cases h1 : k + 1 ≤ j ∧ j < k + 1 + bs.length
    · rw [if_pos h1, if_pos (by omega), show j - k = (j - (k + 1)) + 1 by omega]
      simp [List.getD]
    · rw [if_neg h1]
      by_cases h2 : j = k
      · subst h2
        rw [if_pos ⟨rfl, by omega⟩, if_pos (by omega)]
        simp
      · rw [if_neg (by omega), if_neg (by omega)]

/-- Writing bytes to MSG (R72). -/
theorem hostRun_write_msg (s : State) (k : Nat) (bs : List Byte) (hk : k + bs.length ≤ 256) :
    hostRun (writeBytes (0x100 + k) bs) s = .next { s with msg := putAll s.msg k bs } := by
  induction bs generalizing s k with
  | nil => rfl
  | cons b bs ih =>
    rw [List.length_cons] at hk
    have h : perform (.write (0x100 + k) b) s = .next { s with msg := putAt s.msg k b } := by
      rw [← memWrite_msg s (by omega) b]
      rfl
    rw [writeBytes, hostRun_cons_of h, Nat.add_assoc, ih _ _ (by omega), putAll]

/-- Writing bytes to ESEC (R72). -/
theorem hostRun_write_esec (s : State) (k : Nat) (bs : List Byte) (hk : k + bs.length ≤ 20) :
    hostRun (writeBytes (0x0E0 + k) bs) s = .next { s with esec := putAll s.esec k bs } := by
  induction bs generalizing s k with
  | nil => rfl
  | cons b bs ih =>
    rw [List.length_cons] at hk
    have h : perform (.write (0x0E0 + k) b) s = .next { s with esec := putAt s.esec k b } := by
      rw [← memWrite_esec s (by omega) b]
      rfl
    rw [writeBytes, hostRun_cons_of h, Nat.add_assoc, ih _ _ (by omega), putAll]

/-- The first bytes of MSG after they are written are the bytes written (R53). -/
theorem msgBytes_of_written (s : State) (bs : List Byte) (h : bs.length ≤ 255) :
    msgBytes (BitVec.ofNat 8 bs.length) { s with msg := putAll s.msg 0 bs } = bs := by
  have hl : (BitVec.ofNat 8 bs.length).toNat = bs.length := by
    rw [BitVec.toNat_ofNat]
    exact Nat.mod_eq_of_lt (by omega)
  rw [msgBytes, hl]
  apply List.ext_getElem
  · simp
    omega
  · intro k h1 h2
    have hb := byteAt_putAll s.msg 0 bs (by omega) k
    rw [byteAt_of_lt _ (by omega), if_pos (by omega)] at hb
    simpa [List.getD, h2] using hb

end Sys2Proof.Machine
end

