-- ==== Sys2Proof/Tests/Slice0.lean ====
section
/-! SUPPORT. The model's own tests. Words are written out from 30_encoding.md R61 to R66; the expected
results of commands are the vectors of 95_test_vectors.md, named in each docstring. The last part gives,
for every statement with hypotheses, a concrete state and operands that meet them. -/

namespace Sys2Proof.Machine

/-! ### Helpers -/

/-- The state after a command; every command ends in one (R170). -/
def after (i : Instr) (s : State) : State :=
  match exec i s with
  | .next t => t
  | _ => s

/-- A window that begins with the given bytes and is zero after them. -/
def window (n : Nat) (bs : List Byte) : Vector Byte n := Vector.ofFn fun i => bs.getD i.val 0x00

/-- Reset with MSG = the text. -/
def withText (text : String) : State :=
  { State.reset with msg := window 256 (text.toList.filterMap asciiByte) }

/-- Reset with the 20-byte ASCII key `"12345678901234567890"` of 95_test_vectors.md. -/
def withKey20 : State :=
  { State.reset with key := window 64 ("12345678901234567890".toList.filterMap asciiByte), klen := 20 }

/-- Reset with PHASE = ACTIVE. -/
def activeState : State := { State.reset with hash := { HashState.reset with phase := .active } }

/-- Reset with KLEN = 65. -/
def longKeyState : State := { State.reset with klen := 65 }

/-- Reset with a transaction pending. -/
def pendingState (act : HostAction) : State := { State.reset with pending := [act] }

/-- Reset with a time step of 30 seconds. -/
def stepState : State := { State.reset with tstep := 30 }

/-! ### WellFormed: an ill-formed line for each check (R71) -/

theorem smoke_operand_on_format_z : SourceLine.wellFormed ⟨.nop, some 0⟩ = false := by decide

theorem smoke_missing_operand_n : SourceLine.wellFormed ⟨.sha1Update, none⟩ = false := by decide

theorem smoke_operand_n_above_255 : SourceLine.wellFormed ⟨.xorMask, some 256⟩ = false := by decide

theorem smoke_missing_operand_m : SourceLine.wellFormed ⟨.timeXlate, none⟩ = false := by decide

theorem smoke_operand_m_above_1 : SourceLine.wellFormed ⟨.timeXlate, some 2⟩ = false := by decide

theorem smoke_ill_formed_line_makes_no_word : assembleWord ⟨.decRender, some 300⟩ = none := by decide

/-! ### Decoding: a written-out word for every command (R61 to R66) -/

theorem decode_word_nop : decode 0b0000000000000000 = .command .nop := by decide

theorem decode_word_sha1Init : decode 0b0001000000000000 = .command .sha1Init := by decide

theorem decode_word_sha1Update : decode 0b0001000111111111 = .command (.sha1Update 255) := by decide

theorem decode_word_sha1Final : decode 0b0001001000000000 = .command .sha1Final := by decide

theorem decode_word_sha1Hash : decode 0b0001001100111000 = .command (.sha1Hash 56) := by decide

theorem decode_word_hmacCompute : decode 0b0010000000011100 = .command (.hmacCompute 28) := by decide

theorem decode_word_hotpDerive : decode 0b0011000000000000 = .command .hotpDerive := by decide

theorem decode_word_decRender : decode 0b0011000100001010 = .command (.decRender 10) := by decide

theorem decode_word_timeXlate_0 : decode 0b0100000000000000 = .command (.timeXlate .subtract) := by
  decide

theorem decode_word_timeXlate_1 : decode 0b0100000000000001 = .command (.timeXlate .add) := by decide

theorem decode_word_totpDerive : decode 0b0100000100000000 = .command .totpDerive := by decide

theorem decode_word_xorMask : decode 0b0101000000010100 = .command (.xorMask 20) := by decide

theorem decode_word_ctxClear : decode 0b1111000000000000 = .command .ctxClear := by decide

/-- Bits above the table word's are zero. -/
theorem decode_table_word : decodeTableWord 16 0x1310B = some (.decRender 11) := by decide

/-! ### One step (R60, R74) -/

theorem step_runs_fetched_word :
    step (State.reset.withFetchWord 16 0x310B) = exec (.decRender 11) State.reset := by rfl

theorem step_illegal_word :
    step (State.reset.withFetchWord 16 0x4002) =
      .next { State.reset with err := 0x01, faulted := true } := by rfl

/-! ### The commands -/

/-- T16: SHA1.UPDATE in IDLE fails with E_SEQ. -/
theorem test_sha1Update_idle :
    (after (.sha1Update 3) State.reset).err = 0x02 ∧
    (after (.sha1Update 3) State.reset).status = 0x80 := by decide

/-- V2: after SHA1.INIT, SHA1.UPDATE 3 over "abc" leaves OFF 3, CNT 24 and BUF[0..3] = 61 62 63 00. -/
theorem test_sha1Update_abc :
    let s := after (.sha1Update 3) (after .sha1Init (withText "abc"))
    s.hash.off.val = 3 ∧ s.hash.cnt = 24 ∧ s.hash.buf.toList.take 4 = [0x61, 0x62, 0x63, 0x00] ∧
      s.status = 0x01 := by decide +kernel

/-- R88's example. -/
theorem test_sha1Init_reset :
    let s := after .sha1Init State.reset
    s.hash.h0 = 0x67452301 ∧ s.hash.h4 = 0xC3D2E1F0 ∧ s.status = 0x01 := by decide

/-- T33: E_SEQ is tested before E_KEYLEN. -/
theorem test_hmacCompute_order :
    (after (.hmacCompute 0) { activeState with klen := 65 }).err = 0x02 := by decide

/-- T45: the low digits of CODE. -/
theorem test_decRender_low_digits :
    (after (.decRender 3) { State.reset with code := 7081 }).out.toList =
      [0x30, 0x38, 0x31, 0, 0, 0, 0, 0, 0, 0, 0] := by decide

/-- T48 and T54: the largest width, and the sentinel. -/
theorem test_decRender_bounds :
    (after (.decRender 10) { State.reset with code := 4294967295 }).out.toList =
      [0x34, 0x32, 0x39, 0x34, 0x39, 0x36, 0x37, 0x32, 0x39, 0x35, 0] ∧
    (after (.decRender 11) { State.reset with code := 7081 }).out.toList =
      [0x45, 0x44, 0x49, 0x47, 0x49, 0x54, 0, 0, 0, 0, 0] := by decide

/-- T60 and T61: the two signs. -/
theorem test_timeXlate_signs :
    (after (.timeXlate .add) { State.reset with clk := 259034309, tzoff := 3600 }).ts = 1111114709 ∧
    (after (.timeXlate .subtract) { State.reset with clk := 259034309, tzoff := -3600 }).ts =
      1111114709 := by decide

/-- T64 and T68: the largest result, and one second too early. -/
theorem test_timeXlate_bounds :
    (after (.timeXlate .subtract) { State.reset with clk := 0xFFFFFFFF, tzoff := 0x80000000 }).ts =
      7294527743 ∧
    (after (.timeXlate .subtract) { State.reset with tzoff := 852076801 }).err = 0x07 := by
  decide

/-- T76: E_DIVZ is tested before E_KEYLEN, and E_KEYLEN follows with TSTEP set. -/
theorem test_totpDerive_order :
    (after .totpDerive longKeyState).err = 0x06 ∧
    (after .totpDerive { longKeyState with tstep := 30 }).err = 0x03 := by decide

/-- T80: `a5 5a ff 00 xor 94 68 cc 34`. -/
theorem test_xorMask_four :
    let s := after (.xorMask 4) { State.reset with dkey := window 20 [0xa5, 0x5a, 0xff, 0x00],
                                                   esec := window 20 [0x94, 0x68, 0xcc, 0x34] }
    s.key.toList.take 5 = [0x31, 0x32, 0x33, 0x34, 0x00] ∧ s.klen = 4 := by decide

/-- T83: E_LEN changes neither KEY nor KLEN. -/
theorem test_xorMask_too_long :
    let s := after (.xorMask 21) { State.reset with key := window 64 [0x7a, 0x7a], klen := 2 }
    s.key.toList.take 2 = [0x7a, 0x7a] ∧ s.klen = 2 ∧ s.err = 0x05 := by decide

/-- T88: NOP after T16. -/
theorem test_nop_clears_err :
    (after .nop (after (.sha1Update 3) State.reset)).err = 0x00 ∧
    (after .nop (after (.sha1Update 3) State.reset)).status = 0x80 := by decide

/-- T89 and T91: CTX.CLEAR in ACTIVE, with FAULTED kept. -/
theorem test_ctxClear_keeps_faulted :
    let s := after .ctxClear { activeState with faulted := true, hmaccnt := 5, err := 0x04 }
    s.status = 0x80 ∧ s.err = 0x00 ∧ s.hmaccnt = 5 ∧ s.hash = HashState.reset := by decide

/-! ### The data port -/

/-- T93: TSTEP is big-endian, and one byte written replaces one byte. -/
theorem test_port_big_endian :
    let s := { State.reset with tstep := 0x12345678 }
    (List.range 4).map (fun k => memRead s (0x018 + k)) = [0x12, 0x34, 0x56, 0x78] ∧
    (memWrite s 0x019 0xab).tstep = 0x12AB5678 := by decide

/-- T94: read-only registers ignore writes. -/
theorem test_port_read_only :
    memRead (memWrite (after .sha1Init State.reset) 0x040 0xff) 0x040 = 0x67 ∧
    memRead (memWrite (after .sha1Init State.reset) 0x000 0xff) 0x000 = 0x01 := by decide

/-- T77: writing KLEN clears CVALID though the value stays, writing TS does not. -/
theorem test_port_clears_cvalid :
    (memWrite { State.reset with cvalid := true } 0x002 0x00).cvalid = false ∧
    (memWrite { State.reset with cvalid := true } 0x017 0x00).cvalid = true := by decide

/-- The reset state's register space is in canonical form. -/
theorem test_reset_memory_wf : Memory.wf (registerCells State.reset) := registerCells_wf _

/-! ### Witnesses: a state and operands that meet the hypotheses of each statement

A witness is named after its statement; where the statement has several clauses with hypotheses of their
own, the witness has one conjunct for each, at a boundary of its range. -/

theorem witness_DecodeEncodeAgree :
    (Instr.sha1Update 255).wellFormed = true ∧ decode 0x4001 = .command (.timeXlate .add) := by decide

theorem witness_DecodeAgreesWithTheTable :
    (⟨.timeXlate, 0x4000, 0xFFFE⟩ : OpcodeRow) ∈ opcodeTable ∧
    OpcodeRow.selects ⟨.timeXlate, 0x4000, 0xFFFE⟩ 0x4001 = true ∧
    (opcodeTable.all fun r => !r.selects 0x4002) = true := by decide

theorem witness_AssembledLinesDecode :
    SourceLine.wellFormed ⟨.timeXlate, some 2⟩ = false ∧
    SourceLine.wellFormed ⟨.timeXlate, some 1⟩ = true ∧
    SourceLine.wellFormed ⟨.sha1Hash, some 255⟩ = true := by decide

theorem witness_StepRunsDecodedCommand :
    (pendingState (.issue 0x41000)).pending = .issue 0x41000 :: [] ∧
    decode (portWord 0x41000) = .command .sha1Init := by decide

theorem witness_IllegalWordChangesOnlyErrAndFaulted :
    (pendingState (.issue 0x4002)).pending = .issue 0x4002 :: [] ∧
    decode (portWord 0x4002) = .illegal .modeOutOfRange := by decide

theorem witness_StepPerformsPortTransactions :
    (pendingState (.read 0x3FF)).pending = .read 0x3FF :: [] ∧
    (pendingState (.write 0x002 0xFF)).pending = .write 0x002 0xFF :: [] ∧
    (pendingState .reset).pending = .reset :: [] ∧ State.reset.pending = [] := ⟨rfl, rfl, rfl, rfl⟩

/-- A computing TOTP.DERIVE, as a step of the model from a concrete state. -/
theorem totp_computes_from_stepState :
    exec .totpDerive stepState = .next { totpCompute (clearCvalid stepState) with err := 0x00 } := by
  have hr : raisedCode .totpDerive (enterCommand .totpDerive stepState) = none := by decide
  rw [exec_of_done hr, enterCommand_keeps _ rfl, doneState]
  rfl

theorem witness_StepKeepsStateInv :
    StateInv (pendingState (.issue 0x1000)) ∧
    step (pendingState (.issue 0x1000)) = .next (after .sha1Init State.reset) := by
  refine ⟨⟨?_, ?_, ?_, ?_, ?_, ?_⟩, rfl⟩ <;> decide

/-- A state with a valid cached step that is coherent, and a step from it. -/
theorem witness_StepKeepsCacheCoherent :
    CacheCoherent (totpCompute stepState) ∧ (totpCompute stepState).cvalid = true ∧
    step (totpCompute stepState) = .next (totpCompute stepState) := by
  refine ⟨cacheCoherent_totpCompute _, totpCompute_cvalid _, ?_⟩
  have hp : (totpCompute stepState).pending = [] := by
    rw [totpCompute_pending]
    rfl
  rcases step_cases (totpCompute stepState) with ⟨-, h⟩ | ⟨act, rest, h, -⟩
  · exact h
  · rw [hp] at h
    cases h

/-- Clauses one to four: a failing command, an illegal word, a reset of a faulted block, and a command
that succeeds with FAULTED set. -/
theorem witness_FaultedIsSticky :
    (exec .totpDerive State.reset = .next (after .totpDerive State.reset) ∧
      (after .totpDerive State.reset).err ≠ 0x00) ∧
    decode (portWord 0xFFFF) = .illegal .unassignedOpcode ∧
    perform .reset { State.reset with faulted := true } = .next State.reset ∧
    exec .nop { State.reset with faulted := true } =
      .next (after .nop { State.reset with faulted := true }) := by
  refine ⟨⟨rfl, by decide⟩, by decide, rfl, rfl⟩

/-- One failing command for every row of R171. -/
theorem witness_FailingCommandWritesOnlyTheTable :
    (after (.sha1Update 0) State.reset).err ≠ 0x00 ∧ (after .sha1Final State.reset).err ≠ 0x00 ∧
    (after (.sha1Hash 0) activeState).err ≠ 0x00 ∧ (after (.hmacCompute 0) activeState).err ≠ 0x00 ∧
    (after .hotpDerive longKeyState).err ≠ 0x00 ∧ (after .totpDerive State.reset).err ≠ 0x00 ∧
    (after (.decRender 11) State.reset).err ≠ 0x00 ∧ (after (.xorMask 21) State.reset).err ≠ 0x00 ∧
    (after (.timeXlate .add) { State.reset with tzoff := 0x80000000 }).err ≠ 0x00 ∧
    decode (portWord 0x00FF) = .illegal .nonzeroImmediate := by decide

/-- A command that clears CVALID, and one that sets it. -/
theorem witness_CommandsClearCachedStep :
    exec .sha1Init { State.reset with cvalid := true } =
      .next (after .sha1Init { State.reset with cvalid := true }) ∧
    (stepState.cvalid = false ∧ ∃ t, exec .totpDerive stepState = .next t ∧ t.cvalid = true) := by
  refine ⟨rfl, rfl, _, totp_computes_from_stepState, ?_⟩
  rw [totpCompute_cvalid]

theorem witness_UnwrittenBytesReadAsBefore :
    exec (.xorMask 20) State.reset = .next (after (.xorMask 20) State.reset) ∧
    (∀ r, regionAt (portAddr 0x0C0) = some r → r.name ∉ writtenRegs (.xorMask 20)) ∧
    (∀ r, regionAt (portAddr 0x3FF) = some r → r.name ∉ writtenRegs (.xorMask 20)) := by
  refine ⟨rfl, ?_, ?_⟩
  · intro r h
    have : r = ⟨.dkey, 0x0C0, 20, .rw, false⟩ := Option.some.inj (h.symm.trans (by decide))
    subst this
    decide
  · intro r h
    have hn : regionAt (portAddr 0x3FF) = none := by decide
    rw [hn] at h
    cases h

/-- Marked addresses at the ends of their ranges, their unmarked neighbours, a read-only and a reserved
address. -/
theorem witness_PortWriteStoresOneByte :
    (∀ a ∈ [0x002, 0x003, 0x008, 0x01B, 0x01C, 0x023, 0x028, 0x02B, 0x080, 0x0BF, 0x0C0, 0x0D3, 0x0E0,
      0x0F3, 0x100, 0x1FF], hostWritable (a % 1024)) ∧
    (∀ a ∈ [0x000, 0x001, 0x004, 0x007, 0x024, 0x027, 0x02C, 0x07F, 0x0D4, 0x0DF, 0x0F4, 0x0FF, 0x200,
      0x3FF], ¬ hostWritable (a % 1024)) := by decide

/-- The first and the last byte of a register, read from a state whose bytes differ. -/
theorem witness_RegistersReadBigEndian :
    memRead { State.reset with ctr := 0x0102030405060708 } 0x008 = 0x01 ∧
    memRead { State.reset with ctr := 0x0102030405060708 } 0x00F = 0x08 ∧
    memRead { State.reset with tzoff := 0xfffff1f0 } 0x020 = 0xff ∧
    memRead { State.reset with tzoff := 0xfffff1f0 } 0x023 = 0xf0 := by decide

/-- T95: both ends of every reserved range. -/
theorem witness_ReservedAddressesHoldNothing :
    ([0x006, 0x007, 0x054, 0x05F, 0x07F, 0x0D4, 0x0DF, 0x0F4, 0x0FF, 0x240, 0x3FF].all fun a =>
      (regionAt a).isNone) = true ∧
    ([0x005, 0x008, 0x053, 0x060, 0x07E, 0x080, 0x0D3, 0x0E0, 0x0F3, 0x100, 0x23F].all fun a =>
      (regionAt a).isSome) = true := by decide

/-- The addresses next to HMACCNT, and its first and last byte. -/
theorem witness_CtxClearRestoresReset :
    (portAddr 0x001 ≠ 0x000 ∧ portAddr 0x001 < 0x02C) ∧ portAddr 0x02B < 0x02C ∧
    0x02F < portAddr 0x030 ∧ (0x02C ≤ 0x02C ∧ 0x02F ≤ 0x02F) := by decide

theorem witness_Sha1UpdateCompressesFullBlocks :
    activeState.hash.phase = .active ∧ activeState.hash.off.val + (63 : Byte).toNat < 64 := by decide

theorem witness_Sha1FinalPadsAndEmits : activeState.hash.phase = .active := by decide

theorem witness_LifecycleViolationsAreRefused :
    State.reset.hash.phase ≠ .active ∧ (closeHash HashState.reset).phase ≠ .active := by decide

theorem witness_Sha1HashEqualsStream :
    State.reset.hash.phase ≠ .active ∧ activeState.hash.phase = .active := by decide

theorem witness_Sha1HashComputesMessageDigest : State.reset.hash.phase ≠ .active := by decide

theorem witness_StreamingSplitIsIrrelevant :
    (∀ c ∈ [[0x61], [0x62, 0x63], ([] : List Byte)], c.length ≤ 255) ∧
    (∀ c ∈ [[(0x61 : Byte), 0x62, 0x63]], c.length ≤ 255) ∧
    [[0x61], [0x62, 0x63], []].flatten = [[(0x61 : Byte), 0x62, 0x63]].flatten := by
  refine ⟨?_, ?_, rfl⟩ <;> simp

theorem witness_HmacComputesMac :
    State.reset.hash.phase ≠ .active ∧ { State.reset with klen := 64 }.klen.toNat ≤ 64 := by decide

theorem witness_HmacRefusalsUnsetTheDigest :
    activeState.hash.phase = .active ∧
    (longKeyState.hash.phase ≠ .active ∧ 64 < longKeyState.klen.toNat) := by decide

/-- T26: keys that differ from index KLEN on. -/
theorem witness_KeyTailIsIgnored :
    let s := { State.reset with klen := 4 }
    let key' := window 64 ([0x00, 0x00, 0x00, 0x00] ++ List.replicate 60 0xAA)
    (∀ j < s.klen.toNat, byteAt key' j = byteAt s.key j) ∧ key' ≠ s.key := by decide

theorem witness_HotpDerivesCode :
    withKey20.hash.phase ≠ .active ∧ { withKey20 with klen := 64 }.klen.toNat ≤ 64 := by decide

theorem witness_HotpRefusalsLeaveNoString :
    activeState.hash.phase = .active ∧
    (longKeyState.hash.phase ≠ .active ∧ 64 < longKeyState.klen.toNat) := by decide

/-- T40: unsupported digit counts. -/
theorem witness_UnsupportedDigitsActAsSix :
    { State.reset with digits := 9 }.digits ≠ 6 ∧ { State.reset with digits := 9 }.digits ≠ 7 ∧
    { State.reset with digits := 9 }.digits ≠ 8 := by decide

theorem witness_DecRenderWritesDecimalString :
    (10 : Byte).toNat ≤ 10 ∧ 10 < (11 : Byte).toNat := by decide

/-- T67 and T68: the translated time is 0, and -1. -/
theorem witness_TimeXlateTranslatesExactly :
    (0 : Int) ≤ ((0 : Word).toNat : Int) + 852076800 - (852076800 : Word).toInt ∧
    ((0 : Word).toNat : Int) + 852076800 - (852076801 : Word).toInt < 0 := by decide

theorem witness_TimeXlateModesMirror :
    { State.reset with tzoff := 0x80000001 }.tzoff ≠ 0x80000000 := by decide

theorem witness_TotpComputesAndCaches :
    stepState.hash.phase ≠ .active ∧ stepState.tstep ≠ 0 ∧ stepState.klen.toNat ≤ 64 ∧
    ¬(stepState.cvalid = true ∧ stepState.cstep.toNat = stepState.ts.toNat / stepState.tstep.toNat) := by
  decide

theorem witness_TotpHitWritesOnlyErr :
    let s := { stepState with cvalid := true, cstep := 1, ts := 59 }
    s.hash.phase ≠ .active ∧ s.tstep ≠ 0 ∧ s.cvalid = true ∧
      s.cstep.toNat = s.ts.toNat / s.tstep.toNat := by decide

theorem witness_TotpRefusalsInOrder :
    activeState.hash.phase = .active ∧
    (State.reset.hash.phase ≠ .active ∧ State.reset.tstep = 0) ∧
    (let s := { stepState with klen := 65, cvalid := true, cstep := 1, ts := 60 }
     s.hash.phase ≠ .active ∧ s.tstep ≠ 0 ∧
      ¬(s.cvalid = true ∧ s.cstep.toNat = s.ts.toNat / s.tstep.toNat) ∧ 64 < s.klen.toNat) := by decide

theorem witness_CacheHitEqualsRecomputation :
    let s := totpCompute stepState
    CacheCoherent s ∧ s.cvalid = true ∧ s.cstep.toNat = s.ts.toNat / s.tstep.toNat ∧
      s.hash.phase ≠ .active ∧ s.tstep ≠ 0 ∧ s.klen.toNat ≤ 64 := by
  refine ⟨cacheCoherent_totpCompute _, totpCompute_cvalid _, ?_, ?_, ?_, ?_⟩
  · rw [totpCompute_cstep, timeStep_toNat, totpCompute_ts, totpCompute_tstep]
  · simp
  · rw [totpCompute_tstep]
    decide
  · rw [totpCompute_klen]
    decide

/-- V9: timestamps 30 and 59 with a 30-second step. -/
theorem witness_SecondEvaluationInStepIsFree :
    stepState.hash.phase ≠ .active ∧ stepState.tstep ≠ 0 ∧ stepState.klen.toNat ≤ 64 ∧
    (30 : DWord).toNat / stepState.tstep.toNat = (59 : DWord).toNat / stepState.tstep.toNat := by decide

/-- The two lengths at the bound, and the addresses next to KEY[0..19]. -/
theorem witness_XorMaskUnmasksTheKey :
    (20 : Byte).toNat ≤ 20 ∧ 20 < (21 : Byte).toNat ∧
    (2 < portAddr 0x07F ∧ portAddr 0x07F < 0x080) ∧
    (2 < portAddr 0x094 ∧ 0x080 + (20 : Byte).toNat ≤ portAddr 0x094) := by decide

theorem witness_MaskingIsInvolution : (20 : Byte).toNat ≤ 20 := by decide

/-- STATUS with its three flags set, the last indices of the windows, and the last byte of OUT. -/
theorem witness_StatusAndWindowsReadAtTheirAddresses :
    (memRead { State.reset with faulted := true, cvalid := true, dvalid := true } 0x000).toNat = 0x8C ∧
    (19 < 20 ∧ 10 < 11 ∧ 63 < 64 ∧ 255 < 256) ∧
    memRead { State.reset with out := window 11 [1, 2, 3, 4, 5, 6, 7, 8, 9, 10, 11] } 0x07E = 11 := by
  decide

/-- The first and the last round, and the ends of the four windows. -/
theorem witness_CompressRunsTheEightyRounds :
    (0 < 16 ∧ 15 < 16) ∧ (16 ≤ 16 ∧ 16 < 80) ∧ (16 ≤ 79 ∧ 79 < 80) ∧
    ([0, 19, 20, 39, 40, 59, 60, 79].all fun t => decide (t < 80)) = true := by decide

/-! ### Illegal words and the text of scripts (R68, R71 to R73)

From here on the kernel takes long over each test; they stand last because what follows such a check
waits for it. -/

/-- The illegal words of T87. -/
theorem decode_illegal_words :
    ([0x0001#16, 0x00FF#16, 0x0100#16, 0x0F00#16, 0x1001#16, 0x1201#16, 0x1400#16, 0x2100#16, 0x3001#16,
      0x3200#16, 0x4002#16, 0x40FF#16, 0x4101#16, 0x4200#16, 0x5100#16, 0x6000#16, 0x8000#16, 0xEF00#16,
      0xF001#16, 0xF100#16, 0xFFFF#16].all fun w => (decode w).toOption == none) = true := by
  decide +kernel

/-- R71: a line with a comment and a hexadecimal operand. -/
theorem text_line_with_comment :
    assembleText "  SHA1.UPDATE 0xff   # all of it".toList = some 0x11FF := by decide +kernel

/-- R71: an operand on a format-Z mnemonic is an assembly error. -/
theorem text_line_refused : assembleText "NOP 1".toList = none := by decide +kernel

/-- R72: T93's one-byte write, a register name for its address, a negative offset. -/
theorem text_directive_lines :
    parseLine "WR 0x019, 0xab".toList = some (.directive (.wr 0x019 [0xAB])) ∧
    parseLine "WR KLEN, 20".toList = some (.directive (.wr 0x002 [20])) ∧
    parseLine "WR32 TZOFF, -3600".toList = some (.directive (.wr32 0x020 0xFFFFF1F0)) ∧
    parseLine "RD OUT, 11     => 37 35 35 32 32 34 00 00 00 00 00       # 755224".toList =
      some (.directive (.rd 0x074 11)) := by decide +kernel

/-- R72: `WRS KEY, "Jefe"` writes `0x080` to `0x083`. -/
theorem text_string_directive :
    (parseLine "WRS KEY, \"Jefe\"".toList).map expandLine =
      some [.write 0x080 0x4A, .write 0x081 0x65, .write 0x082 0x66, .write 0x083 0x65] := by
  decide +kernel

/-- Log entry 9: a character with no ASCII code makes the line spell nothing. -/
theorem text_non_ascii_refused : parseLine "WRS KEY, \"Jeffé\"".toList = none := by decide +kernel

/-- R73: pseudo-instructions as text. -/
theorem text_pseudo_lines :
    (parseLine "TOTP.NOW 1".toList).map expandLine = some [.issue 0x4001, .issue 0x4100] ∧
    (parseLine "SHA1.STREAM 3".toList).map expandLine =
      some [.issue 0x1000, .issue 0x1103, .issue 0x1200] := by decide +kernel

/-! ### Vectors of 95_test_vectors.md -/

/-- V1: the empty input, and T16's opposite, a legal SHA1.FINAL. -/
theorem test_sha1Final_empty :
    (after .sha1Final (after .sha1Init State.reset)).digest.toList =
      [0xda, 0x39, 0xa3, 0xee, 0x5e, 0x6b, 0x4b, 0x0d, 0x32, 0x55, 0xbf, 0xef, 0x95, 0x60, 0x18, 0x90,
       0xaf, 0xd8, 0x07, 0x09] := by decide +kernel

/-- V2: SHA-1 of "abc". -/
theorem test_sha1Hash_abc :
    (after (.sha1Hash 3) (withText "abc")).digest.toList =
      [0xa9, 0x99, 0x3e, 0x36, 0x47, 0x06, 0x81, 0x6a, 0xba, 0x3e, 0x25, 0x71, 0x78, 0x50, 0xc2, 0x6c,
       0x9c, 0xd0, 0xd8, 0x9d] := by decide +kernel

/-- T12: a 56-byte text, padded in a block of its own. -/
theorem test_sha1Hash_two_blocks :
    (after (.sha1Hash 56)
      (withText "abcdbcdecdefdefgefghfghighijhijkijkljklmklmnlmnomnopnopq")).digest.toList =
      [0x84, 0x98, 0x3e, 0x44, 0x1c, 0x3b, 0xd2, 0x6e, 0xba, 0xae, 0x4a, 0xa1, 0xf9, 0x51, 0x29, 0xe5,
       0xe5, 0x46, 0x70, 0xf1] := by decide +kernel

/-- V3: HMAC-SHA1 with 20 bytes `0x0b` and "Hi There". -/
theorem test_hmacCompute_rfc2202 :
    let s := after (.hmacCompute 8)
      { withText "Hi There" with key := window 64 (List.replicate 20 0x0b), klen := 20 }
    s.digest.toList =
      [0xb6, 0x17, 0x31, 0x86, 0x55, 0x05, 0x72, 0x64, 0xe2, 0x8b, 0xc0, 0xb6, 0xfb, 0x37, 0x8c, 0x8e,
       0xf1, 0x46, 0xbe, 0x00] ∧ s.status = 0x06 ∧ s.hmaccnt = 1 ∧ s.hash.cnt = 672 := by
  decide +kernel

/-- V4: HOTP of counter 0. -/
theorem test_hotpDerive_counter0 :
    let s := after .hotpDerive { withKey20 with digits := 6 }
    s.out.toList = [0x37, 0x35, 0x35, 0x32, 0x32, 0x34, 0, 0, 0, 0, 0] ∧ s.olen.val = 6 ∧
      s.bincode = 0x4C93CF18 := by decide +kernel

/-- T38: offset 15, and a code with leading zeros. -/
theorem test_hotpDerive_leading_zeros :
    let s := after .hotpDerive { withKey20 with digits := 6, ctr := 36 }
    s.out.toList = [0x30, 0x30, 0x33, 0x37, 0x38, 0x34, 0, 0, 0, 0, 0] ∧ s.code = 3784 := by
  decide +kernel

/-- V7: TOTP at 8 digits. -/
theorem test_totpDerive_rfc6238 :
    let s := after .totpDerive { withKey20 with digits := 8, tstep := 30, ts := 59 }
    s.out.toList = [0x39, 0x34, 0x32, 0x38, 0x37, 0x30, 0x38, 0x32, 0, 0, 0] ∧ s.cstep = 1 ∧
      s.status = 0x0E ∧ s.code = 94287082 := by decide +kernel

end Sys2Proof.Machine
end

/-! SUPPORT. FAULTED (10_state.md R35): what each operation leaves of it, and the settled statement that
it is sticky. -/

namespace Sys2Proof.Machine

/-! ### FAULTED under the commands -/

@[simp] theorem enterCommand_faulted (i : Instr) (s : State) :
    (enterCommand i s).faulted = s.faulted := by
  cases h : keepsCache i with
  | true => rw [enterCommand_keeps s h]
  | false => rw [enterCommand_clears s h, clearCvalid_faulted]

/-- A body that runs to its end never writes FAULTED, CTX.CLEAR's included (R35, R148). -/
@[simp] theorem doneState_faulted (i : Instr) (s : State) :
    (doneState i s).faulted = s.faulted := by
  cases i with
  | decRender w =>
    rw [doneState]
    split
    · exact render_faulted s _
    · rfl
  | totpDerive =>
    rw [doneState]
    split
    · rfl
    · rw [totpCompute_faulted, clearCvalid_faulted]
  | _ => simp [doneState]

/-- A command ends with no code and FAULTED as it was, or with a code and FAULTED set (R35, R157). -/
theorem exec_err_faulted {i : Instr} {s t : State} (h : exec i s = .next t) :
    (t.err = 0x00 ∧ t.faulted = s.faulted) ∨ (t.err ≠ 0x00 ∧ t.faulted = true) := by
  rcases exec_cases h with ⟨-, rfl⟩ | ⟨c, -, rfl⟩
  · exact .inl ⟨rfl, by simp⟩
  · exact .inr ⟨c.byte_ne_zero, rfl⟩

theorem exec_sets_faulted {i : Instr} {s t : State} (h : exec i s = .next t) (he : t.err ≠ 0x00) :
    t.faulted = true := by
  rcases exec_err_faulted h with ⟨h0, -⟩ | ⟨-, hf⟩
  · exact absurd h0 he
  · exact hf

theorem exec_keeps_faulted {i : Instr} {s t : State} (h : exec i s = .next t)
    (hs : s.faulted = true) : t.faulted = true := by
  rcases exec_err_faulted h with ⟨-, hf⟩ | ⟨-, hf⟩
  · exact hf.trans hs
  · exact hf

/-! ### FAULTED under the transactions -/

/-- A word that decodes to no command fails with E_ILLCMD (R68, R159). -/
theorem issue_of_no_command {w : Nat} (h : ∀ i, decode (portWord w) ≠ .command i) (s : State) :
    issue w s = .next { s with err := 0x01, faulted := true } := by
  cases hd : decode (portWord w) with
  | command i => exact absurd hd (h i)
  | illegal why => exact issue_of_illegal hd s

theorem issue_keeps_faulted {w : Nat} {s t : State} (h : issue w s = .next t)
    (hs : s.faulted = true) : t.faulted = true := by
  cases hd : decode (portWord w) with
  | command i => exact exec_keeps_faulted ((issue_of_command hd s).symm.trans h) hs
  | illegal why =>
    rw [issue_of_illegal hd] at h
    cases h
    rfl

@[simp] theorem memWrite_faulted (s : State) (a : Nat) (v : Byte) :
    (memWrite s a v).faulted = s.faulted := by
  obtain ⟨-, -, -, -, -, -, -, -, hf, -⟩ := memWrite_frame s a v
  exact hf

/-- No transaction but reset clears FAULTED (R35). -/
theorem perform_keeps_faulted {act : HostAction} {s t : State} (hact : act ≠ .reset)
    (h : perform act s = .next t) (hs : s.faulted = true) : t.faulted = true := by
  cases act with
  | issue w => exact issue_keeps_faulted h hs
  | read a =>
    cases h
    rw [portRead_faulted, hs]
  | write a v =>
    cases h
    rw [memWrite_faulted, hs]
  | reset => exact absurd rfl hact

/-! ### FAULTED in STATUS -/

/-- What STATUS holds below FAULTED stays below bit 7, so bit 7 is FAULTED (R33). -/
theorem status_getLsbD_seven (s : State) : s.status.getLsbD 7 = s.faulted := by
  have hbit : ∀ b, bit b ≤ 1 := by decide
  have hphase : s.hash.phase.code ≤ 2 := by cases s.hash.phase <;> decide
  have hdiv : s.status.toNat / 2 ^ 7 % 2 = bit s.faulted := by
    have hf := hbit s.faulted
    have hc := hbit s.cvalid
    have hd := hbit s.dvalid
    rw [status_toNat]
    omega
  rw [BitVec.getLsbD, Nat.testBit_eq_decide_div_mod_eq, hdiv]
  cases s.faulted <;> rfl

/-- STATUS is the byte at `0x000` (R42). -/
theorem memRead_status (s : State) : memRead s 0x000 = s.status :=
  memRead_of_region (r := ⟨.status, 0x000, 1, .ro, false⟩) (by decide) s (k := 0) (by decide)

/-- Settles O16: a command that raises sets FAULTED and one that completes leaves it, so of the
transactions only reset clears it. -/
theorem faultedIsSticky : Obligations.FaultedIsSticky := by
  unfold Obligations.FaultedIsSticky
  refine ⟨fun _ _ _ h he => exec_sets_faulted h he, fun s w h => ⟨_, issue_of_no_command h s, rfl⟩,
    ?_, fun _ _ _ hs h => exec_keeps_faulted h hs, reset_faulted, ?_⟩
  · intro act s t hs h ht
    by_contra hact
    have hkept := perform_keeps_faulted hact h hs
    rw [ht] at hkept
    cases hkept
  · intro s
    rw [memRead_status, status_getLsbD_seven]

end Sys2Proof.Machine

/-! SUPPORT. The data port (20_memory.md R46, R47): which addresses are marked, what a write leaves of the
byte at each address, and the two settled statements about writable and about reserved addresses. -/

namespace Sys2Proof.Machine

/-! ### Addresses by their numbers (R42) -/

/-- The regions whose writes clear CVALID are KLEN, DIGITS, TSTEP, CODE and KEY (R46). -/
theorem regionAt_clearsCvalid_iff {a : Nat} {r : Region} (h : regionAt a = some r) :
    r.clearsCvalid = true ↔ a = 0x002 ∨ a = 0x003 ∨ (0x018 ≤ a ∧ a ≤ 0x01B) ∨
      (0x028 ≤ a ∧ a ≤ 0x02B) ∨ (0x080 ≤ a ∧ a ≤ 0x0BF) := by
  obtain ⟨hr, hlo, hhi⟩ := (regionAt_iff a r).mp h
  have hmarked : ∀ r ∈ regMap, r.clearsCvalid = true →
      (r.base = 0x002 ∧ r.size = 1) ∨ (r.base = 0x003 ∧ r.size = 1) ∨
      (r.base = 0x018 ∧ r.size = 4) ∨ (r.base = 0x028 ∧ r.size = 4) ∨
      (r.base = 0x080 ∧ r.size = 64) := by decide
  have hplain : ∀ r ∈ regMap, r.clearsCvalid = false →
      r.base + r.size ≤ 0x002 ∨ (0x004 ≤ r.base ∧ r.base + r.size ≤ 0x018) ∨
      (0x01C ≤ r.base ∧ r.base + r.size ≤ 0x028) ∨
      (0x02C ≤ r.base ∧ r.base + r.size ≤ 0x080) ∨ 0x0C0 ≤ r.base := by decide
  cases hc : r.clearsCvalid with
  | true =>
    have := hmarked r hr hc
    simp only [true_iff]
    omega
  | false =>
    have := hplain r hr hc
    simp only [Bool.false_eq_true, false_iff]
    omega

/-- STATUS is one byte, at address `0x000` (R42). -/
theorem regionAt_name_ne_status {a : Nat} {r : Region} (h : regionAt a = some r) (ha : a ≠ 0) :
    r.name ≠ .status := by
  intro hn
  obtain ⟨hr, -, hhi⟩ := (regionAt_iff a r).mp h
  have hstatus : ∀ r ∈ regMap, r.name = .status → r.base + r.size = 1 := by decide
  have := hstatus r hr hn
  omega

/-- No region reaches into a reserved range (R42, R47). -/
theorem regionAt_of_reserved {a : Nat}
    (h : a = 0x006 ∨ a = 0x007 ∨ (0x054 ≤ a ∧ a ≤ 0x05F) ∨ a = 0x07F ∨ (0x0D4 ≤ a ∧ a ≤ 0x0DF) ∨
      (0x0F4 ≤ a ∧ a ≤ 0x0FF) ∨ (0x240 ≤ a ∧ a ≤ 0x3FF)) : regionAt a = none := by
  rw [regionAt_none_iff]
  intro r hr hin
  have hgaps : ∀ r ∈ regMap, r.base + r.size ≤ 0x006 ∨
      (0x008 ≤ r.base ∧ r.base + r.size ≤ 0x054) ∨ (0x060 ≤ r.base ∧ r.base + r.size ≤ 0x07F) ∨
      (0x080 ≤ r.base ∧ r.base + r.size ≤ 0x0D4) ∨ (0x0E0 ≤ r.base ∧ r.base + r.size ≤ 0x0F4) ∨
      (0x100 ≤ r.base ∧ r.base + r.size ≤ 0x240) := by decide
  have := hgaps r hr
  omega

theorem memRead_of_regionAt {a : Nat} {r : Region} (h : regionAt (portAddr a) = some r) (s : State) :
    memRead s a = readReg s r.name (portAddr a - r.base) := by
  rw [memRead, h]

/-! ### What a write does at each kind of address (R46, R47) -/

theorem memWrite_of_reserved {a : Nat} (h : regionAt (portAddr a) = none) (s : State) (v : Byte) :
    memWrite s a v = s := by
  rw [memWrite, h]

theorem memWrite_of_not_hostWritable {a : Nat} (h : ¬ hostWritable (portAddr a)) (s : State)
    (v : Byte) : memWrite s a v = s := by
  rcases memWrite_cases s a v with hw | ⟨r, hr, hacc, -⟩
  · exact hw
  · exact absurd ((hostWritable_iff _).mpr ⟨r, hr, hacc⟩) h

@[simp] theorem writeReg_cvalid (s : State) (r : RegName) (k : Nat) (v : Byte) :
    (writeReg s r k v).cvalid = s.cvalid := by
  cases r <;> rfl

section
variable {a : Nat} {r : Region} (hr : regionAt (portAddr a) = some r) (hacc : r.access = .rw)
include hr hacc

theorem memWrite_of_rw (s : State) (v : Byte) :
    memWrite s a v = if r.clearsCvalid then clearCvalid (writeReg s r.name (portAddr a - r.base) v)
      else writeReg s r.name (portAddr a - r.base) v := by
  rw [memWrite, hr]
  exact writeRegion_rw hacc _ _ _

theorem memWrite_cvalid_of_rw (s : State) (v : Byte) :
    (memWrite s a v).cvalid = if r.clearsCvalid then false else s.cvalid := by
  rw [memWrite_of_rw hr hacc]
  cases r.clearsCvalid <;> simp

/-- Off STATUS the bytes after a write are those of the stored register, CVALID cleared or not. -/
theorem readReg_memWrite_of_rw (s : State) (v : Byte) {q : RegName} (hq : q ≠ .status) (j : Nat) :
    readReg (memWrite s a v) q j = readReg (writeReg s r.name (portAddr a - r.base) v) q j := by
  rw [memWrite_of_rw hr hacc]
  cases r.clearsCvalid
  · rfl
  · exact readReg_clearCvalid _ hq j

/-- A write to a writable address makes it read the value (R46). -/
theorem memRead_memWrite_same (s : State) (v : Byte) : memRead (memWrite s a v) a = v := by
  obtain ⟨hmem, hlo, hhi⟩ := (regionAt_iff _ r).mp hr
  have hstatus : r.name ≠ .status := by
    have h : ∀ r ∈ regMap, r.access = .rw → r.name ≠ .status := by decide
    exact h r hmem hacc
  rw [memRead_of_regionAt hr, readReg_memWrite_of_rw hr hacc s v hstatus,
    readReg_writeReg_same s hmem hacc (by omega) (by omega), if_pos rfl]

/-- Every other address but that of STATUS reads after the write as before (R46). -/
theorem memRead_memWrite_ne (s : State) (v : Byte) {b : Nat} (hba : portAddr b ≠ portAddr a)
    (hb : portAddr b ≠ 0) : memRead (memWrite s a v) b = memRead s b := by
  refine memRead_congr fun q hq => ?_
  rw [readReg_memWrite_of_rw hr hacc s v (regionAt_name_ne_status hq hb)]
  obtain ⟨hmem, hlo, hhi⟩ := (regionAt_iff _ r).mp hr
  obtain ⟨hqmem, hqlo, hqhi⟩ := (regionAt_iff _ q).mp hq
  by_cases hname : q.name = r.name
  · obtain rfl := region_eq_of_name q hqmem r hmem hname
    rw [readReg_writeReg_same s hmem hacc (by omega) (by omega), if_neg (by omega)]
  · exact readReg_writeReg_ne s hname _ _ _

end

/-! ### The settled statements -/

/-- Settles O20: a write to a writable region replaces the addressed byte alone, and clears CVALID where
the region is marked; a write to any other address is no write. -/
theorem portWriteStoresOneByte : Obligations.PortWriteStoresOneByte := by
  unfold Obligations.PortWriteStoresOneByte
  intro s addr v
  refine ⟨fun hw => ?_, fun hw => memWrite_of_not_hostWritable hw s v⟩
  obtain ⟨r, hr, hacc⟩ := (hostWritable_iff (portAddr addr)).mp hw
  obtain ⟨hhash, -, hdvalid, -, -, -, -, herr, hfaulted, -⟩ := memWrite_frame s addr v
  refine ⟨memRead_memWrite_same hr hacc s v, fun b hba hb => memRead_memWrite_ne hr hacc s v hba hb,
    ?_, hhash, hdvalid, herr, hfaulted⟩
  rw [memWrite_cvalid_of_rw hr hacc]
  exact if_congr (regionAt_clearsCvalid_iff hr) rfl rfl

/-- Settles O23: a reserved address lies in no region, so there is nothing to read or to write. -/
theorem reservedAddressesHoldNothing : Obligations.ReservedAddressesHoldNothing := by
  unfold Obligations.ReservedAddressesHoldNothing
  intro s a v h
  have hnone : regionAt (portAddr a) = none := by
    rw [portAddr_of_lt (by omega)]
    exact regionAt_of_reserved h
  exact ⟨memRead_of_reserved hnone s, memWrite_of_reserved hnone s v⟩

end Sys2Proof.Machine

/-! SUPPORT. The streaming engine (40_sha1.md R83 to R85, R88 to R92): what each of its commands leaves,
one round and the schedule on numbers, and the settled statements about SHA1.INIT, SHA1.HASH and the
compression function. -/

namespace Sys2Proof

/-- The word of a format-N command is that of its opcode plus the operand (R63). -/
theorem append_operand_eq_add (opc n : Byte) : opc ++ n = (opc ++ 0x00#8) + n.setWidth 16 := by
  have hopc := opc.isLt
  have hn := n.isLt
  apply BitVec.eq_of_toNat_eq
  rw [BitVec.toNat_add, BitVec.toNat_append, BitVec.toNat_append, BitVec.toNat_setWidth,
    ← Nat.shiftLeft_add_eq_or_of_lt hn, ← Nat.shiftLeft_add_eq_or_of_lt (0x00#8).isLt,
    Nat.shiftLeft_eq, BitVec.toNat_zero]
  omega

end Sys2Proof

namespace Sys2Proof.Machine

/-! ### What each command of the engine leaves (R88 to R92) -/

theorem exec_sha1Init (s : State) : exec .sha1Init s =
    .next { s with hash := hashInit s.hash, dvalid := false, cvalid := false, err := 0x00 } := by
  rw [exec_of_done rfl, enterCommand_clears _ rfl, doneState, sha1Init, clearCvalid]

theorem exec_sha1Update_of_active (n : Byte) {s : State} (h : s.hash.phase = .active) :
    exec (.sha1Update n) s = .next { s with
      hash := hashUpdate s.hash (msgBytes n s), cvalid := false, err := 0x00 } := by
  have hr : raisedCode (.sha1Update n) (clearCvalid s) = none := by simp [raisedCode, h]
  rw [exec_of_done (by rwa [enterCommand_clears _ rfl]), enterCommand_clears _ rfl, doneState,
    msgBytes_clearCvalid, sha1Update, clearCvalid]

theorem exec_sha1Final_of_active {s : State} (h : s.hash.phase = .active) :
    exec .sha1Final s = .next { s with
      hash := hashFinal s.hash, digest := digestOf (hashFinal s.hash), dvalid := true,
      cvalid := false, err := 0x00 } := by
  have hr : raisedCode .sha1Final (clearCvalid s) = none := by simp [raisedCode, h]
  rw [exec_of_done (by rwa [enterCommand_clears _ rfl]), enterCommand_clears _ rfl, doneState,
    sha1Final, emitDigest, finishHash, clearCvalid]

/-- SHA1.HASH n is one whole lifecycle over MSG[0..n-1] when no lifecycle is in flight (R92). -/
theorem exec_sha1Hash_of_not_active (n : Byte) {s : State} (h : s.hash.phase ≠ .active) :
    exec (.sha1Hash n) s = .next { s with
      hash := hashFinal (hashUpdate (hashInit s.hash) (msgBytes n s)),
      digest := digestOf (hashFinal (hashUpdate (hashInit s.hash) (msgBytes n s))),
      dvalid := true, cvalid := false, err := 0x00 } := by
  have hr : raisedCode (.sha1Hash n) (clearCvalid s) = none := by simp [raisedCode, h]
  rw [exec_of_done (by rwa [enterCommand_clears _ rfl]), enterCommand_clears _ rfl, doneState,
    msgBytes_clearCvalid, sha1Run, sha1Final, emitDigest, finishHash, sha1Update, sha1Init,
    clearCvalid]

/-- SHA1.HASH n fails with E_SEQ when a lifecycle is in flight (R92, R160). -/
theorem exec_sha1Hash_of_active (n : Byte) {s : State} (h : s.hash.phase = .active) :
    exec (.sha1Hash n) s = .next { s with err := 0x02, faulted := true, cvalid := false } := by
  have hr : raisedCode (.sha1Hash n) (clearCvalid s) = some .seq := by simp [raisedCode, h]
  rw [exec_of_raised (c := .seq) (by rwa [enterCommand_clears _ rfl]), enterCommand_clears _ rfl,
    raisedState, clearCvalid, ErrorCode.byte]

/-! ### SHA1.STREAM n (R73) -/

theorem decode_encode_sha1Update (n : Byte) :
    decode (encode (.sha1Update n)) = .command (.sha1Update n) := by
  rw [encode, decode_append]
  rfl

/-- SHA1.STREAM n runs one whole lifecycle over MSG[0..n-1], from every PHASE (R73). -/
theorem hostRun_sha1Stream (n : Byte) (s : State) : hostRun (expandPseudo (.sha1Stream n)) s =
    .next { s with
      hash := hashFinal (hashUpdate (hashInit s.hash) (msgBytes n s)),
      digest := digestOf (hashFinal (hashUpdate (hashInit s.hash) (msgBytes n s))),
      dvalid := true, cvalid := false, err := 0x00 } := by
  have hinit := (perform_issueOf (i := .sha1Init) (by decide) s).trans (exec_sha1Init s)
  have hupdate := fun u (hu : u.hash.phase = .active) =>
    (perform_issueOf (decode_encode_sha1Update n) u).trans (exec_sha1Update_of_active n hu)
  have hfinal := fun u (hu : u.hash.phase = .active) =>
    (perform_issueOf (i := .sha1Final) (by decide) u).trans (exec_sha1Final_of_active hu)
  rw [expandPseudo, hostRun_cons_of hinit, hostRun_cons_of (hupdate _ (by simp)),
    hostRun_cons_of (hfinal _ (by simp)), hostRun_nil]
  dsimp only [msgBytes]

/-! ### One round and the schedule on numbers (R83 to R85) -/

theorem roundFun_eq (t : Nat) (b c d : Word) : roundFun t b c d =
    if t ≤ 19 then (b &&& c) ||| (~~~b &&& d)
    else if 40 ≤ t ∧ t ≤ 59 then (b &&& c) ||| (b &&& d) ||| (c &&& d)
    else b ^^^ c ^^^ d := by
  rw [roundFun]
  by_cases h20 : t < 20
  · rw [if_pos h20, if_pos (show t ≤ 19 by omega)]
  · rw [if_neg h20, if_neg (show ¬t ≤ 19 by omega)]
    by_cases h40 : t < 40
    · rw [if_pos h40, if_neg (show ¬(40 ≤ t ∧ t ≤ 59) by omega)]
    · rw [if_neg h40]
      exact if_congr (by omega) rfl rfl

theorem roundConst_toNat (t : Nat) : (roundConst t).toNat =
    if t ≤ 19 then 0x5A827999 else if t ≤ 39 then 0x6ED9EBA1
    else if t ≤ 59 then 0x8F1BBCDC else 0xCA62C1D6 := by
  simp only [roundConst, Nat.lt_succ_iff, apply_ite BitVec.toNat]
  rfl

/-- The new `a` of a round is its five summands modulo 2^32 (R85). -/
theorem round_a_toNat (t : Nat) (w : Word) (v : Working) : (round t w v).a.toNat =
    (rotl32 v.a.toNat 5 + (roundFun t v.b v.c v.d).toNat + v.e.toNat + (roundConst t).toNat +
      w.toNat) % 2 ^ 32 := by
  rw [round, ← rotateLeft_toNat v.a (by decide) (by decide)]
  simp only [BitVec.toNat_add, Nat.mod_add_mod]

theorem round_c_toNat (t : Nat) (w : Word) (v : Working) :
    (round t w v).c.toNat = rotl32 v.b.toNat 30 :=
  rotateLeft_toNat v.b (by decide) (by decide)

theorem schedule_eq_map (buf : Vector Byte 64) :
    schedule buf = (List.range 80).map fun t => (schedule buf).getD t 0 := by
  apply List.ext_getElem
  · simp
  · intro t ht _
    rw [List.getElem_map, List.getElem_range, List.getD_eq_getElem _ _ ht]

/-- W[0..15] are the big-endian words of BUF (R83, R50). -/
theorem schedule_word_toNat (buf : Vector Byte 64) {t : Nat} (ht : t < 16) :
    ((schedule buf).getD t 0).toNat = buf[4 * t].toNat * 2 ^ 24 + buf[4 * t + 1].toNat * 2 ^ 16 +
      buf[4 * t + 2].toNat * 2 ^ 8 + buf[4 * t + 3].toNat := by
  rw [schedule_word buf ht, blockWord, be32_toNat, byteAt_of_lt, byteAt_of_lt, byteAt_of_lt,
    byteAt_of_lt]

/-- The last working variables are added into the accumulators, and nothing else is written (R85). -/
theorem compress_eq_add_workingAt (h : HashState) : compress h = { h with
    h0 := h.h0 + (workingAt h 80).a, h1 := h.h1 + (workingAt h 80).b,
    h2 := h.h2 + (workingAt h 80).c, h3 := h.h3 + (workingAt h 80).d,
    h4 := h.h4 + (workingAt h 80).e } := by
  rw [compress_eq_accumulate, accumulate]

/-! ### The settled statements -/

/-- Settles O26: SHA1.INIT has no refusal, and `sha1_init` writes the constants. -/
theorem sha1InitStartsLifecycle : Obligations.Sha1InitStartsLifecycle := by
  unfold Obligations.Sha1InitStartsLifecycle
  refine ⟨by decide, fun s => ?_⟩
  rw [exec_sha1Init, hashInit]

/-- Settles O30: both sides are the same lifecycle over MSG[0..n-1]. -/
theorem sha1HashEqualsStream : Obligations.Sha1HashEqualsStream := by
  unfold Obligations.Sha1HashEqualsStream
  intro n s
  refine ⟨append_operand_eq_add 0x13 n, fun h => ?_, exec_sha1Hash_of_active n⟩
  exact ⟨_, exec_sha1Hash_of_not_active n h, hostRun_sha1Stream n s, rfl, by simp, by simp⟩

/-- Settles O50: the schedule is read off its list, and `workingAt h t` are the working variables before
round `t`. -/
theorem compressRunsTheEightyRounds : Obligations.CompressRunsTheEightyRounds := by
  unfold Obligations.CompressRunsTheEightyRounds
  refine ⟨fun h => ?_, fun _ _ => rfl⟩
  have h0 := workingAt_zero h
  refine ⟨fun t => (schedule h.buf).getD t 0, fun t => (workingAt h t).a, fun t => (workingAt h t).b,
    fun t => (workingAt h t).c, fun t => (workingAt h t).d, fun t => (workingAt h t).e,
    schedule_eq_map h.buf, fun t ht => schedule_word_toNat h.buf ht, fun t h16 h80 => ?_,
    congrArg Working.a h0, congrArg Working.b h0, congrArg Working.c h0, congrArg Working.d h0,
    congrArg Working.e h0, fun t ht => ?_, compress h, ?_⟩
  · dsimp only
    rw [schedule_next h.buf h16 h80]
    exact rotateLeft_toNat _ (by decide) (by decide)
  · dsimp only
    rw [workingAt_succ h ht, ← roundFun_eq, ← roundConst_toNat]
    exact ⟨round_a_toNat _ _ _, rfl, round_c_toNat _ _ _, rfl, rfl⟩
  · rw [compress_eq_add_workingAt h]
    exact ⟨rfl, BitVec.toNat_add _ _, BitVec.toNat_add _ _, BitVec.toNat_add _ _,
      BitVec.toNat_add _ _, BitVec.toNat_add _ _⟩

end Sys2Proof.Machine

/-! SUPPORT. Decimal rendering (42_hotp.md R115, R116): every byte of a rendered string, what DEC.RENDER
leaves at each width, and the settled statement about it. -/

namespace Sys2Proof.Machine

/-! ### The bytes of a rendered string (R115) -/

theorem byteAt_render_digit (w : Fin 11) (s : State) {k : Nat} (hk : k < w.val) :
    0x30 ≤ (byteAt (render w s).out k).toNat ∧ (byteAt (render w s).out k).toNat ≤ 0x39 := by
  have hdigit := Nat.mod_lt (s.code.toNat / 10 ^ (w.val - 1 - k)) (show 0 < 10 by omega)
  rw [byteAt_render w s (by omega), renderByte_toNat _ _ _ hk]
  omega

theorem byteAt_render_tail (w : Fin 11) (s : State) {k : Nat} (hk : w.val ≤ k) :
    byteAt (render w s).out k = 0x00 := by
  by_cases h : k < 11
  · rw [byteAt_render w s h, renderByte_tail _ _ _ hk]
  · exact byteAt_of_le _ (by omega)

/-! ### What DEC.RENDER leaves (R116) -/

theorem exec_decRender_of_lt {w : Byte} (h : w.toNat < 11) (s : State) :
    exec (.decRender w) s = .next { s with
      out := (render ⟨w.toNat, h⟩ s).out, olen := ⟨w.toNat, h⟩, cvalid := false, err := 0x00 } := by
  have hr : raisedCode (.decRender w) (clearCvalid s) = none := by simp [raisedCode, h]
  rw [exec_of_done (by rwa [enterCommand_clears _ rfl]), enterCommand_clears _ rfl, doneState,
    dif_pos h, render, render, clearCvalid]

theorem exec_decRender_of_gt {w : Byte} (h : 10 < w.toNat) (s : State) :
    exec (.decRender w) s = .next { s with
      out := sentinel, olen := 6, cvalid := false, err := 0x04, faulted := true } := by
  have hr : raisedCode (.decRender w) (clearCvalid s) = some .digit :=
    if_neg (Nat.not_lt.mpr h)
  rw [exec_of_raised (c := .digit) (by rwa [enterCommand_clears _ rfl]), enterCommand_clears _ rfl,
    raisedState, renderSentinel, clearCvalid, ErrorCode.byte]

/-! ### The settled statement -/

/-- Settles O39: up to width 10 the command renders CODE, above it writes the sentinel and raises
E_DIGIT. -/
theorem decRenderWritesDecimalString : Obligations.DecRenderWritesDecimalString := by
  unfold Obligations.DecRenderWritesDecimalString
  intro w s
  refine ⟨append_operand_eq_add 0x31 w, fun h => ?_, fun h => exec_decRender_of_gt h s⟩
  have hw : w.toNat < 11 := Nat.lt_succ_of_le h
  exact ⟨_, exec_decRender_of_lt hw s, rfl, rfl, decimalValue_render ⟨w.toNat, hw⟩ s,
    fun _ hk => byteAt_render_digit ⟨w.toNat, hw⟩ s hk,
    fun _ hk => byteAt_render_tail ⟨w.toNat, hw⟩ s hk⟩

end Sys2Proof.Machine

/-! SUPPORT. The clock translation (43_totp.md R126, R127): the translated time as a 64-bit number, what
TIME.XLATE leaves in each case, and the settled statement about it. -/

namespace Sys2Proof.Machine

/-! ### The translated time (R126) -/

/-- A 32-bit clock plus the offset stays far below 2^64, whatever the sign of the correction. -/
theorem translatedTime_lt_two_pow (a : TzMode) (s : State) : translatedTime a s < 2 ^ 64 := by
  have hclk := s.clk.isLt
  have hlo := s.tzoff.le_toInt
  have hhi := s.tzoff.toInt_lt
  cases a with
  | subtract => rw [translatedTime, clkSeconds, tzSeconds, Config.epochOffset]; omega
  | add => rw [translatedTime, clkSeconds, tzSeconds, Config.epochOffset]; omega

/-- TS holds a translated time that is not negative exactly (R127). -/
theorem ofNat_translatedTime_toNat {a : TzMode} {s : State} (h : 0 ≤ translatedTime a s) :
    ((BitVec.ofNat 64 (translatedTime a s).toNat).toNat : Int) = translatedTime a s := by
  have hlt := translatedTime_lt_two_pow a s
  rw [BitVec.toNat_ofNat, Nat.mod_eq_of_lt (by omega), Int.toNat_of_nonneg h]

/-! ### What TIME.XLATE leaves (R127) -/

theorem exec_timeXlate_of_nonneg {a : TzMode} {s : State} (h : 0 ≤ translatedTime a s) :
    exec (.timeXlate a) s =
      .next { s with ts := BitVec.ofNat 64 (translatedTime a s).toNat, err := 0x00 } := by
  have hr : raisedCode (.timeXlate a) s = none := if_neg (Int.not_lt.mpr h)
  rw [exec_of_done (by rwa [enterCommand_keeps _ rfl]), enterCommand_keeps _ rfl, doneState, setTs]

theorem exec_timeXlate_of_neg {a : TzMode} {s : State} (h : translatedTime a s < 0) :
    exec (.timeXlate a) s = .next { s with err := 0x07, faulted := true } := by
  have hr : raisedCode (.timeXlate a) s = some .range := if_pos h
  rw [exec_of_raised (c := .range) (by rwa [enterCommand_keeps _ rfl]), enterCommand_keeps _ rfl,
    raisedState, ErrorCode.byte]

/-! ### The settled statement -/

/-- Settles O40: the time `t` of the statement is `translatedTime`, which fits TS unless it is
negative. -/
theorem timeXlateTranslatesExactly : Obligations.TimeXlateTranslatesExactly := by
  unfold Obligations.TimeXlateTranslatesExactly
  intro a s t
  have ht : t = translatedTime a s := by cases a <;> rfl
  rw [ht]
  exact ⟨fun h => ⟨_, ofNat_translatedTime_toNat h, exec_timeXlate_of_nonneg h⟩,
    exec_timeXlate_of_neg, by decide, by decide⟩

end Sys2Proof.Machine

/-! SUPPORT. The XOR masking engine (44_xormask.md R141): every byte of the masked KEY, what XOR.MASK
leaves at each length, which addresses read as before, and the settled statement about it. -/

namespace Sys2Proof.Machine

/-! ### The bytes of the masked KEY (R141) -/

theorem byteAt_maskedKey (n : Nat) (s : State) {i : Nat} (hi : i < 64) : byteAt (maskedKey n s) i =
    if i < n then byteAt s.dkey i ^^^ byteAt s.esec i else byteAt s.key i := by
  rw [maskedKey, byteAt_ofFn _ hi, byteAt_of_lt s.key hi]

@[simp] theorem maskedKey_clearCvalid (n : Nat) (s : State) :
    maskedKey n (clearCvalid s) = maskedKey n s := by
  simp [maskedKey]

theorem byteAt_maskedKey_of_lt {n : Nat} (hn : n ≤ 20) (s : State) {i : Nat} (hi : i < n) :
    byteAt (maskedKey n s) i = byteAt s.dkey i ^^^ byteAt s.esec i := by
  rw [byteAt_maskedKey n s (by omega), if_pos hi]

theorem byteAt_maskedKey_of_le {n : Nat} (s : State) {i : Nat} (hi : n ≤ i) :
    byteAt (maskedKey n s) i = byteAt s.key i := by
  by_cases h : i < 64
  · rw [byteAt_maskedKey n s h, if_neg (Nat.not_lt.mpr hi)]
  · rw [byteAt_of_le _ (Nat.not_lt.mp h), byteAt_of_le _ (Nat.not_lt.mp h)]

/-! ### What XOR.MASK leaves (R141) -/

theorem exec_xorMask_of_le {n : Byte} (h : n.toNat ≤ 20) (s : State) :
    exec (.xorMask n) s = .next { s with
      key := maskedKey n.toNat s, klen := n, cvalid := false, err := 0x00 } := by
  have hr : raisedCode (.xorMask n) (clearCvalid s) = none := if_neg (Nat.not_lt.mpr h)
  rw [exec_of_done (by rwa [enterCommand_clears _ rfl]), enterCommand_clears _ rfl, doneState,
    maskedKey_clearCvalid, setKey, clearCvalid]

theorem exec_xorMask_of_gt {n : Byte} (h : 20 < n.toNat) (s : State) :
    exec (.xorMask n) s = .next { s with cvalid := false, err := 0x05, faulted := true } := by
  have hr : raisedCode (.xorMask n) (clearCvalid s) = some .len := if_pos h
  rw [exec_of_raised (c := .len) (by rwa [enterCommand_clears _ rfl]), enterCommand_clears _ rfl,
    raisedState, clearCvalid, ErrorCode.byte]

/-! ### Addresses that read as before (R42) -/

/-- Above the first three addresses stand no bytes of STATUS, ERR and KLEN (R42). -/
theorem regionAt_name_of_two_lt {a : Nat} {r : Region} (h : regionAt a = some r) (ha : 2 < a) :
    r.name ≠ .status ∧ r.name ≠ .err ∧ r.name ≠ .klen := by
  obtain ⟨hr, -, hhi⟩ := (regionAt_iff a r).mp h
  have hlow : ∀ r ∈ regMap, 3 < r.base + r.size →
      r.name ≠ .status ∧ r.name ≠ .err ∧ r.name ≠ .klen := by decide
  exact hlow r hr (by omega)

/-- KEY starts at address `0x080` (R42). -/
theorem regionAt_base_of_key {a : Nat} {r : Region} (h : regionAt a = some r) (hn : r.name = .key) :
    r.base = 0x080 := by
  obtain ⟨hr, -⟩ := (regionAt_iff a r).mp h
  have hkey : ∀ r ∈ regMap, r.name = .key → r.base = 0x080 := by decide
  exact hkey r hr hn

/-- Writing KEY, KLEN, CVALID and ERR shows in KEY, KLEN, STATUS and ERR alone (R33, R45). -/
theorem readReg_of_keyEntry (s : State) (k : Vector Byte 64) (n e : Byte) (c : Bool) {q : RegName}
    (hlow : q ≠ .status ∧ q ≠ .err ∧ q ≠ .klen) (hkey : q ≠ .key) (j : Nat) :
    readReg { s with key := k, klen := n, cvalid := c, err := e } q j = readReg s q j := by
  obtain ⟨hstatus, herr, hklen⟩ := hlow
  cases q with
  | status => exact absurd rfl hstatus
  | err => exact absurd rfl herr
  | klen => exact absurd rfl hklen
  | key => exact absurd rfl hkey
  | _ => rfl

/-- A new KEY that keeps the bytes from `n` on is seen at KEY[0..n-1], KLEN, STATUS and ERR only. -/
theorem memRead_of_keyEntry (s : State) {k : Vector Byte 64} (l e : Byte) (c : Bool) {n a : Nat}
    (hk : ∀ i, n ≤ i → byteAt k i = byteAt s.key i) (ha : 2 < portAddr a)
    (hout : portAddr a < 0x080 ∨ 0x080 + n ≤ portAddr a) :
    memRead { s with key := k, klen := l, cvalid := c, err := e } a = memRead s a := by
  refine memRead_congr fun r hr => ?_
  by_cases hname : r.name = .key
  · obtain ⟨-, hlo, -⟩ := (regionAt_iff _ r).mp hr
    have hbase := regionAt_base_of_key hr hname
    rw [hname]
    exact hk _ (by omega)
  · exact readReg_of_keyEntry s k l e c (regionAt_name_of_two_lt hr ha) hname _

/-! ### The settled statement -/

/-- Settles O47: up to length 20 the command writes the masked KEY and KLEN, above it raises E_LEN. -/
theorem xorMaskUnmasksTheKey : Obligations.XorMaskUnmasksTheKey := by
  unfold Obligations.XorMaskUnmasksTheKey
  intro n s
  refine ⟨append_operand_eq_add 0x50 n, fun h => ?_, fun h => exec_xorMask_of_gt h s⟩
  exact ⟨_, exec_xorMask_of_le h s, rfl, fun _ hi => byteAt_maskedKey_of_lt h s hi,
    fun _ hi => byteAt_maskedKey_of_le s hi,
    fun _ ha hout => memRead_of_keyEntry s n 0x00 false (fun _ => byteAt_maskedKey_of_le s) ha hout⟩

end Sys2Proof.Machine

/-! SUPPORT. The control commands (45_control.md R147): what NOP leaves, and the settled statement about
it. -/

namespace Sys2Proof.Machine

/-! ### What NOP leaves (R147) -/

/-- NOP raises nothing, keeps CVALID at its entry and has an empty body, so only the frame's write of
ERR is left. -/
theorem exec_nop (s : State) : exec .nop s = .next { s with err := 0x00 } := by
  rw [exec_of_done rfl, enterCommand_keeps _ rfl, doneState]

/-! ### The settled statement -/

/-- Settles O24: the word is a closed fact, and NOP leaves what its frame leaves. -/
theorem nopOnlyClearsErr : Obligations.NopOnlyClearsErr := by
  unfold Obligations.NopOnlyClearsErr
  exact ⟨by decide, exec_nop⟩

end Sys2Proof.Machine

/-! SUPPORT. What a failing command writes (60_exceptions.md R171): the frame's two writes around the
body's, the body's row by row, and the settled statement. -/

namespace Sys2Proof.Machine

/-! ### The state of a failing command -/

/-- A command that ends with a code raised it in its body, and the frame then writes ERR and FAULTED
(R157). -/
theorem exec_of_err_ne_zero {i : Instr} {s t : State} (h : exec i s = .next t) (he : t.err ≠ 0x00) :
    (∃ c, raisedCode i (enterCommand i s) = some c) ∧
      t = { raisedState i (enterCommand i s) with err := t.err, faulted := true } := by
  rcases exec_cases h with ⟨-, rfl⟩ | ⟨c, hc, rfl⟩
  · exact absurd rfl he
  · exact ⟨⟨c, hc⟩, rfl⟩

/-! ### The rows of R171, with the CVALID the frame clears -/

/-- A refused HMAC.COMPUTE has cleared CVALID at its entry and unset the digest. -/
theorem raisedState_hmacCompute (n : Byte) (s : State) :
    raisedState (.hmacCompute n) (enterCommand (.hmacCompute n) s) =
      { s with cvalid := false, dvalid := false } := by
  rw [enterCommand_clears _ rfl, raisedState, unsetDigest, clearCvalid]

theorem unsetCode_clearCvalid (s : State) : unsetCode (clearCvalid s) =
    { s with cvalid := false, dvalid := false, olen := 0, out := Vector.replicate 11 0x00 } := by
  rw [unsetCode, clearString, unsetDigest, clearCvalid]

/-- A refused HOTP.DERIVE has CVALID cleared by its frame. -/
theorem raisedState_hotpDerive (s : State) :
    raisedState .hotpDerive (enterCommand .hotpDerive s) = unsetCode (clearCvalid s) := by
  rw [enterCommand_clears _ rfl, raisedState]

/-- A refused TOTP.DERIVE has cleared CVALID itself, which its frame keeps. -/
theorem raisedState_totpDerive (s : State) :
    raisedState .totpDerive (enterCommand .totpDerive s) = unsetCode (clearCvalid s) := by
  rw [enterCommand_keeps _ rfl, raisedState]

theorem raisedState_decRender (w : Byte) (s : State) :
    raisedState (.decRender w) (enterCommand (.decRender w) s) =
      { s with cvalid := false, olen := 6, out := sentinel } := by
  rw [enterCommand_clears _ rfl, raisedState, renderSentinel, clearCvalid]

/-! ### The settled statement -/

/-- Settles O17: a failing command leaves its body's row of the table with ERR and FAULTED written over
it; three commands raise nothing. -/
theorem failingCommandWritesOnlyTheTable : Obligations.FailingCommandWritesOnlyTheTable := by
  unfold Obligations.FailingCommandWritesOnlyTheTable
  refine ⟨fun i s t h he => ?_, fun s w h => issue_of_no_command h s⟩
  obtain ⟨⟨c, hc⟩, ht⟩ := exec_of_err_ne_zero h he
  cases i with
  | nop | sha1Init | ctxClear => cases hc
  | sha1Update | sha1Final | sha1Hash | xorMask =>
    rwa [enterCommand_clears _ rfl, raisedState, clearCvalid] at ht
  | timeXlate a => rwa [enterCommand_keeps _ rfl, raisedState] at ht
  | hmacCompute n => rwa [raisedState_hmacCompute] at ht
  | hotpDerive => rwa [raisedState_hotpDerive, unsetCode_clearCvalid] at ht
  | totpDerive => rwa [raisedState_totpDerive, unsetCode_clearCvalid] at ht
  | decRender w => rwa [raisedState_decRender, sentinel] at ht

end Sys2Proof.Machine

/-! SUPPORT. Reset and the stops of the hash lifecycle (70_reset_and_hazards.md R181, R190): every byte of
the reset state, what SHA1.UPDATE and SHA1.FINAL leave outside a lifecycle, and the two settled
statements. -/

namespace Sys2Proof.Machine

/-! ### The bytes of zero windows and words -/

theorem byteAt_replicate_zero (n k : Nat) : byteAt (Vector.replicate n 0) k = 0x00 := by
  by_cases h : k < n
  · rw [byteAt_of_lt _ h, Vector.getElem_replicate]
  · exact byteAt_of_le _ (Nat.not_lt.mp h)

theorem byteBE_zero {w : Nat} (n k : Nat) : byteBE n (0 : BitVec w) k = 0x00 :=
  BitVec.extractLsb'_zero

/-! ### The registers at reset (R38, R181) -/

/-- No flag is set and IDLE has code 0, so STATUS is zero (R33). -/
theorem reset_status : State.reset.status = 0x00 := by
  rw [State.status, reset_faulted, reset_cvalid, reset_dvalid, reset_hash, hashReset_phase]
  rfl

/-- Every byte of every register and window is zero at reset: of the one-byte registers, of the numbers
read big-endian and of the windows alike. -/
theorem readReg_reset (r : RegName) (k : Nat) : readReg State.reset r k = 0x00 := by
  cases r with
  | status => exact reset_status
  | err | klen | digits | olen | off => rfl
  | ctr | ts | tstep | clk | tzoff | bincode | code | hmaccnt | cstep | cntHi | cntLo
  | h0 | h1 | h2 | h3 | h4 => exact byteBE_zero _ k
  | digest | out | key | dkey | esec | msg | buf => exact byteAt_replicate_zero _ k

theorem memRead_reset (a : Nat) : memRead State.reset a = 0x00 := by
  cases hr : regionAt (portAddr a) with
  | none => exact memRead_of_reserved hr _
  | some r => rw [memRead_of_regionAt hr, readReg_reset]

/-! ### SHA1.UPDATE and SHA1.FINAL outside a lifecycle (R89, R90, R190) -/

/-- A command whose body raises before it writes leaves its code, FAULTED and the CVALID its frame
clears, and nothing else. -/
theorem exec_of_raised_unwritten {i : Instr} {s : State} {c : ErrorCode} (hk : keepsCache i = false)
    (hc : raisedCode i (clearCvalid s) = some c)
    (hw : raisedState i (clearCvalid s) = clearCvalid s) :
    exec i s = .next { s with err := c.byte, faulted := true, cvalid := false } := by
  rw [← enterCommand_clears s hk] at hc
  rw [exec_of_raised hc, enterCommand_clears s hk, hw, clearCvalid]

section
variable {s : State} (h : s.hash.phase ≠ .active)
include h

theorem exec_sha1Update_of_not_active (n : Byte) : exec (.sha1Update n) s =
    .next { s with err := 0x02, faulted := true, cvalid := false } :=
  exec_of_raised_unwritten (c := .seq) rfl (by simp [raisedCode, h]) rfl

theorem exec_sha1Final_of_not_active : exec .sha1Final s =
    .next { s with err := 0x02, faulted := true, cvalid := false } :=
  exec_of_raised_unwritten (c := .seq) rfl (by simp [raisedCode, h]) rfl

end

/-! ### The settled statements -/

/-- Settles O11: the flags are fields of the reset state, and an address reads either a zero register or
nothing. -/
theorem resetStateIsZero : Obligations.ResetStateIsZero := by
  unfold Obligations.ResetStateIsZero
  refine ⟨?_, reset_dvalid, reset_cvalid, reset_faulted, reset_err, reset_hmaccnt, reset_status,
    memRead_reset⟩
  rw [reset_hash, hashReset_phase]

/-- Settles O29: outside a lifecycle both bodies raise E_SEQ before they write anything. -/
theorem lifecycleViolationsAreRefused : Obligations.LifecycleViolationsAreRefused := by
  unfold Obligations.LifecycleViolationsAreRefused
  exact fun _ h => ⟨exec_sha1Update_of_not_active h, exec_sha1Final_of_not_active h⟩

end Sys2Proof.Machine

/-! SUPPORT. The decoder as a function with an inverse (30_encoding.md R61 to R71, R75): what it says about
the word of a command, what a word that decodes says about its fields and about the opcode table, the
assembler, and the four settled statements about encoding. -/

namespace Sys2Proof

/-! ### Decoding and encoding (R66, R67) -/

/-- The word of every command decodes to it: each opcode selects its own arm, and the two mode bits are
the two immediates format M accepts. -/
theorem decode_encode (i : Instr) : decode (encode i) = .command i := by
  cases i with
  | timeXlate a => cases a <;> decide
  | sha1Update | sha1Hash | hmacCompute | decRender | xorMask => rw [encode, decode_append]; rfl
  | _ => decide

/-- Fields that decode to a command are the fields of its word: one case for each arm of the decoder that
gives a command. -/
theorem encode_of_decodeFields {opc imm8 : Byte} {i : Instr} (h : decodeFields opc imm8 = .command i) :
    encode i = opc ++ imm8 := by
  simp only [decodeFields, ite_eq_iff, decodeZ_eq_command, decodeM_eq_command,
    Decoded.command.injEq, reduceCtorEq, and_false, or_false] at h
  rcases h with ⟨rfl, rfl, rfl⟩ | ⟨-, ⟨rfl, rfl, rfl⟩ | ⟨-, ⟨rfl, rfl⟩ | ⟨-, ⟨rfl, rfl, rfl⟩ |
    ⟨-, ⟨rfl, rfl⟩ | ⟨-, ⟨rfl, rfl⟩ | ⟨-, ⟨rfl, rfl, rfl⟩ | ⟨-, ⟨rfl, rfl⟩ |
    ⟨-, ⟨rfl, a, rfl, rfl⟩ | ⟨-, ⟨rfl, rfl, rfl⟩ | ⟨-, ⟨rfl, rfl⟩ | ⟨-, rfl, rfl, rfl⟩⟩⟩⟩⟩⟩⟩⟩⟩⟩⟩
  all_goals rfl

/-- A word that decodes to a command is that command's word (R67). -/
theorem encode_of_decode {w : CmdWord} {i : Instr} (h : decode w = .command i) : encode i = w := by
  rw [encode_of_decodeFields h, opcField_append_immField]

/-! ### The opcode table (R66, R75) -/

/-- The word of every command selects the rows of its mnemonic and no other. -/
theorem selects_encode (i : Instr) :
    ∀ r ∈ opcodeTable, r.selects (encode i) = true ↔ r.mnemonic = i.mnemonic := by
  cases i with
  | nop => exact Laws.RowMatch.nop.2
  | sha1Init => exact Laws.RowMatch.sha1Init.2
  | sha1Update n => exact (Laws.RowMatch.sha1Update n).2
  | sha1Final => exact Laws.RowMatch.sha1Final.2
  | sha1Hash n => exact (Laws.RowMatch.sha1Hash n).2
  | hmacCompute n => exact (Laws.RowMatch.hmacCompute n).2
  | hotpDerive => exact Laws.RowMatch.hotpDerive.2
  | decRender w => exact (Laws.RowMatch.decRender w).2
  | timeXlate a => exact (Laws.RowMatch.timeXlate a).2
  | totpDerive => exact Laws.RowMatch.totpDerive.2
  | xorMask n => exact (Laws.RowMatch.xorMask n).2
  | ctxClear => exact Laws.RowMatch.ctxClear.2

/-- Under the mask of format M an immediate is a mode bit (R64). -/
theorem and_modeMask_eq_zero : ∀ {imm8 : Byte}, imm8 &&& 0xFE = 0 → imm8 = 0 ∨ imm8 = 1 := by decide

/-- A row selects only words that decode: its opcode fixes the decoder's arm, and under its mask the
immediate is any byte, zero, or a mode bit. -/
theorem decode_of_selects {r : OpcodeRow} (hr : r ∈ opcodeTable) {w : CmdWord}
    (h : r.selects w = true) : ∃ i, decode w = .command i := by
  have hmask : ∀ r ∈ opcodeTable, opcField r.mask = BitVec.allOnes 8 := by decide
  rw [← opcField_append_immField w, selects_append, hmask r hr, BitVec.and_allOnes] at h
  obtain ⟨hopc, himm⟩ := h
  rw [decode, hopc]
  generalize immField w = imm8 at himm ⊢
  have hz : ∀ i, imm8 &&& BitVec.allOnes 8 = 0 → decodeZ i imm8 = .command i :=
    fun i h => decodeZ_eq_command.mpr ⟨BitVec.and_allOnes.symm.trans h, rfl⟩
  simp only [opcodeTable, List.mem_cons, List.not_mem_nil, or_false] at hr
  rcases hr with rfl | rfl | rfl | rfl | rfl | rfl | rfl | rfl | rfl | rfl | rfl | rfl
  · exact ⟨_, hz .nop himm⟩
  · exact ⟨_, hz .sha1Init himm⟩
  · exact ⟨.sha1Update imm8, rfl⟩
  · exact ⟨_, hz .sha1Final himm⟩
  · exact ⟨.sha1Hash imm8, rfl⟩
  · exact ⟨.hmacCompute imm8, rfl⟩
  · exact ⟨_, hz .hotpDerive himm⟩
  · exact ⟨.decRender imm8, rfl⟩
  · obtain rfl | rfl := and_modeMask_eq_zero himm
    · exact ⟨.timeXlate .subtract, rfl⟩
    · exact ⟨.timeXlate .add, rfl⟩
  · exact ⟨_, hz .totpDerive himm⟩
  · exact ⟨.xorMask imm8, rfl⟩
  · exact ⟨_, hz .ctxClear himm⟩

theorem exists_row_of_mnemonic (m : Mnemonic) : ∃ r ∈ opcodeTable, r.mnemonic = m := by
  cases m <;> decide

theorem rows_of_mnemonic_length (m : Mnemonic) :
    (opcodeTable.filter fun r => decide (r.mnemonic = m)).length ≤ 1 := by
  cases m <;> decide

/-! ### The assembler (R71) -/

theorem assemble_of_not_wellFormed {l : SourceLine} (h : l.wellFormed = false) : assemble l = none := by
  rw [assemble, h]
  rfl

theorem immField_toNat (w : CmdWord) : (immField w).toNat = w.toNat % 256 := by
  rw [immField, BitVec.extractLsb'_toNat, Nat.shiftRight_zero]

/-- The low byte of a command's word is the operand its source line writes, or zero (R65, R71). -/
theorem encode_toNat_mod (i : Instr) : (encode i).toNat % 256 = i.sourceLine.operand.getD 0 := by
  rw [← immField_toNat]
  cases i with
  | timeXlate a => cases a <;> decide
  | sha1Update | sha1Hash | hmacCompute | decRender | xorMask => rw [encode, immField_append]; rfl
  | _ => decide

/-- A well-formed line assembles to the command whose source line it is (R71): its operand is in the
range its format gives. -/
theorem assemble_of_wellFormed {l : SourceLine} (h : l.wellFormed = true) :
    ∃ i, assemble l = some i ∧ i.sourceLine = l := by
  obtain ⟨m, o⟩ := l
  rw [assemble, h]
  refine ⟨_, rfl, ?_⟩
  cases o with
  | none =>
    cases m with
    | sha1Update | sha1Hash | hmacCompute | decRender | xorMask | timeXlate => cases h
    | _ => rfl
  | some v =>
    cases m with
    | sha1Update | sha1Hash | hmacCompute | decRender | xorMask =>
      have hv : v % 256 = v := Nat.mod_eq_of_lt (Nat.lt_succ_of_le (of_decide_eq_true h))
      simp only [Option.getD_some, Instr.sourceLine, BitVec.toNat_ofNat, hv, Nat.reducePow]
    | timeXlate =>
      have hv : v ≤ 1 := of_decide_eq_true h
      interval_cases v <;> rfl
    | _ => cases h

/-! ### The settled statements -/

/-- Settles O1: closed words. -/
theorem decodesWrittenOutWords : Obligations.DecodesWrittenOutWords := by
  unfold Obligations.DecodesWrittenOutWords
  decide

/-- Settles O2: `encode` is a right inverse of the decoder, and every word that decodes is in its range. -/
theorem decodeEncodeAgree : Obligations.DecodeEncodeAgree := by
  unfold Obligations.DecodeEncodeAgree
  exact ⟨fun i _ => decode_encode i, fun _ _ => encode_of_decode⟩

/-- Settles O3: a word that decodes is its command's word, which selects the one row of its mnemonic, and
a word that some row selects decodes. -/
theorem decodeAgreesWithTheTable : Obligations.DecodeAgreesWithTheTable := by
  unfold Obligations.DecodeAgreesWithTheTable
  intro w
  cases hw : decode w with
  | command i =>
    obtain rfl := encode_of_decode hw
    have hrow := selects_encode i
    refine ⟨fun r hr => ?_, ?_, ?_⟩
    · rw [hrow r hr, eq_comm]
      simp
    · rw [List.filter_congr (q := fun r => decide (r.mnemonic = i.mnemonic))
        fun r hr => Bool.eq_iff_iff.mpr (by simpa using hrow r hr)]
      exact rows_of_mnemonic_length _
    · obtain ⟨r, hr, hm⟩ := exists_row_of_mnemonic i.mnemonic
      simp only [reduceCtorEq, exists_false, iff_false]
      intro hnone
      exact absurd ((hrow r hr).mpr hm) (by simp [hnone r hr])
  | illegal why =>
    have hnone : ∀ r ∈ opcodeTable, r.selects w = false := by
      intro r hr
      by_contra h
      obtain ⟨i, hi⟩ := decode_of_selects hr (Bool.eq_true_of_not_eq_false h)
      rw [hw] at hi
      cases hi
    refine ⟨fun r hr => by simp [hnone r hr], ?_, by simpa using hnone⟩
    rw [List.filter_eq_nil_iff.mpr fun r hr => by simp [hnone r hr]]
    exact Nat.zero_le _

/-- Settles O4: only a well-formed line assembles, to the command it spells, whose word decodes to it. -/
theorem assembledLinesDecode : Obligations.AssembledLinesDecode := by
  unfold Obligations.AssembledLinesDecode
  intro l
  refine ⟨fun h => ?_, fun h => ?_⟩
  · rw [assembleWord, assemble_of_not_wellFormed h]
    rfl
  · obtain ⟨i, hi, rfl⟩ := assemble_of_wellFormed h
    exact ⟨i, encode i, hi, by rw [assembleWord, hi]; rfl, decode_encode i, rfl, encode_toNat_mod i⟩

end Sys2Proof

/-! SUPPORT. What every command leaves of ERR and of CVALID (60_exceptions.md R158, R168; 10_state.md R32,
30_encoding.md R74): the code of each command, which commands clear the cached step, and the two settled
statements. -/

namespace Sys2Proof.Machine

/-! ### The code of a command (R158, R168) -/

/-- The number a raised code leaves in ERR, `0x00` for none. -/
def codeByte : Option ErrorCode → Byte
  | none => 0x00
  | some c => c.byte

@[simp] theorem codeByte_ite (p : Prop) [Decidable p] (a b : Option ErrorCode) :
    codeByte (if p then a else b) = if p then codeByte a else codeByte b := apply_ite codeByte p a b

theorem hashing_enterCommand (i : Instr) (s : State) :
    hashing (enterCommand i s) = true ↔ s.hash.phase = .active := by
  rw [enterCommand]
  split <;> simp

theorem keyTooLong_enterCommand (i : Instr) (s : State) :
    keyTooLong (enterCommand i s) = true ↔ 64 < s.klen.toNat := by
  rw [enterCommand]
  split <;> simp

/-- The code a body raises at its entry is the one the table of R158 gives. -/
theorem codeByte_raisedCode (i : Instr) (s : State) :
    codeByte (raisedCode i (enterCommand i s)) = outcomeCode i s := by
  cases i with
  | nop | sha1Init | ctxClear => rfl
  | sha1Update | sha1Final | sha1Hash =>
    simp only [raisedCode, outcomeCode, hashing_enterCommand, codeByte_ite]
    rfl
  | hmacCompute | hotpDerive =>
    simp only [raisedCode, outcomeCode, hashing_enterCommand, keyTooLong_enterCommand, codeByte_ite]
    rfl
  | decRender w =>
    simp only [raisedCode, outcomeCode, codeByte_ite, ← ite_not (w.toNat < 11), Nat.not_lt]
    rfl
  | timeXlate a =>
    rw [enterCommand_keeps _ rfl]
    cases a <;> exact codeByte_ite _ _ _
  | totpDerive =>
    rw [enterCommand_keeps _ rfl]
    simp only [raisedCode, outcomeCode, hashing_eq_true, cacheHit_iff, keyTooLong_eq_true, codeByte_ite]
    rfl
  | xorMask n => exact codeByte_ite _ _ _

/-! ### CVALID under the commands (R32, R74) -/

/-- A body other than TOTP.DERIVE's never sets CVALID, whether it runs to its end or raises. -/
theorem doneState_cvalid_of_clear {i : Instr} {s : State} (hi : i ≠ .totpDerive)
    (hs : s.cvalid = false) : (doneState i s).cvalid = false := by
  cases i with
  | totpDerive => exact absurd rfl hi
  | decRender w =>
    rw [doneState]
    split
    · rw [render_cvalid, hs]
    · exact hs
  | _ => simp [doneState, hs]

theorem raisedState_cvalid_of_clear {i : Instr} {s : State} (hs : s.cvalid = false) :
    (raisedState i s).cvalid = false := by
  cases i <;> simp [raisedState, hs]

/-- Entered with CVALID = 0, a command other than TOTP.DERIVE ends with CVALID = 0. -/
theorem exec_cvalid_of_clear {i : Instr} {s t : State} (h : exec i s = .next t) (hi : i ≠ .totpDerive)
    (hs : (enterCommand i s).cvalid = false) : t.cvalid = false := by
  rcases exec_cases h with ⟨-, rfl⟩ | ⟨c, -, rfl⟩
  · exact doneState_cvalid_of_clear hi hs
  · exact raisedState_cvalid_of_clear hs

theorem enterCommand_cvalid_of_clears {i : Instr} (hi : keepsCache i = false) (s : State) :
    (enterCommand i s).cvalid = false := by
  rw [enterCommand_clears s hi, clearCvalid_cvalid]

/-- Every command whose frame clears CVALID ends with it clear. -/
theorem exec_cvalid_of_clears {i : Instr} {s t : State} (h : exec i s = .next t)
    (hi : keepsCache i = false) : t.cvalid = false := by
  refine exec_cvalid_of_clear h ?_ (enterCommand_cvalid_of_clears hi s)
  rintro rfl
  cases hi

theorem enterCommand_cvalid_of_clear (i : Instr) {s : State} (hs : s.cvalid = false) :
    (enterCommand i s).cvalid = false := by
  rw [enterCommand]
  split
  · exact hs
  · exact clearCvalid_cvalid s

/-! ### The settled statements -/

/-- Settles O15: a body that raises nothing ends with code `0x00`, one that raises ends with its code and
FAULTED set, and the code is the table's. -/
theorem commandOutcomeCodes : Obligations.CommandOutcomeCodes := by
  unfold Obligations.CommandOutcomeCodes
  intro i s
  rw [← codeByte_raisedCode]
  cases hr : raisedCode i (enterCommand i s) with
  | none => exact ⟨_, exec_of_done hr, rfl, by simp [codeByte]⟩
  | some c => exact ⟨_, exec_of_raised hr, rfl, by
      rw [codeByte, decide_eq_true c.byte_ne_zero, Bool.or_true]⟩

/-- Settles O18: the three commands named are those whose frame keeps CVALID. -/
theorem commandsClearCachedStep : Obligations.CommandsClearCachedStep := by
  unfold Obligations.CommandsClearCachedStep
  refine ⟨fun i s t h hnop hxlate htotp => exec_cvalid_of_clears h ?_, fun i s t h hs ht => ?_⟩
  · cases i with
    | nop => exact absurd rfl hnop
    | timeXlate a => exact absurd rfl (hxlate a)
    | totpDerive => exact absurd rfl htotp
    | _ => rfl
  · by_contra hi
    rw [exec_cvalid_of_clear h hi (enterCommand_cvalid_of_clear i hs)] at ht
    cases ht

end Sys2Proof.Machine

/-! SUPPORT. Steps and transactions (20_memory.md R41, R44, R55; 60_exceptions.md R170): what a step does with
the first pending transaction, that transactions run in the host's order, ports of any width, and the
settled statements about them. -/

namespace Sys2Proof.Machine

/-! ### One step and its transaction -/

theorem step_of_pending {s : State} {act : HostAction} {rest : List HostAction}
    (h : s.pending = act :: rest) : step s = perform act { s with pending := rest } := by
  rcases step_cases s with ⟨hnil, -⟩ | ⟨act', rest', hcons, hstep⟩
  · rw [h] at hnil
    cases hnil
  · obtain ⟨rfl, rfl⟩ := List.cons.inj (h.symm.trans hcons)
    exact hstep

theorem step_of_nothing_pending {s : State} (h : s.pending = []) : step s = .next s := by
  rw [step, advance, h]

theorem step_goes_on (s : State) : stepGoesOn s := by
  rcases step_cases s with ⟨-, h⟩ | ⟨act, rest, -, h⟩
  · exact ⟨s, h⟩
  · obtain ⟨t, ht⟩ := perform_goes_on act { s with pending := rest }
    exact ⟨t, h.trans ht⟩

/-- A transaction leaves the list of what is pending behind it as it is. -/
theorem eq_withPending_of_perform {act : HostAction} {p : List HostAction} {s t : State}
    (h : perform act (withPending p s) = .next t) : t = withPending p t := by
  have h' := perform_withPending p act h
  change perform act (withPending p s) = _ at h'
  rw [h] at h'
  injection h'

/-- A run of the machine starts with its first step. -/
theorem core_run_of_step {s t : State} (h : step s = .next t) (k : Nat) :
    Host.Core.run Sys2Proof.core (k + 1) s = Host.Core.run Sys2Proof.core k t := by
  have h' : Sys2Proof.core.step s = .next t := h
  simp only [Host.Core.run, h']

/-- As many steps as there are transactions in front run exactly these, in order (R55). -/
theorem run_core_eq_hostRun (acts rest : List HostAction) (s : State) :
    Host.Core.run Sys2Proof.core acts.length (withPending (acts ++ rest) s) =
      hostRun acts (withPending rest s) := by
  induction acts generalizing s with
  | nil => rfl
  | cons act acts ih =>
    obtain ⟨t, ht⟩ := perform_goes_on act (withPending rest s)
    have hfirst : step (withPending (act :: (acts ++ rest)) s) =
        perform act (withPending (acts ++ rest) (withPending rest s)) := step_of_pending rfl
    rw [List.length_cons, List.cons_append,
      core_run_of_step (hfirst.trans (perform_withPending (acts ++ rest) act ht)), ih t,
      hostRun_cons_of ht, ← eq_withPending_of_perform ht]

/-! ### Ports of any width (R41, R60) -/

theorem portAddr_add (a k : Nat) : portAddr (a + 1024 * k) = portAddr a := Nat.add_mul_mod_self_left _ _ _

/-! ### The settled statements -/

/-- Settles O5: the step presents the word, which decodes. -/
theorem stepRunsDecodedCommand : Obligations.StepRunsDecodedCommand := by
  unfold Obligations.StepRunsDecodedCommand
  intro s w rest i hp hd
  exact (step_of_pending hp).trans (issue_of_command hd _)

/-- Settles O6: the step presents the word, which is illegal. -/
theorem illegalWordChangesOnlyErrAndFaulted : Obligations.IllegalWordChangesOnlyErrAndFaulted := by
  unfold Obligations.IllegalWordChangesOnlyErrAndFaulted
  intro s w rest why hp hd
  exact (step_of_pending hp).trans (issue_of_illegal hd _)

/-- Settles O7: each transaction at the state without it; neither what is read nor what is written
depends on the pending list. -/
theorem stepPerformsPortTransactions : Obligations.StepPerformsPortTransactions := by
  unfold Obligations.StepPerformsPortTransactions
  intro s rest
  refine ⟨fun a hp => ?_, fun a v hp => ?_, fun hp => step_of_pending hp, step_of_nothing_pending⟩
  · rw [step_of_pending hp, perform, portRead, memRead_pending]
  · rw [step_of_pending hp, perform]
    exact congrArg _ (memWrite_withPending rest s a v)

/-- Settles O8: no transaction stops. -/
theorem everyStepGoesOn : Obligations.EveryStepGoesOn := by
  unfold Obligations.EveryStepGoesOn
  exact step_goes_on

/-- Settles O9, by induction on the transactions in front. -/
theorem transactionsRunInOrder : Obligations.TransactionsRunInOrder := by
  unfold Obligations.TransactionsRunInOrder
  exact run_core_eq_hostRun

/-- Settles O10: the ports use the word and the address modulo their widths. -/
theorem portsIgnoreExtraBits : Obligations.PortsIgnoreExtraBits := by
  unfold Obligations.PortsIgnoreExtraBits
  refine ⟨fun w k s => ?_, fun a k s => ?_, fun a k v s => ?_⟩
  · rw [issue, issue, portWord_add]
  · rw [memRead, memRead, portAddr_add]
  · rw [memWrite, memWrite, portAddr_add]

end Sys2Proof.Machine

/-! SUPPORT. The invariants of the state (10_state.md R39) and the coherence of the step cache (43_totp.md
R130, R131): each operation keeps them, hence each transaction and each step, and the settled statements
about them. -/

namespace Sys2Proof.Machine

/-! ### What a data-port write keeps of a cached step (R46) -/

/-- A write after which CVALID is still set was to none of the parameters of the cached step. -/
theorem memWrite_of_cvalid {s : State} {a : Nat} {v : Byte} (h : (memWrite s a v).cvalid = true) :
    s.cvalid = true ∧ (memWrite s a v).key = s.key ∧ (memWrite s a v).klen = s.klen ∧
    (memWrite s a v).digits = s.digits ∧ (memWrite s a v).tstep = s.tstep ∧
    (memWrite s a v).code = s.code := by
  rcases memWrite_cases s a v with hw | ⟨r, hr, -, hw⟩
  · rw [hw] at h ⊢
    exact ⟨h, rfl, rfl, rfl, rfl, rfl⟩
  · have hplain : ∀ r ∈ regMap, r.clearsCvalid = false → r.name ≠ .key ∧ r.name ≠ .klen ∧
        r.name ≠ .digits ∧ r.name ≠ .tstep ∧ r.name ≠ .code := by decide
    cases hc : r.clearsCvalid with
    | true =>
      rw [hw, hc, if_pos rfl, clearCvalid_cvalid] at h
      cases h
    | false =>
      obtain ⟨hkey, hklen, hdigits, htstep, hcode⟩ := hplain r ((regionAt_iff _ r).mp hr).1 hc
      rw [hw, hc, if_neg Bool.false_ne_true, writeReg_cvalid] at h
      rw [hw, hc, if_neg Bool.false_ne_true]
      refine ⟨h, ?_⟩
      cases hn : r.name with
      | key => exact absurd hn hkey
      | klen => exact absurd hn hklen
      | digits => exact absurd hn hdigits
      | tstep => exact absurd hn htstep
      | code => exact absurd hn hcode
      | _ => exact ⟨rfl, rfl, rfl, rfl, rfl⟩

/-! ### Updates that keep the invariants (R39) -/

/-- OFF against CNT, invariant (f), of a hash state alone. -/
def CountsPending (h : HashState) : Prop :=
  h.off.val = h.cnt.toNat / 8 % 64 ∧ h.cnt.toNat % 8 = 0

theorem countsPending_hashInit (h : HashState) : CountsPending (hashInit h) := by
  rw [CountsPending, cnt_hashInit, hashInit_off]
  decide

/-- Accepting bytes keeps OFF and CNT in step, also when CNT wraps: 2^64 bits are whole blocks. -/
theorem CountsPending.update {h : HashState} (hc : CountsPending h) (bs : List Byte) :
    CountsPending (hashUpdate h bs) := by
  obtain ⟨hoff, hcnt⟩ := hc
  rw [CountsPending, off_hashUpdate, cnt_toNat_hashUpdate]
  omega

/-- An operation that leaves CVALID clear and the string, BINCODE, ERR and FAULTED alone keeps the
invariants if what it leaves of the engine meets (d) and (f). -/
theorem StateInv.of_engine {s t : State} (h : StateInv s) (hout : t.out = s.out)
    (holen : t.olen = s.olen) (hbin : t.bincode = s.bincode) (herr : t.err = s.err)
    (hfault : t.faulted = s.faulted) (hcv : t.cvalid = false)
    (hact : t.hash.phase = .active → t.dvalid = false ∧ CountsPending t.hash) : StateInv t where
  outTail := by rw [hout, holen]; exact h.outTail
  activeClears hp := ⟨hcv, (hact hp).1⟩
  cacheNeeds hc := by rw [hcv] at hc; cases hc
  activeCount hp := (hact hp).2
  errCodes := by rw [herr, hfault]; exact h.errCodes
  bincodeBound := by rw [hbin]; exact h.bincodeBound

/-- An operation after which no lifecycle is in flight, on the same terms. -/
theorem StateInv.of_done {s t : State} (h : StateInv s) (hout : t.out = s.out)
    (holen : t.olen = s.olen) (hbin : t.bincode = s.bincode) (herr : t.err = s.err)
    (hfault : t.faulted = s.faulted) (hcv : t.cvalid = false) (hdone : t.hash.phase = .done) :
    StateInv t :=
  h.of_engine hout holen hbin herr hfault hcv fun hp => by rw [hdone] at hp; cases hp

theorem StateInv.clearCvalid {s : State} (h : StateInv s) : StateInv (clearCvalid s) :=
  h.of_engine rfl rfl rfl rfl rfl rfl fun hp => ⟨(h.activeClears hp).2, h.activeCount hp⟩

theorem StateInv.unsetDigest {s : State} (h : StateInv s) (hcv : s.cvalid = false) :
    StateInv (unsetDigest s) :=
  h.of_engine rfl rfl rfl rfl rfl hcv fun hp => ⟨rfl, h.activeCount hp⟩

theorem StateInv.setKey {s : State} (h : StateInv s) (hcv : s.cvalid = false) (k : Vector Byte 64)
    (n : Byte) : StateInv (setKey k n s) :=
  h.of_engine rfl rfl rfl rfl rfl hcv fun hp => ⟨(h.activeClears hp).2, h.activeCount hp⟩

/-- A new output string with a zero tail keeps the invariants. -/
theorem StateInv.withString {s : State} (h : StateInv s) {o : Vector Byte 11} {n : Fin 11}
    (htail : ∀ i : Fin 11, n.val ≤ i.val → o[i.val] = 0x00) :
    StateInv { s with out := o, olen := n } where
  outTail := htail
  activeClears := h.activeClears
  cacheNeeds := h.cacheNeeds
  activeCount := h.activeCount
  errCodes := h.errCodes
  bincodeBound := h.bincodeBound

theorem StateInv.render {s : State} (h : StateInv s) (w : Fin 11) : StateInv (render w s) :=
  h.withString fun i hi => by rw [Vector.getElem_ofFn, renderByte_tail _ _ _ hi]

theorem StateInv.unsetCode {s : State} (h : StateInv s) (hcv : s.cvalid = false) :
    StateInv (unsetCode s) :=
  (h.unsetDigest hcv).withString fun _ _ => Vector.getElem_replicate _

theorem StateInv.renderSentinel {s : State} (h : StateInv s) : StateInv (renderSentinel s) :=
  h.withString (by decide)

theorem StateInv.setBincode {s : State} (h : StateInv s) : StateInv (setBincode s) :=
  { h with bincodeBound := truncate_lt s.digest }

theorem StateInv.setCode {s : State} (h : StateInv s) (d : Nat) : StateInv (setCode d s) :=
  { h with }

theorem StateInv.setTs {s : State} (h : StateInv s) (v : DWord) : StateInv (setTs v s) :=
  { h with }

theorem StateInv.sha1Final {s : State} (h : StateInv s) (hcv : s.cvalid = false) :
    StateInv (sha1Final s) :=
  h.of_done (by simp) (by simp) (by simp) (by simp) (by simp) (by simp [hcv]) (by simp)

theorem StateInv.sha1Run {s : State} (h : StateInv s) (hcv : s.cvalid = false) (m : List Byte) :
    StateInv (sha1Run m s) :=
  h.of_done (by simp) (by simp) (by simp) (by simp) (by simp) (by simp [hcv]) (by simp)

theorem StateInv.hmac {s : State} (h : StateInv s) (hcv : s.cvalid = false) (m : List Byte) :
    StateInv (hmac m s) :=
  h.of_done (by simp) (by simp) (by simp) (by simp) (by simp) (by simp [hcv]) (hmac_phase m s)

theorem StateInv.hotp {s : State} (h : StateInv s) (hcv : s.cvalid = false) (c : DWord) :
    StateInv (hotp c s) :=
  (((h.hmac hcv _).setBincode).setCode _).render _

/-- Caching a step keeps the invariants where (e) holds already. -/
theorem StateInv.storeStep {s : State} (h : StateInv s) (step : DWord) (hp : s.hash.phase = .done)
    (hd : s.dvalid = true) (hl : s.klen.toNat ≤ 64) (ht : s.tstep ≠ 0) :
    StateInv (storeStep step s) :=
  { h with
    activeClears := fun hact => by rw [storeStep_hash, hp] at hact; cases hact
    cacheNeeds := fun _ => ⟨hp, hd, hl, ht⟩ }

theorem StateInv.withErr {s : State} (h : StateInv s) : StateInv { s with err := 0x00 } :=
  { h with errCodes := ⟨Nat.zero_le 7, fun he => absurd rfl he⟩ }

theorem StateInv.fail {s : State} (h : StateInv s) (c : ErrorCode) :
    StateInv { s with err := c.byte, faulted := true } :=
  { h with errCodes := ⟨c.byte_le, fun _ => rfl⟩ }

theorem StateInv.withPending {s : State} (h : StateInv s) (p : List HostAction) :
    StateInv { s with pending := p } :=
  { h with }

theorem stateInv_reset : StateInv State.reset where
  outTail := by decide
  activeClears hp := by cases hp
  cacheNeeds hc := by cases hc
  activeCount hp := by cases hp
  errCodes := by decide
  bincodeBound := by decide

/-! ### Commands keep the invariants -/

theorem StateInv.enterCommand {s : State} (h : StateInv s) (i : Instr) :
    StateInv (enterCommand i s) := by
  rw [Machine.enterCommand]
  split
  · exact h
  · exact h.clearCvalid

/-- A computing TOTP.DERIVE caches its step with the engine finished, the key legal and the time step not
zero (R129). -/
theorem StateInv.totpCompute {s : State} (h : StateInv s) (hcv : s.cvalid = false)
    (hl : s.klen.toNat ≤ 64) (ht : s.tstep ≠ 0) : StateInv (totpCompute s) :=
  (h.hotp hcv _).storeStep _ (by rw [hotp_hash, hmac_phase]) (by simp) (by simpa using hl)
    (by simpa using ht)

/-- TOTP.DERIVE completes only with TSTEP not zero, and on a miss only with a legal key (R129). -/
theorem raisedCode_totpDerive_eq_none {s : State} (h : raisedCode .totpDerive s = none) :
    s.tstep ≠ 0 ∧ (cacheHit s = false → s.klen.toNat ≤ 64) := by
  refine ⟨fun h0 => ?_, fun hmiss => ?_⟩
  · rw [raisedCode, if_pos h0] at h
    split at h <;> cases h
  · by_contra hl
    have hlong := (keyTooLong_eq_true s).mpr (Nat.lt_of_not_le hl)
    rw [raisedCode, hmiss, hlong, if_neg Bool.false_ne_true, if_pos rfl] at h
    split_ifs at h

theorem StateInv.doneState {i : Instr} {s : State} (h : StateInv s)
    (hcv : keepsCache i = false → s.cvalid = false) (hr : raisedCode i s = none) :
    StateInv (doneState i s) := by
  cases i with
  | nop => exact h
  | sha1Init =>
    exact h.of_engine rfl rfl rfl rfl rfl (hcv rfl) fun _ => ⟨rfl, countsPending_hashInit _⟩
  | sha1Update n =>
    refine h.of_engine rfl rfl rfl rfl rfl (hcv rfl) fun hp => ?_
    have hact : s.hash.phase = .active := (hashUpdate_phase _ _).symm.trans hp
    exact ⟨(h.activeClears hact).2, CountsPending.update (h.activeCount hact) _⟩
  | sha1Final => exact h.sha1Final (hcv rfl)
  | sha1Hash n => exact h.sha1Run (hcv rfl) _
  | hmacCompute n => exact h.hmac (hcv rfl) _
  | hotpDerive => exact h.hotp (hcv rfl) _
  | decRender w =>
    rw [Machine.doneState]
    split
    · exact h.render _
    · exact h
  | timeXlate a => exact h.setTs _
  | totpDerive =>
    rw [Machine.doneState]
    split
    · exact h
    · rename_i hhit
      obtain ⟨ht, hl⟩ := raisedCode_totpDerive_eq_none hr
      refine h.clearCvalid.totpCompute (clearCvalid_cvalid s) ?_ ?_
      · rw [clearCvalid_klen]
        exact hl (Bool.eq_false_of_not_eq_true hhit)
      · rwa [clearCvalid_tstep]
  | xorMask n => exact h.setKey (hcv rfl) _ n
  | ctxClear => exact { stateInv_reset with errCodes := ⟨Nat.zero_le 7, fun he => absurd rfl he⟩ }

theorem StateInv.raisedState {i : Instr} {s : State} (h : StateInv s)
    (hcv : keepsCache i = false → s.cvalid = false) : StateInv (raisedState i s) := by
  cases i with
  | hmacCompute n => exact h.unsetDigest (hcv rfl)
  | hotpDerive => exact h.unsetCode (hcv rfl)
  | totpDerive => exact h.clearCvalid.unsetCode (clearCvalid_cvalid s)
  | decRender w => exact h.renderSentinel
  | _ => exact h

/-- Every command keeps the invariants. -/
theorem StateInv.exec {i : Instr} {s t : State} (h : StateInv s) (ht : exec i s = .next t) :
    StateInv t := by
  have hcv : keepsCache i = false → (Machine.enterCommand i s).cvalid = false :=
    fun hi => enterCommand_cvalid_of_clears hi s
  rcases exec_cases ht with ⟨hr, rfl⟩ | ⟨c, -, rfl⟩
  · exact ((h.enterCommand i).doneState hcv hr).withErr
  · exact ((h.enterCommand i).raisedState hcv).fail c

/-! ### Transactions and steps keep the invariants -/

theorem StateInv.memWrite {s : State} (h : StateInv s) (a : Nat) (v : Byte) :
    StateInv (memWrite s a v) := by
  obtain ⟨hhash, -, hdvalid, hout, holen, hbin, -, herr, hfault, -⟩ := memWrite_frame s a v
  refine ⟨?_, ?_, ?_, ?_, ?_, ?_⟩
  · rw [hout, holen]
    exact h.outTail
  · rw [hhash, hdvalid]
    intro hp
    refine ⟨?_, (h.activeClears hp).2⟩
    by_contra hc
    have := (memWrite_of_cvalid (Bool.eq_true_of_not_eq_false hc)).1
    rw [(h.activeClears hp).1] at this
    cases this
  · intro hc
    obtain ⟨hs, -, hklen, -, htstep, -⟩ := memWrite_of_cvalid hc
    rw [hhash, hdvalid, hklen, htstep]
    exact h.cacheNeeds hs
  · rw [hhash]
    exact h.activeCount
  · rw [herr, hfault]
    exact h.errCodes
  · rw [hbin]
    exact h.bincodeBound

theorem StateInv.issue {w : Nat} {s t : State} (h : StateInv s) (ht : issue w s = .next t) :
    StateInv t := by
  cases hd : decode (portWord w) with
  | command i => exact h.exec ((issue_of_command hd s).symm.trans ht)
  | illegal why =>
    rw [issue_of_illegal hd] at ht
    cases ht
    exact h.fail .illcmd

/-- Every transaction keeps the invariants. -/
theorem StateInv.perform {act : HostAction} {s t : State} (h : StateInv s)
    (ht : perform act s = .next t) : StateInv t := by
  cases act with
  | issue w => exact h.issue ht
  | read a => cases ht; exact { h with }
  | write a v => cases ht; exact h.memWrite a v
  | reset => cases ht; exact { stateInv_reset with }

/-! ### The step cache stays coherent (R130, R131) -/

theorem CacheCoherent.withErr {s : State} (h : CacheCoherent s) (e : Byte) (f : Bool) :
    CacheCoherent { s with err := e, faulted := f } :=
  h.of_same id rfl rfl rfl rfl rfl rfl rfl rfl rfl rfl rfl

theorem CacheCoherent.doneState {i : Instr} {s : State} (h : CacheCoherent s)
    (hi : keepsCache i = true) : CacheCoherent (doneState i s) := by
  cases i with
  | nop => exact h
  | timeXlate a => exact h.of_same id rfl rfl rfl rfl rfl rfl rfl rfl rfl rfl rfl
  | totpDerive =>
    rw [Machine.doneState]
    split
    · exact h
    · exact cacheCoherent_totpCompute _
  | _ => cases hi

theorem CacheCoherent.raisedState {i : Instr} {s : State} (h : CacheCoherent s)
    (hi : keepsCache i = true) : CacheCoherent (raisedState i s) := by
  cases i with
  | nop | timeXlate => exact h
  | totpDerive => exact .of_clear (clearCvalid_cvalid s)
  | _ => cases hi

/-- Every command keeps the cache coherent: most clear it, NOP and TIME.XLATE write nothing it depends on,
and TOTP.DERIVE answers from it, clears it or computes it anew. -/
theorem CacheCoherent.exec {i : Instr} {s t : State} (h : CacheCoherent s) (ht : exec i s = .next t) :
    CacheCoherent t := by
  cases hi : keepsCache i with
  | false => exact .of_clear (exec_cvalid_of_clears ht hi)
  | true =>
    rw [← enterCommand_keeps s hi] at h
    rcases exec_cases ht with ⟨-, rfl⟩ | ⟨c, -, rfl⟩
    · exact (h.doneState hi).withErr 0x00 _
    · exact (h.raisedState hi).withErr c.byte true

theorem CacheCoherent.memWrite {s : State} (h : CacheCoherent s) (a : Nat) (v : Byte) :
    CacheCoherent (memWrite s a v) := by
  intro hc
  obtain ⟨hs, hkey, hklen, hdigits, -, hcode⟩ := memWrite_of_cvalid hc
  obtain ⟨hhash, hdigest, hdvalid, hout, holen, hbin, hcstep, -⟩ := memWrite_frame s a v
  exact h.of_same (fun _ => hs) hcstep hkey hklen hdigits hhash hdigest hdvalid hbin hcode hout holen hc

theorem CacheCoherent.issue {w : Nat} {s t : State} (h : CacheCoherent s) (ht : issue w s = .next t) :
    CacheCoherent t := by
  cases hd : decode (portWord w) with
  | command i => exact h.exec ((issue_of_command hd s).symm.trans ht)
  | illegal why =>
    rw [issue_of_illegal hd] at ht
    cases ht
    exact h.withErr 0x01 true

/-- Every transaction keeps the cache coherent. -/
theorem CacheCoherent.perform {act : HostAction} {s t : State} (h : CacheCoherent s)
    (ht : perform act s = .next t) : CacheCoherent t := by
  cases act with
  | issue w => exact h.issue ht
  | read a => cases ht; exact h.of_same id rfl rfl rfl rfl rfl rfl rfl rfl rfl rfl rfl
  | write a v => cases ht; exact h.memWrite a v
  | reset => cases ht; exact .of_clear rfl

/-! ### From transactions to steps -/

/-- What every transaction keeps, and what does not depend on the pending list, every step keeps. -/
theorem step_keeps {P : State → Prop} (hpending : ∀ s p, P s → P { s with pending := p })
    (hperform : ∀ act s t, P s → perform act s = .next t → P t) {s t : State} (h : P s)
    (ht : step s = .next t) : P t := by
  rcases step_cases s with ⟨-, hs⟩ | ⟨act, rest, -, hs⟩
  · rw [hs] at ht
    cases ht
    exact h
  · exact hperform act _ t (hpending s rest h) (hs.symm.trans ht)

/-! ### The settled statements -/

/-- Settles O12: the flags are clear at reset, and the rest is zero. -/
theorem resetMeetsInvariants : Obligations.ResetMeetsInvariants := by
  unfold Obligations.ResetMeetsInvariants
  exact ⟨stateInv_reset, .of_clear reset_cvalid⟩

/-- Settles O13: every transaction keeps the invariants. -/
theorem stepKeepsStateInv : Obligations.StepKeepsStateInv := by
  unfold Obligations.StepKeepsStateInv
  exact fun _ _ => step_keeps (fun _ p h => h.withPending p) fun _ _ _ h => h.perform

/-- Settles O14: every transaction keeps the cache coherent. -/
theorem stepKeepsCacheCoherent : Obligations.StepKeepsCacheCoherent := by
  unfold Obligations.StepKeepsCacheCoherent
  exact fun _ _ => step_keeps
    (fun _ _ h => h.of_same id rfl rfl rfl rfl rfl rfl rfl rfl rfl rfl rfl) fun _ _ _ h => h.perform

/-- Settles O21: a write changes host-written registers only, and where it does not clear CVALID it leaves
it. -/
theorem portWriteLeavesReadOnlyResultsAlone : Obligations.PortWriteLeavesReadOnlyResultsAlone := by
  unfold Obligations.PortWriteLeavesReadOnlyResultsAlone
  intro s a v
  obtain ⟨hhash, hdigest, hdvalid, hout, holen, hbin, hcstep, herr, hfault, hcount, -⟩ :=
    memWrite_frame s a v
  exact ⟨_, rfl, hhash, hdigest, hdvalid, hout, holen, hbin, hcstep, herr, hfault, hcount,
    fun hc => (memWrite_of_cvalid hc).1⟩

end Sys2Proof.Machine

/-! SUPPORT. What the data port shows (20_memory.md R42, R45, R49): numbers byte by byte, windows element by
element, STATUS; what it shows after a command whose rule does not list a register as written, and after
CTX.CLEAR; and the settled statements about reads. -/

namespace Sys2Proof.Machine

/-! ### Numbers and windows on the port (R45, R49) -/

section
variable {s : State} {r : Region} (hr : r ∈ regMap) {k : Nat} (hk : k < r.size)
include hr hk

/-- A register whose bytes are those of a number reads big-endian from its first address on. -/
theorem memRead_number_toNat {w : Nat} {v : BitVec w}
    (hv : readReg s r.name k = byteBE r.size v k) :
    (memRead s (r.base + k)).toNat = v.toNat / 2 ^ (8 * (r.size - 1 - k)) % 256 := by
  rw [memRead_of_region hr s hk, hv, byteBE_toNat]

/-- A window reads element by element from its first address on. -/
theorem memRead_window {v : Vector Byte r.size} (hv : readReg s r.name k = byteAt v k) :
    memRead s (r.base + k) = v[k] := by
  rw [memRead_of_region hr s hk, hv, byteAt_of_lt]

/-- A small count in one byte reads as its number. -/
theorem memRead_count_toNat {n : Nat} (hv : readReg s r.name k = BitVec.ofNat 8 n) (hn : n < 256) :
    (memRead s (r.base + k)).toNat = n := by
  rw [memRead_of_region hr s hk, hv, BitVec.toNat_ofNat, Nat.mod_eq_of_lt hn]

end

/-- CNT_HI and CNT_LO stand side by side, so the eight bytes from `0x038` on are those of CNT (R13). -/
theorem memRead_cnt_toNat (s : State) {k : Nat} (hk : k < 8) :
    (memRead s (0x038 + k)).toNat = s.hash.cnt.toNat / 2 ^ (8 * (7 - k)) % 256 := by
  have hlo := s.hash.cntLo.isLt
  rw [cnt_toNat]
  by_cases h4 : k < 4
  · rw [memRead_number_toNat (r := ⟨.cntHi, 0x038, 4, .ro, false⟩) (by decide) h4
      (v := s.hash.cntHi) rfl]
    dsimp only
    interval_cases k <;> omega
  · obtain ⟨j, rfl⟩ := Nat.exists_eq_add_of_le (Nat.le_of_not_lt h4)
    have hj : j < 4 := by omega
    rw [← Nat.add_assoc, memRead_number_toNat (r := ⟨.cntLo, 0x03C, 4, .ro, false⟩) (by decide) hj
      (v := s.hash.cntLo) rfl]
    dsimp only
    interval_cases j <;> omega

/-- The accumulators stand one after another from `0x040` on (R42). -/
theorem memRead_acc_toNat (s : State) {j k : Nat} (hj : j < 5) (hk : k < 4) :
    (memRead s (0x040 + 4 * j + k)).toNat = (s.hash.acc j).toNat / 2 ^ (8 * (3 - k)) % 256 := by
  interval_cases j
  · exact memRead_number_toNat (r := ⟨.h0, 0x040, 4, .ro, false⟩) (by decide) hk rfl
  · exact memRead_number_toNat (r := ⟨.h1, 0x044, 4, .ro, false⟩) (by decide) hk rfl
  · exact memRead_number_toNat (r := ⟨.h2, 0x048, 4, .ro, false⟩) (by decide) hk rfl
  · exact memRead_number_toNat (r := ⟨.h3, 0x04C, 4, .ro, false⟩) (by decide) hk rfl
  · exact memRead_number_toNat (r := ⟨.h4, 0x050, 4, .ro, false⟩) (by decide) hk rfl

/-! ### The frame of every command on the register space -/

theorem err_mem_writtenRegs (i : Instr) : .err ∈ writtenRegs i := by
  cases i <;> simp [writtenRegs, regMap]

theorem status_mem_writtenRegs {i : Instr} (hi : i ≠ .nop) : .status ∈ writtenRegs i := by
  cases i with
  | nop => exact absurd rfl hi
  | _ => simp [writtenRegs, regMap]

section
variable (s : State) {r : RegName} (k : Nat)

theorem readReg_withErr (e : Byte) (hr : r ≠ .err) :
    readReg { s with err := e } r k = readReg s r k := by
  cases r with
  | err => exact absurd rfl hr
  | _ => rfl

theorem readReg_withFailure (e : Byte) (f : Bool) (hs : r ≠ .status) (he : r ≠ .err) :
    readReg { s with err := e, faulted := f } r k = readReg s r k := by
  cases r with
  | status => exact absurd rfl hs
  | err => exact absurd rfl he
  | _ => rfl

theorem readReg_enterCommand (i : Instr) (hr : r ≠ .status) :
    readReg (enterCommand i s) r k = readReg s r k := by
  rw [enterCommand]
  split
  · rfl
  · exact readReg_clearCvalid s hr k

/-- A register shows one part of the state, and a body that runs to its end keeps, by the field lemmas of
its operations, the part of each register its rule does not list. -/
theorem readReg_doneState {i : Instr} (hr : r ∉ writtenRegs i) :
    readReg (doneState i s) r k = readReg s r k := by
  cases i with
  | nop => rfl
  | decRender w =>
    rw [doneState]
    split
    · revert hr
      cases r <;> simp [readReg, writtenRegs]
    · rfl
  | totpDerive =>
    rw [doneState]
    split
    · rfl
    · revert hr
      cases r <;> simp [readReg, writtenRegs, hashRegs, accRegs]
  | _ =>
    rw [doneState]
    revert hr
    cases r <;> simp [readReg, writtenRegs, hashRegs, accRegs, regMap]

/-- A body that raises has written at most results, which its rule lists. -/
theorem readReg_raisedState {i : Instr} (hr : r ∉ writtenRegs i) :
    readReg (raisedState i s) r k = readReg s r k := by
  cases i with
  | hmacCompute | hotpDerive | totpDerive | decRender =>
    rw [raisedState]
    revert hr
    cases r <;> simp [readReg, writtenRegs]
  | _ => rfl

end

/-- Every command keeps the bytes of the registers its rule does not list. -/
theorem exec_readReg {i : Instr} {s t : State} (h : exec i s = .next t) {r : RegName}
    (hr : r ∉ writtenRegs i) (k : Nat) : readReg t r k = readReg s r k := by
  have herr : r ≠ .err := fun he => hr (he ▸ err_mem_writtenRegs i)
  by_cases hi : i = .nop
  · obtain rfl := hi
    rw [exec_nop] at h
    cases h
    exact readReg_withErr s k _ herr
  · have hstatus : r ≠ .status := fun hs => hr (hs ▸ status_mem_writtenRegs hi)
    rcases exec_cases h with ⟨-, rfl⟩ | ⟨c, -, rfl⟩
    · rw [readReg_withErr _ _ _ herr, readReg_doneState _ _ hr, readReg_enterCommand _ _ i hstatus]
    · rw [readReg_withFailure _ _ _ _ hstatus herr, readReg_raisedState _ _ hr,
        readReg_enterCommand _ _ i hstatus]

/-! ### CTX.CLEAR (R148) -/

theorem exec_ctxClear (s : State) : exec .ctxClear s = .next (clearContext s) := by
  rw [exec_of_done rfl, enterCommand_clears _ rfl, doneState, clearContext, clearContext, clearCvalid,
    State.reset]

theorem clearContext_status (s : State) :
    (clearContext s).status = if s.faulted then 0x80 else 0x00 := by
  rw [State.status, clearContext_faulted, clearContext_cvalid, clearContext_dvalid,
    clearContext_hash, hashReset_phase]
  cases s.faulted <;> rfl

/-- HMACCNT is the four bytes from `0x02C` on (R42). -/
theorem regionAt_name_ne_hmaccnt {a : Nat} {r : Region} (h : regionAt a = some r)
    (ha : a < 0x02C ∨ 0x02F < a) : r.name ≠ .hmaccnt := by
  intro hn
  obtain ⟨hr, hlo, hhi⟩ := (regionAt_iff a r).mp h
  have hcount : ∀ r ∈ regMap, r.name = .hmaccnt → r.base = 0x02C ∧ r.base + r.size = 0x030 := by decide
  have := hcount r hr hn
  omega

/-- Of the registers CTX.CLEAR leaves STATUS and HMACCNT only other than reset does. -/
theorem readReg_clearContext (s : State) {r : RegName} (hs : r ≠ .status) (hn : r ≠ .hmaccnt)
    (k : Nat) : readReg (clearContext s) r k = 0x00 := by
  rw [← readReg_reset r k]
  cases r with
  | status => exact absurd rfl hs
  | hmaccnt => exact absurd rfl hn
  | _ => rfl

theorem memRead_clearContext (s : State) {a : Nat} (h0 : portAddr a ≠ 0x000)
    (ha : portAddr a < 0x02C ∨ 0x02F < portAddr a) : memRead (clearContext s) a = 0x00 := by
  cases hr : regionAt (portAddr a) with
  | none => exact memRead_of_reserved hr _
  | some r =>
    rw [memRead_of_regionAt hr]
    exact readReg_clearContext s (regionAt_name_ne_status hr h0) (regionAt_name_ne_hmaccnt hr ha) _

theorem memRead_hmaccnt (s : State) {k : Nat} (hk : k < 4) :
    memRead s (0x02C + k) = byteBE 4 s.hmaccnt k :=
  memRead_of_region (r := ⟨.hmaccnt, 0x02C, 4, .ro, false⟩) (by decide) s hk

/-! ### The settled statements -/

/-- Settles O19: an address shows a register, and a command keeps the bytes of those it does not list. -/
theorem unwrittenBytesReadAsBefore : Obligations.UnwrittenBytesReadAsBefore := by
  unfold Obligations.UnwrittenBytesReadAsBefore
  exact fun i s t h a ha => memRead_congr fun r hr => exec_readReg h (ha r hr) _

/-- Settles O22: each register of the map shows the bytes of its number. -/
theorem registersReadBigEndian : Obligations.RegistersReadBigEndian := by
  unfold Obligations.RegistersReadBigEndian
  intro s k
  refine ⟨fun hk => ⟨?_, ?_, ?_, memRead_cnt_toNat s hk⟩,
    fun hk => ⟨?_, ?_, ?_, ?_, ?_, ?_, ?_, ?_, fun j hj => memRead_acc_toNat s hj hk⟩⟩
  · exact memRead_number_toNat (r := ⟨.ctr, 0x008, 8, .rw, false⟩) (by decide) hk rfl
  · exact memRead_number_toNat (r := ⟨.ts, 0x010, 8, .rw, false⟩) (by decide) hk rfl
  · exact memRead_number_toNat (r := ⟨.cstep, 0x030, 8, .ro, false⟩) (by decide) hk rfl
  · exact memRead_number_toNat (r := ⟨.tstep, 0x018, 4, .rw, true⟩) (by decide) hk rfl
  · exact memRead_number_toNat (r := ⟨.clk, 0x01C, 4, .rw, false⟩) (by decide) hk rfl
  · exact memRead_number_toNat (r := ⟨.tzoff, 0x020, 4, .rw, false⟩) (by decide) hk rfl
  · exact memRead_number_toNat (r := ⟨.bincode, 0x024, 4, .ro, false⟩) (by decide) hk rfl
  · exact memRead_number_toNat (r := ⟨.code, 0x028, 4, .rw, true⟩) (by decide) hk rfl
  · exact memRead_number_toNat (r := ⟨.hmaccnt, 0x02C, 4, .ro, false⟩) (by decide) hk rfl
  · exact memRead_number_toNat (r := ⟨.cntHi, 0x038, 4, .ro, false⟩) (by decide) hk rfl
  · exact memRead_number_toNat (r := ⟨.cntLo, 0x03C, 4, .ro, false⟩) (by decide) hk rfl

/-- Settles O25: after CTX.CLEAR only FAULTED and HMACCNT can differ from reset, and only STATUS and
HMACCNT show them. -/
theorem ctxClearRestoresReset : Obligations.CtxClearRestoresReset := by
  unfold Obligations.CtxClearRestoresReset
  refine ⟨by decide, fun s => ⟨_, exec_ctxClear s, rfl, clearContext_status s,
    fun a h0 ha => memRead_clearContext s h0 ha, fun a hlo hhi => ?_⟩⟩
  obtain ⟨k, rfl⟩ := Nat.exists_eq_add_of_le hlo
  rw [memRead_hmaccnt _ (by omega), memRead_hmaccnt _ (by omega), clearContext_hmaccnt]

/-- Settles O49: each row of the map shows its register, and a window's row its elements. -/
theorem statusAndWindowsReadAtTheirAddresses : Obligations.StatusAndWindowsReadAtTheirAddresses := by
  unfold Obligations.StatusAndWindowsReadAtTheirAddresses
  intro s
  refine ⟨?_, ?_, ?_, ?_, ?_, ?_, fun i hi => ?_, fun i hi => ?_, fun i hi => ?_, fun i hi => ?_,
    fun i hi => ?_, fun i hi => ?_, fun i hi => ?_⟩
  · rw [memRead_status, status_toNat]
    cases s.faulted <;> cases s.cvalid <;> cases s.dvalid <;> rfl
  · exact memRead_of_region (r := ⟨.err, 0x001, 1, .ro, false⟩) (by decide) s (k := 0) (by decide)
  · exact memRead_of_region (r := ⟨.klen, 0x002, 1, .rw, true⟩) (by decide) s (k := 0) (by decide)
  · exact memRead_of_region (r := ⟨.digits, 0x003, 1, .rw, true⟩) (by decide) s (k := 0) (by decide)
  · exact memRead_count_toNat (r := ⟨.olen, 0x004, 1, .ro, false⟩) (by decide) Nat.one_pos rfl
      (by omega)
  · exact memRead_count_toNat (r := ⟨.off, 0x005, 1, .ro, false⟩) (by decide) Nat.one_pos rfl
      (by omega)
  · exact memRead_window (r := ⟨.digest, 0x060, 20, .ro, false⟩) (by decide) hi rfl
  · exact memRead_window (r := ⟨.out, 0x074, 11, .ro, false⟩) (by decide) hi rfl
  · exact memRead_window (r := ⟨.key, 0x080, 64, .rw, true⟩) (by decide) hi rfl
  · exact memRead_window (r := ⟨.dkey, 0x0C0, 20, .rw, false⟩) (by decide) hi rfl
  · exact memRead_window (r := ⟨.esec, 0x0E0, 20, .rw, false⟩) (by decide) hi rfl
  · exact memRead_window (r := ⟨.msg, 0x100, 256, .rw, false⟩) (by decide) hi rfl
  · exact memRead_window (r := ⟨.buf, 0x200, 64, .ro, false⟩) (by decide) hi rfl

end Sys2Proof.Machine

/-! SUPPORT. Messages through the streaming engine (40_sha1.md R82, R86, R87, R91): the hash state after
SHA1.UPDATE and SHA1.FINAL in terms of the pending bytes, the run of a message in chunks, and the settled
statements about them. -/

namespace Sys2Proof.Machine

/-! ### Accumulators and digests -/

theorem msgBytes_length (n : Byte) (s : State) : (msgBytes n s).length = n.toNat := by
  have := n.isLt
  rw [msgBytes, List.length_take, Vector.length_toList]
  omega

theorem acc_foldl_compressBlock {h h' : HashState} {bs : List (Vector Byte 64)}
    (e : accOf h' = bs.foldl compressAcc (accOf h)) (i : Nat) :
    h'.acc i = (bs.foldl compressBlock h).acc i :=
  acc_eq_of_accOf (e.trans (accOf_foldl_compressBlock bs h).symm) i

/-- The digest is the accumulators, each as four big-endian bytes (R86, R50). -/
theorem byteAt_digestOf_toNat (h : HashState) {i j : Nat} (hi : i < 5) (hj : j < 4) :
    (byteAt (digestOf h) (4 * i + j)).toNat = (h.acc i).toNat / 2 ^ (8 * (3 - j)) % 256 := by
  rw [digestOf, byteAt_ofFn _ (by omega)]
  dsimp only
  rw [show (4 * i + j) / 4 = i by omega, show (4 * i + j) % 4 = j by omega, byteBE_toNat]

/-! ### SHA1.UPDATE and SHA1.FINAL by the pending bytes (R82, R86) -/

/-- What is pending after bytes are accepted is what the full blocks leave of the bytes pending and new. -/
theorem byteAt_buf_hashUpdate (h : HashState) (bs : List Byte) {j : Nat}
    (hj : j < (hashUpdate h bs).off.val) : byteAt (hashUpdate h bs).buf j =
      (pendingBytes h ++ bs).getD (64 * ((pendingBytes h ++ bs).length / 64) + j) 0x00 := by
  rw [← pendingBytes_getD _ hj, (hashUpdate_pending h bs).2]
  simp only [List.getD, List.getElem?_drop]

/-- The padded pending bytes, written out for one block and for two (R86). -/
theorem pendingBytes_append_paddingOf (h : HashState) :
    pendingBytes h ++ paddingOf h.off.val h.cnt =
      if h.off.val < 56 then
        pendingBytes h ++ [0x80] ++ List.replicate (55 - h.off.val) 0x00 ++ bytesBE 8 h.cnt
      else pendingBytes h ++ [0x80] ++ List.replicate (119 - h.off.val) 0x00 ++ bytesBE 8 h.cnt := by
  rw [paddingOf]
  split <;> simp only [List.append_assoc]

theorem messageBlocks_padded_length (h : HashState) :
    (messageBlocks (pendingBytes h ++ paddingOf h.off.val h.cnt)).length =
      if h.off.val < 56 then 1 else 2 := by
  rw [messageBlocks_length, List.length_append, pendingBytes_length, paddingOf_length _ _ h.off.isLt]
  split <;> rfl

/-- A whole lifecycle over `m` counts its bits modulo 2^64 (R13). -/
theorem cnt_toNat_hashRun (h : HashState) (m : List Byte) :
    (hashFinal (hashUpdate (hashInit h) m)).cnt.toNat = 8 * m.length % 2 ^ 64 := by
  rw [cnt_hashFinal, cnt_toNat_hashUpdate, cnt_hashInit]
  change (0 + 8 * m.length) % 2 ^ 64 = _
  rw [Nat.zero_add]

/-! ### A message in chunks (R91) -/

/-- One chunk of a script: written to MSG and taken by SHA1.UPDATE. -/
theorem hostRun_chunk {s : State} (hp : s.hash.phase = .active) {c : List Byte} (hc : c.length ≤ 255) :
    hostRun (writeBytes (addrOf .msg) c ++ [issueOf (.sha1Update (BitVec.ofNat 8 c.length))]) s =
      .next { s with msg := putAll s.msg 0 c, hash := hashUpdate s.hash c, cvalid := false,
                     err := 0x00 } := by
  have hwrite := hostRun_write_msg s 0 c (by omega)
  have htake := (perform_issueOf (decode_encode (.sha1Update (BitVec.ofNat 8 c.length))) _).trans
    (exec_sha1Update_of_active _ (s := { s with msg := putAll s.msg 0 c }) hp)
  rw [msgBytes_of_written s c hc] at htake
  rw [addrOf_msg, hostRun_append_of hwrite, hostRun_cons_of htake, hostRun_nil]

/-- The chunks of a script are accepted one after another as the message they make up. -/
theorem hostRun_chunks {s : State} (hp : s.hash.phase = .active) {chunks : List (List Byte)}
    (hc : ∀ c ∈ chunks, c.length ≤ 255) :
    ∃ t, hostRun (chunks.flatMap fun c =>
        writeBytes (addrOf .msg) c ++ [issueOf (.sha1Update (BitVec.ofNat 8 c.length))]) s = .next t ∧
      t.hash = hashUpdate s.hash chunks.flatten := by
  induction chunks generalizing s with
  | nil => exact ⟨s, rfl, rfl⟩
  | cons c chunks ih =>
    have hfirst := hostRun_chunk hp (hc c List.mem_cons_self)
    obtain ⟨t, ht, hhash⟩ := ih (s := { s with msg := putAll s.msg 0 c, hash := hashUpdate s.hash c,
                                               cvalid := false, err := 0x00 })
      ((hashUpdate_phase _ _).trans hp) fun d hd => hc d (List.mem_cons_of_mem c hd)
    refine ⟨t, ?_, ?_⟩
    · rw [List.flatMap_cons, hostRun_append_of hfirst, ht]
    · rw [hhash, List.flatten_cons, hashUpdate_append]

/-- A message streamed in chunks leaves what one lifecycle over the whole message leaves (R91). -/
theorem hostRun_streamScript (s : State) {chunks : List (List Byte)}
    (hc : ∀ c ∈ chunks, c.length ≤ 255) :
    ∃ t, hostRun (streamScript chunks) s = .next t ∧
      t.hash = hashFinal (hashUpdate (hashInit s.hash) chunks.flatten) ∧
      t.digest = messageDigest chunks.flatten ∧ t.dvalid = true := by
  have hinit := (perform_issueOf (decode_encode .sha1Init) s).trans (exec_sha1Init s)
  obtain ⟨u, hu, hhash⟩ := hostRun_chunks (hashInit_phase s.hash) (s := { s with
    hash := hashInit s.hash, dvalid := false, cvalid := false, err := 0x00 }) hc
  have hp : u.hash.phase = .active := by rw [hhash, hashUpdate_phase, hashInit_phase]
  have hfinal := (perform_issueOf (decode_encode .sha1Final) u).trans (exec_sha1Final_of_active hp)
  rw [streamScript, hostRun_cons_of hinit, hostRun_append_of hu, hostRun_cons_of hfinal, hostRun_nil]
  refine ⟨_, rfl, congrArg hashFinal hhash, ?_, rfl⟩
  dsimp only
  rw [hhash, digest_hashRun]

/-! ### The settled statements -/

/-- Settles O27: what accepting MSG[0..n-1] does to the pending bytes. -/
theorem sha1UpdateCompressesFullBlocks : Obligations.Sha1UpdateCompressesFullBlocks := by
  unfold Obligations.Sha1UpdateCompressesFullBlocks
  intro n s hp
  have hlen := msgBytes_length n s
  refine ⟨_, exec_sha1Update_of_active n hp, by rw [hashUpdate_phase, hp], ?_, ?_,
    ⟨fun i _ => acc_foldl_compressBlock (hashUpdate_pending _ _).1 i,
      fun j hj => byteAt_buf_hashUpdate _ _ hj⟩, fun room j hj => ?_⟩
  · rw [cnt_toNat_hashUpdate, hlen]
  · rw [off_hashUpdate, hlen]
  · rw [hashUpdate_leftover _ _ (by rwa [hlen]) (by rwa [hlen])]

/-- Settles O28: `sha1_final` compresses the padded pending bytes and emits the accumulators. -/
theorem sha1FinalPadsAndEmits : Obligations.Sha1FinalPadsAndEmits := by
  unfold Obligations.Sha1FinalPadsAndEmits
  intro s hp
  obtain ⟨hacc, hbuf⟩ := hashFinal_blocks s.hash
  have hlen := messageBlocks_padded_length s.hash
  rw [pendingBytes_append_paddingOf] at hacc hbuf hlen
  exact ⟨_, exec_sha1Final_of_active hp, hashFinal_phase _, congrArg Fin.val (hashFinal_off _),
    hashFinal_cntHi _, hashFinal_cntLo _, ⟨hlen, fun i _ => acc_foldl_compressBlock hacc i, hbuf⟩,
    fun i hi j hj => byteAt_digestOf_toNat _ hi hj⟩

/-- Settles O31: one lifecycle over MSG[0..n-1] computes the digest of the whole padded message. -/
theorem sha1HashComputesMessageDigest : Obligations.Sha1HashComputesMessageDigest := by
  unfold Obligations.Sha1HashComputesMessageDigest
  intro n s hp m
  have hn := n.isLt
  have hlen : m.length = n.toNat := msgBytes_length n s
  refine ⟨_, exec_sha1Hash_of_not_active n hp, digest_hashRun _ _,
    fun i _ => acc_eq_of_accOf (accOf_hashRun _ _) i, ?_, by rw [paddedMessage_blocks, hlen]⟩
  rw [cnt_toNat_hashRun, msgBytes_length]
  omega

/-- Settles O32: both scripts leave what one lifecycle over the whole message leaves. -/
theorem streamingSplitIsIrrelevant : Obligations.StreamingSplitIsIrrelevant := by
  unfold Obligations.StreamingSplitIsIrrelevant
  intro s chunks chunks' hc hc' hflat
  obtain ⟨t, ht, hhash, hdigest, hvalid⟩ := hostRun_streamScript s hc
  obtain ⟨t', ht', hhash', hdigest', -⟩ := hostRun_streamScript s hc'
  refine ⟨t, t', ht, ht', hdigest, ?_, ?_, hvalid, ?_, ?_⟩
  · rw [hhash, hhash', hflat]
  · rw [hdigest, hdigest', hflat]
  · rw [hhash, hashFinal_phase]
  · rw [hhash, cnt_toNat_hashRun]

end Sys2Proof.Machine

/-! SUPPORT. The keyed derivations (41_hmac.md R102; 42_hotp.md R111 to R114): what HMAC.COMPUTE and
HOTP.DERIVE raise and leave, what their results do not depend on, and the settled statements about them. -/

namespace Sys2Proof.Machine

/-! ### What the keyed commands raise (R102, R114)

HMAC.COMPUTE has the tests of HOTP.DERIVE, so the three facts about HOTP.DERIVE are facts about it too. -/

section
variable {s : State}

theorem raisedCode_hotpDerive_of_active (h : s.hash.phase = .active) :
    raisedCode .hotpDerive (enterCommand .hotpDerive s) = some .seq := by
  rw [raisedCode, if_pos ((hashing_enterCommand _ s).mpr h)]

theorem raisedCode_hotpDerive_of_long (h : s.hash.phase ≠ .active) (hl : 64 < s.klen.toNat) :
    raisedCode .hotpDerive (enterCommand .hotpDerive s) = some .keylen := by
  rw [raisedCode, if_neg (mt (hashing_enterCommand _ s).mp h),
    if_pos ((keyTooLong_enterCommand _ s).mpr hl)]

theorem raisedCode_hotpDerive_of_ok (h : s.hash.phase ≠ .active) (hl : s.klen.toNat ≤ 64) :
    raisedCode .hotpDerive (enterCommand .hotpDerive s) = none := by
  rw [raisedCode, if_neg (mt (hashing_enterCommand _ s).mp h),
    if_neg (mt (keyTooLong_enterCommand _ s).mp (Nat.not_lt.mpr hl))]

end

/-! ### What a derivation does not depend on (R17, R112) -/

/-- `hmac` reads the key and the message only, so an update of the rest of the state commutes with it. -/
theorem hmac_clearCvalid (m : List Byte) (s : State) :
    hmac m (clearCvalid s) = { hmac m s with cvalid := false } := by
  obtain ⟨hhash, hdigest⟩ := hmac_agree (s := clearCvalid s) (s' := s) (fun _ => rfl) m
  ext1 <;> simp [hhash, hdigest]

theorem hotp_clearCvalid (c : DWord) (s : State) :
    hotp c (clearCvalid s) = { hotp c s with cvalid := false } := by
  obtain ⟨hhash, hdigest, hbin, hcode, hout⟩ :=
    hotp_agree (s := clearCvalid s) (s' := s) (fun _ => rfl) rfl c
  rw [hotp_frame c (clearCvalid s), hhash, hdigest, hbin, hcode, hout]
  ext1 <;> simp

/-- The state with another KEY and another DIGITS. -/
def withParams (k : Vector Byte 64) (d : Byte) (s : State) : State := { s with key := k, digits := d }

/-- The commands that compute an HMAC. -/
def derives (i : Instr) : Prop := (∃ n, i = .hmacCompute n) ∨ i = .hotpDerive ∨ i = .totpDerive

section
variable {s : State} {k : Vector Byte 64} {d : Byte}

theorem enterCommand_withParams (i : Instr) :
    enterCommand i (withParams k d s) = withParams k d (enterCommand i s) := by
  rw [enterCommand, enterCommand]
  split <;> rfl

theorem raisedCode_withParams {i : Instr} (hi : derives i) :
    raisedCode i (withParams k d s) = raisedCode i s := by
  obtain ⟨n, rfl⟩ | rfl | rfl := hi <;> rfl

theorem raisedState_withParams {i : Instr} (hi : derives i) :
    raisedState i (withParams k d s) = withParams k d (raisedState i s) := by
  obtain ⟨n, rfl⟩ | rfl | rfl := hi <;> rfl

theorem enterCommand_params (i : Instr) (s : State) : (enterCommand i s).key = s.key ∧
    (enterCommand i s).klen = s.klen ∧ (enterCommand i s).digits = s.digits := by
  rw [enterCommand]
  split <;> simp

variable (hk : ∀ j < s.klen.toNat, byteAt k j = byteAt s.key j)
include hk

/-- Of KEY `hmac` reads the bytes below KLEN (R17), and it does not read DIGITS. -/
theorem hmac_withParams (m : List Byte) : hmac m (withParams k d s) = withParams k d (hmac m s) := by
  obtain ⟨hhash, hdigest⟩ := hmac_agree (s := withParams k d s) (s' := s)
    (keyByte_eq_of_agree rfl hk) m
  rw [hmac_frame m (withParams k d s), hhash, hdigest]
  ext1 <;> simp [withParams]

variable (hd : digitsOf d = digitsOf s.digits)
include hd

/-- Of DIGITS `hotp` reads the supported digit count (R112). -/
theorem hotp_withParams (c : DWord) : hotp c (withParams k d s) = withParams k d (hotp c s) := by
  obtain ⟨hhash, hdigest, hbin, hcode, hout⟩ := hotp_agree (s := withParams k d s) (s' := s)
    (keyByte_eq_of_agree rfl hk) hd c
  rw [hotp_frame c (withParams k d s), hhash, hdigest, hbin, hcode, hout]
  ext1 <;> simp [withParams, hd]

theorem totpCompute_withParams : totpCompute (withParams k d s) = withParams k d (totpCompute s) := by
  rw [totpCompute, hotp_withParams hk hd, totpCompute]
  rfl

theorem doneState_withParams {i : Instr} (hi : derives i) :
    doneState i (withParams k d s) = withParams k d (doneState i s) := by
  obtain ⟨n, rfl⟩ | rfl | rfl := hi
  · exact hmac_withParams hk _
  · exact hotp_withParams hk hd _
  · have hhit : cacheHit (withParams k d s) = cacheHit s := rfl
    rw [doneState, doneState, hhit]
    split
    · rfl
    · exact totpCompute_withParams (s := clearCvalid s) hk hd

/-- A derivation is indifferent to KEY bytes at KLEN and above and to which unsupported digit count DIGITS
holds. -/
theorem exec_withParams {i : Instr} (hi : derives i) {t : State} (h : exec i s = .next t) :
    exec i (withParams k d s) = .next (withParams k d t) := by
  obtain ⟨ekey, eklen, edigits⟩ := enterCommand_params i s
  rw [← ekey, ← eklen] at hk
  rw [← edigits] at hd
  have henter := enterCommand_withParams (s := s) (k := k) (d := d) i
  rcases exec_cases h with ⟨hr, rfl⟩ | ⟨c, hr, rfl⟩
  · rw [exec_of_done (by rw [henter, raisedCode_withParams hi, hr]), henter,
      doneState_withParams hk hd hi]
    rfl
  · rw [exec_of_raised (by rw [henter, raisedCode_withParams hi, hr]), henter,
      raisedState_withParams hi]
    rfl

end

/-- A derivation writes neither KEY nor DIGITS: with both as they are, it ends as it does. -/
theorem exec_keeps_params {i : Instr} (hi : derives i) {s t : State} (h : exec i s = .next t) :
    t.key = s.key ∧ t.digits = s.digits := by
  have h' : exec i s = .next (withParams s.key s.digits t) :=
    exec_withParams (s := s) (fun _ _ => rfl) rfl hi h
  rw [h] at h'
  injection h' with ht
  rw [ht]
  exact ⟨rfl, rfl⟩

/-! ### What HMAC.COMPUTE and HOTP.DERIVE leave (R102, R114) -/

theorem exec_hmacCompute_of_ok (n : Byte) {s : State} (h : s.hash.phase ≠ .active)
    (hl : s.klen.toNat ≤ 64) : exec (.hmacCompute n) s =
      .next { hmac (msgBytes n s) s with cvalid := false, err := 0x00 } := by
  have hr : raisedCode (.hmacCompute n) (enterCommand (.hmacCompute n) s) = none :=
    raisedCode_hotpDerive_of_ok h hl
  rw [exec_of_done hr, enterCommand_clears _ rfl, doneState, msgBytes_clearCvalid, hmac_clearCvalid]

theorem exec_hotpDerive_of_ok {s : State} (h : s.hash.phase ≠ .active) (hl : s.klen.toNat ≤ 64) :
    exec .hotpDerive s = .next { hotp s.ctr s with cvalid := false, err := 0x00 } := by
  rw [exec_of_done (raisedCode_hotpDerive_of_ok h hl), enterCommand_clears _ rfl, doneState,
    clearCvalid_ctr, hotp_clearCvalid]

/-- HOTP.DERIVE that raises leaves no digest and no string (R114, R171). -/
theorem exec_hotpDerive_of_raised {s : State} {c : ErrorCode}
    (hr : raisedCode .hotpDerive (enterCommand .hotpDerive s) = some c) :
    exec .hotpDerive s = .next { s with
      dvalid := false, olen := 0, out := Vector.replicate 11 0x00, cvalid := false,
      err := c.byte, faulted := true } := by
  rw [exec_of_raised hr, raisedState_hotpDerive, unsetCode_clearCvalid]

/-- HMAC.COMPUTE that raises leaves no digest (R102, R171). -/
theorem exec_hmacCompute_of_raised {n : Byte} {s : State} {c : ErrorCode}
    (hr : raisedCode .hotpDerive (enterCommand .hotpDerive s) = some c) :
    exec (.hmacCompute n) s = .next { s with
      dvalid := false, cvalid := false, err := c.byte, faulted := true } := by
  have hr' : raisedCode (.hmacCompute n) (enterCommand (.hmacCompute n) s) = some c := hr
  rw [exec_of_raised hr', raisedState_hmacCompute]

/-! ### The code of a counter (R111 to R113, R115) -/

/-- The eight bytes of the counter are those of R49. -/
theorem bytesBE_eq_map (v : DWord) :
    bytesBE 8 v = (List.range 8).map fun k => BitVec.ofNat 8 (v.toNat / 2 ^ (8 * (7 - k))) := by
  refine List.map_congr_left fun k _ => BitVec.eq_of_toNat_eq ?_
  rw [byteBE_toNat, BitVec.toNat_ofNat]

/-- BINCODE after a derivation is the window of the digest at the offset of its last nibble (R111). -/
theorem hotp_bincode_eq_truncate (c : DWord) (s : State) :
    (hotp c s).bincode = truncate (hotp c s).digest := by
  rw [hotp_bincode, hotp_digest]

theorem hotp_code_toNat (c : DWord) (s : State) :
    (hotp c s).code.toNat = (hotp c s).bincode.toNat % 10 ^ (digitsOf s.digits).val := by
  have hlt := truncate_lt (hmac (bytesBE 8 c) s).digest
  have hmod := Nat.mod_le (truncate (hmac (bytesBE 8 c) s).digest).toNat
    (10 ^ (digitsOf s.digits).val)
  rw [hotp_code, hotp_bincode, BitVec.toNat_ofNat, Nat.mod_eq_of_lt (by omega)]

/-- The string a derivation leaves spells its code: the code has no more digits than the string. -/
theorem decimalValue_hotp (c : DWord) (s : State) :
    decimalValue ((hotp c s).out.toList.take (digitsOf s.digits).val) = (hotp c s).code.toNat := by
  rw [hotp_out_eq_render, decimalValue_render, hotp_code_toNat, Nat.mod_mod]

/-! ### The settled statements -/

/-- Settles O33: `hmac` computes the MAC and ends as its outer lifecycle does. -/
theorem hmacComputesMac : Obligations.HmacComputesMac := by
  unfold Obligations.HmacComputesMac
  intro n s h hl
  have hmac_eq := hmac_digest_eq_macDigest (msgBytes n s) s hl
  refine ⟨(hmac (msgBytes n s) s).hash, ?_, hmac_phase _ s, congrArg Fin.val (hmac_off _ s),
    congrArg BitVec.toNat (hmac_cnt _ s), (hmac_digest_eq_digestOf _ s).symm.trans hmac_eq⟩
  rw [exec_hmacCompute_of_ok n h hl, hmac_frame, hmac_eq]
  rfl

/-- Settles O34: both tests raise before the computation, in their order. -/
theorem hmacRefusalsUnsetTheDigest : Obligations.HmacRefusalsUnsetTheDigest := by
  unfold Obligations.HmacRefusalsUnsetTheDigest
  exact fun n s => ⟨fun h => exec_hmacCompute_of_raised (raisedCode_hotpDerive_of_active h),
    fun h hl => exec_hmacCompute_of_raised (raisedCode_hotpDerive_of_long h hl)⟩

/-- Settles O35: a derivation commutes with replacing KEY by a key that agrees below KLEN. -/
theorem keyTailIsIgnored : Obligations.KeyTailIsIgnored := by
  unfold Obligations.KeyTailIsIgnored
  intro s key' hk i hi
  have ht := exec_eq_frame i s
  refine ⟨_, ht, (exec_withParams (d := s.digits) hk rfl hi ht).trans ?_⟩
  rw [withParams, ← (exec_keeps_params hi ht).2]

/-- Settles O36: what `hotp` leaves, read off field by field. -/
theorem hotpDerivesCode : Obligations.HotpDerivesCode := by
  unfold Obligations.HotpDerivesCode
  intro s h hl message g o d
  have hg : (hotp s.ctr s).digest = g := by
    rw [hotp_digest, bytesBE_eq_map, hmac_digest_eq_macDigest _ s hl]
  have hd : (digitsOf s.digits).val = d := digitsOf_val s.digits
  have hout := hotp_out_eq_render s.ctr s
  refine ⟨_, exec_hotpDerive_of_ok h hl, ?_, ?_, ?_, ?_, ?_, ?_, ?_, fun k hk => ?_, fun k hk => ?_⟩ <;>
    dsimp only
  · rw [← hg]
    ext1 <;> simp
  · rw [hotp_hash, hmac_phase]
  · rw [hotp_hash, hmac_cnt]
    rfl
  · rw [hotp_bincode_eq_truncate, hg, truncate_toNat]
  · rw [hotp_code_toNat, hd]
  · rw [hotp_olen, hd]
  · rw [← hd, decimalValue_hotp]
  · rw [hout]
    exact byteAt_render_digit _ _ (hd.symm ▸ hk)
  · rw [hout]
    exact byteAt_render_tail _ _ (hd.symm ▸ hk)

/-- Settles O37: both tests raise before the computation, in their order. -/
theorem hotpRefusalsLeaveNoString : Obligations.HotpRefusalsLeaveNoString := by
  unfold Obligations.HotpRefusalsLeaveNoString
  exact fun s => ⟨fun h => exec_hotpDerive_of_raised (raisedCode_hotpDerive_of_active h),
    fun h hl => exec_hotpDerive_of_raised (raisedCode_hotpDerive_of_long h hl)⟩

/-- Settles O38: a derivation commutes with replacing an unsupported DIGITS by 6. -/
theorem unsupportedDigitsActAsSix : Obligations.UnsupportedDigitsActAsSix := by
  unfold Obligations.UnsupportedDigitsActAsSix
  intro s h6 h7 h8 i hi
  have ht := exec_eq_frame i s
  obtain ⟨hkey, hdigits⟩ := exec_keeps_params (.inr hi) ht
  refine ⟨_, ht, hdigits, (exec_withParams (k := s.key) (d := 6) (fun _ _ => rfl)
    (digitsOf_unsupported h6 h7 h8).symm (.inr hi) ht).trans ?_⟩
  rw [withParams, ← hkey]

end Sys2Proof.Machine

/-! SUPPORT. TOTP.DERIVE and its step cache (43_totp.md R126 to R131): the two modes of TIME.XLATE, the
outcomes of TOTP.DERIVE, the script that evaluates at a timestamp, and the settled statements about them. -/

namespace Sys2Proof.Machine

/-! ### The two modes of TIME.XLATE (R126) -/

/-- Negating TZOFF negates its seconds, except at the one number without a negative. -/
theorem translatedTime_neg_tzoff {s : State} (h : s.tzoff ≠ 0x80000000) :
    translatedTime .add { s with tzoff := -s.tzoff } = translatedTime .subtract s := by
  have hneg : (-s.tzoff).toInt = -s.tzoff.toInt := BitVec.toInt_neg_of_ne_intMin h
  rw [translatedTime, translatedTime, tzSeconds, tzSeconds, hneg, Int.sub_eq_add_neg]
  rfl

/-! ### The outcomes of TOTP.DERIVE (R129) -/

theorem raisedCode_totpDerive_of_active {s : State} (h : s.hash.phase = .active) :
    raisedCode .totpDerive s = some .seq := by
  rw [raisedCode, if_pos ((hashing_eq_true s).mpr h)]

section
variable {s : State} (h : s.hash.phase ≠ .active)
include h

theorem raisedCode_totpDerive_of_divz (h0 : s.tstep = 0) : raisedCode .totpDerive s = some .divz := by
  rw [raisedCode, if_neg (mt (hashing_eq_true s).mp h), if_pos h0]

variable (h0 : s.tstep ≠ 0)
include h0

theorem raisedCode_totpDerive_of_hit (hhit : cacheHit s = true) : raisedCode .totpDerive s = none := by
  rw [raisedCode, if_neg (mt (hashing_eq_true s).mp h), if_neg h0, if_pos hhit]

theorem raisedCode_totpDerive_of_miss (hmiss : ¬cacheHit s = true) :
    raisedCode .totpDerive s = if keyTooLong s then some .keylen else none := by
  rw [raisedCode, if_neg (mt (hashing_eq_true s).mp h), if_neg h0, if_neg hmiss]

theorem exec_totpDerive_of_hit (hhit : cacheHit s = true) :
    exec .totpDerive s = .next { s with err := 0x00 } := by
  have hr := raisedCode_totpDerive_of_hit h h0 hhit
  rw [exec_of_done (by rwa [enterCommand_keeps _ rfl]), enterCommand_keeps _ rfl, doneState, if_pos hhit]

/-- A computing TOTP.DERIVE leaves the derivation of the step and caches it. -/
theorem exec_totpDerive_of_miss (hmiss : ¬cacheHit s = true) (hl : s.klen.toNat ≤ 64) :
    exec .totpDerive s = .next { hotp (timeStep s) s with
      cstep := timeStep s, cvalid := true, err := 0x00 } := by
  have hr : raisedCode .totpDerive s = none := by
    rw [raisedCode_totpDerive_of_miss h h0 hmiss, if_neg (by simpa using hl)]
  have hstep : timeStep (clearCvalid s) = timeStep s := rfl
  rw [exec_of_done (by rwa [enterCommand_keeps _ rfl]), enterCommand_keeps _ rfl, doneState,
    if_neg hmiss, totpCompute, hstep, hotp_clearCvalid, storeStep]

/-- After an evaluation that succeeds, by the cache or by computing, the step is cached: a second
evaluation in it hits. -/
theorem exec_totpDerive_caches (hl : s.klen.toNat ≤ 64) :
    ∃ u, exec .totpDerive s = .next u ∧ u.hash.phase ≠ .active ∧ u.tstep = s.tstep ∧ u.ts = s.ts ∧
      u.cvalid = true ∧ u.cstep = timeStep s ∧ u.err = 0x00 := by
  by_cases hhit : cacheHit s = true
  · obtain ⟨hcv, hcs⟩ := Bool.and_eq_true_iff.mp hhit
    exact ⟨_, exec_totpDerive_of_hit h h0 hhit, h, rfl, rfl, hcv, of_decide_eq_true hcs, rfl⟩
  · exact ⟨_, exec_totpDerive_of_miss h h0 hhit hl, by simp, by simp, by simp, rfl, rfl, rfl⟩

end

/-- TOTP.DERIVE that raises leaves no digest, no string and no cached step (R129, R171). -/
theorem exec_totpDerive_of_raised {s : State} {c : ErrorCode} (hr : raisedCode .totpDerive s = some c) :
    exec .totpDerive s = .next { s with
      dvalid := false, olen := 0, out := Vector.replicate 11 0x00, cvalid := false,
      err := c.byte, faulted := true } := by
  rw [exec_of_raised (by rwa [enterCommand_keeps _ rfl]), raisedState_totpDerive, unsetCode_clearCvalid]

/-! ### Derivations from other states -/

/-- `hotp` reads its counter from its caller and not from CTR (R113). -/
theorem hotp_withCtr (c v : DWord) (s : State) :
    hotp c { s with ctr := v } = { hotp c s with ctr := v } := by
  obtain ⟨hhash, hdigest, hbin, hcode, hout⟩ :=
    hotp_agree (s := { s with ctr := v }) (s' := s) (fun _ => rfl) rfl c
  rw [hotp_frame c { s with ctr := v }, hhash, hdigest, hbin, hcode, hout]
  ext1 <;> simp

theorem exec_hotpDerive_withCtr (v : DWord) {s : State} (h : s.hash.phase ≠ .active)
    (hl : s.klen.toNat ≤ 64) : exec .hotpDerive { s with ctr := v } =
      .next { hotp v s with ctr := v, cvalid := false, err := 0x00 } := by
  rw [exec_hotpDerive_of_ok (s := { s with ctr := v }) h hl, hotp_withCtr v v s]

theorem cstep_eq_timeStep {s : State} (h : s.cstep.toNat = s.ts.toNat / s.tstep.toNat) :
    s.cstep = timeStep s :=
  BitVec.eq_of_toNat_eq (h.trans (timeStep_toNat s).symm)

/-- The script that writes TS and evaluates is TOTP.DERIVE at the timestamp (R72). -/
theorem hostRun_totpAt (v : DWord) (s : State) :
    hostRun (expandScript [.directive (.wr64 (addrOf .ts) v), .command .totpDerive]) s =
      exec .totpDerive { s with ts := v } := by
  obtain ⟨t, ht⟩ : ∃ t, exec .totpDerive { s with ts := v } = .next t := ⟨_, exec_eq_frame _ _⟩
  have hissue := (perform_issueOf (decode_encode .totpDerive) { s with ts := v }).trans ht
  change hostRun (expandDirective (.wr64 (addrOf .ts) v) ++ [issueOf .totpDerive]) s = _
  rw [hostRun_append_of (hostRun_wr64_ts s v), hostRun_cons_of hissue, hostRun_nil, ht]

/-! ### The settled statements -/

/-- Settles O41: both modes translate to the same time. -/
theorem timeXlateModesMirror : Obligations.TimeXlateModesMirror := by
  unfold Obligations.TimeXlateModesMirror
  intro s h
  have ht := translatedTime_neg_tzoff h
  rcases lt_or_ge (translatedTime .subtract s) 0 with hneg | hnonneg
  · exact ⟨_, exec_timeXlate_of_neg hneg, exec_timeXlate_of_neg (ht.trans_lt hneg)⟩
  · refine ⟨_, exec_timeXlate_of_nonneg hnonneg, ?_⟩
    rw [exec_timeXlate_of_nonneg (ht ▸ hnonneg), ht]

/-- Settles O42: on a miss TOTP.DERIVE runs `hotp` at the step, which does not read CTR. -/
theorem totpComputesAndCaches : Obligations.TotpComputesAndCaches := by
  unfold Obligations.TotpComputesAndCaches
  intro s h h0 hl hmiss
  rw [← cacheHit_iff] at hmiss
  refine ⟨_, _, exec_totpDerive_of_miss h h0 hmiss hl,
    exec_hotpDerive_withCtr (timeStep s) h hl, timeStep_toNat s, ?_, ?_⟩
  · rw [hotp_hmaccnt]
  · rw [← hotp_ctr s (timeStep s)]

/-- Settles O43: the cache answers. -/
theorem totpHitWritesOnlyErr : Obligations.TotpHitWritesOnlyErr := by
  unfold Obligations.TotpHitWritesOnlyErr
  exact fun s h h0 hcv hcs => exec_totpDerive_of_hit h h0 ((cacheHit_iff s).mpr ⟨hcv, hcs⟩)

/-- Settles O44: the three tests in their order, the last on a miss only. -/
theorem totpRefusalsInOrder : Obligations.TotpRefusalsInOrder := by
  unfold Obligations.TotpRefusalsInOrder
  refine fun s => ⟨fun h => exec_totpDerive_of_raised (raisedCode_totpDerive_of_active h),
    fun h h0 => exec_totpDerive_of_raised (raisedCode_totpDerive_of_divz h h0),
    fun h h0 hmiss hl => exec_totpDerive_of_raised (c := .keylen) ?_⟩
  rw [← cacheHit_iff] at hmiss
  rw [raisedCode_totpDerive_of_miss h h0 hmiss, if_pos ((keyTooLong_eq_true s).mpr hl)]

/-- Settles O45: the hit leaves the state, and coherence says that the recomputation leaves it too but for
HMACCNT. -/
theorem cacheHitEqualsRecomputation : Obligations.CacheHitEqualsRecomputation := by
  unfold Obligations.CacheHitEqualsRecomputation
  intro s hcoh hcv hcs h h0 hl
  refine ⟨_, exec_totpDerive_of_hit h h0 ((cacheHit_iff s).mpr ⟨hcv, hcs⟩), ?_⟩
  have hstep : timeStep (clearCvalid s) = s.cstep := (cstep_eq_timeStep hcs).symm
  change exec .totpDerive (clearCvalid s) = _
  rw [exec_totpDerive_of_miss (s := clearCvalid s) h h0 Bool.false_ne_true hl, hstep, hotp_clearCvalid,
    hcoh hcv, ← hcv]

/-- Settles O46: the first evaluation caches its step, so the second, in the same step, hits. -/
theorem secondEvaluationInStepIsFree : Obligations.SecondEvaluationInStepIsFree := by
  unfold Obligations.SecondEvaluationInStepIsFree
  intro s t1 t2 h h0 hl hsame
  obtain ⟨u, hu, hphase, htstep, hts, hcv, hcs, herr⟩ :=
    exec_totpDerive_caches (s := { s with ts := t1 }) h h0 hl
  have hhit : cacheHit { u with ts := t2 } = true := by
    rw [cacheHit_iff]
    dsimp only
    rw [hcs, timeStep_toNat, htstep]
    exact ⟨hcv, hsame⟩
  have hv := exec_totpDerive_of_hit (s := { u with ts := t2 }) hphase (htstep ▸ h0) hhit
  dsimp only at hv
  rw [← herr] at hv
  exact ⟨u, _, (hostRun_totpAt t1 s).trans hu, (hostRun_totpAt t2 u).trans hv, hts, rfl, rfl⟩

end Sys2Proof.Machine

/-! SUPPORT. Masking as an involution (44_xormask.md R142): KEY copied to ESEC by the data port, and the
settled statement about it. -/

namespace Sys2Proof.Machine

/-- The first `n` bytes of a window are its bytes. -/
theorem getD_take_toList {m : Nat} (v : Vector Byte m) {n i : Nat} (hi : i < n) :
    (v.toList.take n).getD i 0x00 = byteAt v i := by
  rw [← byteAt_toList, List.getD, List.getElem?_take_of_lt hi, List.getD]

/-- XOR.MASK within the length bound, byte by byte (R141). -/
theorem exec_xorMask_bytes {n : Byte} (hn : n.toNat ≤ 20) (s : State) :
    ∃ t, exec (.xorMask n) s = .next t ∧
      (∀ i < n.toNat, byteAt t.key i = byteAt s.dkey i ^^^ byteAt s.esec i) ∧
      t.dkey = s.dkey ∧ t.klen = n :=
  ⟨_, exec_xorMask_of_le hn s, fun _ hi => byteAt_maskedKey_of_lt hn s hi, rfl, rfl⟩

/-- Settles O48: the second mask meets the first in ESEC, and XOR with DKEY cancels itself. -/
theorem maskingIsInvolution : Obligations.MaskingIsInvolution := by
  unfold Obligations.MaskingIsInvolution
  intro n s hn
  obtain ⟨t, ht, htkey, htdkey, -⟩ := exec_xorMask_bytes hn s
  have hlen : (t.key.toList.take n.toNat).length = n.toNat := by
    rw [List.length_take, Vector.length_toList]
    omega
  have hcopy := hostRun_write_esec t 0 (t.key.toList.take n.toNat) (by omega)
  obtain ⟨v, hv, hvkey, -, hvklen⟩ :=
    exec_xorMask_bytes hn { t with esec := putAll t.esec 0 (t.key.toList.take n.toNat) }
  refine ⟨t, _, v, ht, by rw [addrOf_esec]; exact hcopy, hv, fun i hi => ?_, hvklen⟩
  calc byteAt v.key i
      = byteAt t.dkey i ^^^ byteAt t.key i := by
        rw [hvkey i hi, byteAt_putAll _ _ _ (by omega), if_pos (by omega), Nat.sub_zero,
          getD_take_toList _ hi]
    _ = byteAt s.esec i := by
        rw [htkey i hi, htdkey, ← BitVec.xor_assoc, BitVec.xor_self, BitVec.zero_xor]

end Sys2Proof.Machine
